-- ==== Sys2Proof/Word.lean ====
section
/-! DEFINITION. The word types of the block (00_scope.md R12, R13). -/

namespace Sys2Proof

/-- A byte of a frame, a ring or a coil pattern (R12). -/
abbrev Byte := BitVec 8

/-- A wire address, count, 16-bit register value, fault counter or the CRC register (R12). -/
abbrev U16 := BitVec 16

/-- A 32-bit register value, a serial number, or the bits of an s32 or f32 (R12). -/
abbrev U32 := BitVec 32

/-- The bits of an IEEE-754 binary64 (R12). -/
abbrev U64 := BitVec 64

end Sys2Proof
end

