-- ==== Sys2Proof/Machine/Bits.lean ====
section
/-! DEFINITION. Byte assembly and byte order (00_scope.md R13, 20_memory.md R43, R44). -/

namespace Sys2Proof.Machine

/-- `be16(h, l) = h*256 + l` (R13). -/
def be16 (h l : Byte) : U16 := h ++ l

/-- `be32(a, b, c, d)`, `a` the most significant byte (R13). -/
def be32 (a b c d : Byte) : U32 := a ++ b ++ c ++ d

/-- `lo8(v) = v[7:0]` (R13). -/
def lo8 (v : U16) : Byte := v.extractLsb' 0 8

/-- `hi8(v) = v[15:8]` (R13). -/
def hi8 (v : U16) : Byte := v.extractLsb' 8 8

/-- The bytes of a 16-bit field, most significant first (R43). -/
def bytes16 (v : U16) : List Byte := [hi8 v, lo8 v]

/-- The bytes of a 32-bit field, most significant first: `A B C D` of R45 (R43). -/
def bytes32 (v : U32) : List Byte :=
  [v.extractLsb' 24 8, v.extractLsb' 16 8, v.extractLsb' 8 8, v.extractLsb' 0 8]

/-- The bytes of the CRC, least significant first (R44). -/
def crcBytes (c : U16) : List Byte := [lo8 c, hi8 c]

end Sys2Proof.Machine
end

