-- ==== Sys2Proof/Machine/Crc.lean ====
section
/-! DEFINITION. The CRC-16/Modbus engine (41_crc16.md R76): a pure function of a byte sequence. -/

namespace Sys2Proof.Machine

/-- One of the 8 iterations: "if LSB set, shift right and XOR with 0xA001, else shift right". -/
def crcBit (crc : U16) : U16 :=
  if crc.getLsbD 0 then (crc >>> 1) ^^^ 0xA001 else crc >>> 1

/-- One byte: XOR into the low byte of the register, then 8 iterations. -/
def crcByte (crc : U16) (x : Byte) : U16 :=
  crcBit (crcBit (crcBit (crcBit (crcBit (crcBit (crcBit (crcBit (crc ^^^ x.setWidth 16))))))))

/-- `CRC16(x_0 .. x_(m-1))`, from the initial register 0xFFFF (R76). -/
def crc16 (xs : List Byte) : U16 := xs.foldl crcByte 0xFFFF

/-- A received frame is CRC-valid when the CRC of all bytes but the last two is the last two, low
byte first (R57, R79). -/
def crcValid (frame : List Byte) : Bool :=
  crcBytes (crc16 (frame.take (frame.length - 2))) == frame.drop (frame.length - 2)

end Sys2Proof.Machine
end

