-- ==== Sys2Proof/Syntax.lean ====
section
/-! DEFINITION. The instructions of the block: the nine request frames of opcode_table.json
(30_encoding.md R56, R58, R59, R62). -/

namespace Sys2Proof

/-- The address prefix of a request frame (R56): SHORT mode is one byte, LONG mode is 0xFA and a
4-byte serial number. -/
inductive Address where
  | short (slave : Byte)
  | long (serial : U32)
  deriving DecidableEq, Repr

/-- One request frame, as its prefix and the fields of its format. The CRC is no operand: it is
fixed by the bytes before it (R57). The byte-count field of WR_MULTI is the length of `data`. -/
inductive Instr where
  | rdCoils (p : Address) (start count : U16)
  | rdDiscretes (p : Address) (start count : U16)
  | rdHolding (p : Address) (start count : U16)
  | rdInput (p : Address) (start count : U16)
  | wrCoil (p : Address) (addr value : U16)
  | wrReg (p : Address) (addr value : U16)
  | wrMulti (p : Address) (start count : U16) (data : List Byte)
  | diagSample (p : Address) (field tune : U16)
  | forceAddr (p : Address) (serial : U32) (newAddr : Byte)
  deriving DecidableEq, Repr

end Sys2Proof
end

