-- ==== Sys2Proof/WellFormed.lean ====
section
/-! DEFINITION. Which instructions are frames the wire can carry. -/

namespace Sys2Proof

/-- A SHORT prefix is not 0xFA: that byte always selects LONG mode (30_encoding.md R56,
70_reset_and_hazards.md R179). -/
def Address.wellFormed : Address → Bool
  | .short slave => slave != 0xFA
  | .long _ => true

/-- Every operand fits its field: the only fields a term could overrun are the SHORT prefix and the
one-byte byte count of WR_MULTI (R58, R59). -/
def Instr.wellFormed : Instr → Bool
  | .rdCoils p _ _ => p.wellFormed
  | .rdDiscretes p _ _ => p.wellFormed
  | .rdHolding p _ _ => p.wellFormed
  | .rdInput p _ _ => p.wellFormed
  | .wrCoil p _ _ => p.wellFormed
  | .wrReg p _ _ => p.wellFormed
  | .wrMulti p _ _ data => p.wellFormed && decide (data.length ≤ 255)
  | .diagSample p _ _ => p.wellFormed
  | .forceAddr p _ _ => p.wellFormed

end Sys2Proof
end

