-- ==== Sys2Proof/Decode.lean ====
section
/-! DEFINITION. The decoder from frame bytes to instructions, and the encoder
(30_encoding.md R56 to R59, R62 to R64). -/

namespace Sys2Proof

open Sys2Proof.Machine

/-- The nine function codes (R62). -/
inductive Fn where
  | rdCoils | rdDiscretes | rdHolding | rdInput | wrCoil | wrReg | wrMulti | diagSample | forceAddr
  deriving DecidableEq, Repr

/-- The function-code byte of each (R62). -/
def fnCode : Fn → Byte
  | .rdCoils => 0x01
  | .rdDiscretes => 0x02
  | .rdHolding => 0x03
  | .rdInput => 0x04
  | .wrCoil => 0x05
  | .wrReg => 0x06
  | .wrMulti => 0x10
  | .diagSample => 0x42
  | .forceAddr => 0x44

/-- The function a code selects, all 8 bits compared; every other value is illegal (R62, R63). -/
def fnOfCode (c : Byte) : Option Fn :=
  if c = 0x01 then some .rdCoils
  else if c = 0x02 then some .rdDiscretes
  else if c = 0x03 then some .rdHolding
  else if c = 0x04 then some .rdInput
  else if c = 0x05 then some .wrCoil
  else if c = 0x06 then some .wrReg
  else if c = 0x10 then some .wrMulti
  else if c = 0x42 then some .diagSample
  else if c = 0x44 then some .forceAddr
  else none

/-- The functions whose broadcast is dropped before its CRC is checked (42_frame_receiver.md R85). -/
def fnRefusesBroadcast : Fn → Bool
  | .rdCoils | .rdDiscretes | .rdHolding | .rdInput | .diagSample => true
  | .wrCoil | .wrReg | .wrMulti | .forceAddr => false

/-- `FrameLength(fc, A)`, with `bc` the byte-count byte `b(A+6)` (R58, R84). -/
def frameLengthOf (f : Fn) (a : Nat) (bc : Byte) : Nat :=
  match f with
  | .rdCoils | .rdDiscretes | .rdHolding | .rdInput | .wrCoil | .wrReg | .diagSample => 8 + a
  | .forceAddr => 9 + a
  | .wrMulti => 9 + a + bc.toNat

/-- The offset `A`: 4 in LONG mode, which is byte 0 = 0xFA, else 0 (R56). -/
def addressOffset (bs : List Byte) : Nat := if bs.getD 0 0 = 0xFA then 4 else 0

/-- The prefix of a frame (R56, R59). -/
def decodeAddress (bs : List Byte) : Address :=
  if bs.getD 0 0 = 0xFA then
    .long (be32 (bs.getD 1 0) (bs.getD 2 0) (bs.getD 3 0) (bs.getD 4 0))
  else .short (bs.getD 0 0)

/-- Field assembly (R59) of a frame of function `f` whose length has been checked. -/
def decodeFields (f : Fn) (bs : List Byte) : Instr :=
  let a := addressOffset bs
  let p := decodeAddress bs
  let w1 := be16 (bs.getD (a + 2) 0) (bs.getD (a + 3) 0)
  let w2 := be16 (bs.getD (a + 4) 0) (bs.getD (a + 5) 0)
  match f with
  | .rdCoils => .rdCoils p w1 w2
  | .rdDiscretes => .rdDiscretes p w1 w2
  | .rdHolding => .rdHolding p w1 w2
  | .rdInput => .rdInput p w1 w2
  | .wrCoil => .wrCoil p w1 w2
  | .wrReg => .wrReg p w1 w2
  | .wrMulti => .wrMulti p w1 w2 ((bs.drop (a + 7)).take (bs.getD (a + 6) 0).toNat)
  | .diagSample => .diagSample p w1 w2
  | .forceAddr =>
    .forceAddr p (be32 (bs.getD (a + 2) 0) (bs.getD (a + 3) 0) (bs.getD (a + 4) 0)
      (bs.getD (a + 5) 0)) (bs.getD (a + 6) 0)

/-- Why the decoder reads no instruction. -/
inductive Reject where
  /-- Fewer bytes than the frame needs (R64; R81, R82 and R84 wait on it). -/
  | incomplete
  /-- A function code outside the nine (R63). -/
  | unknownFunction (code : Byte)
  /-- The last two bytes of the frame are not its CRC (R57, R86). -/
  | crcMismatch
  deriving DecidableEq, Repr

/-- The decoder's answer: an instruction and the length `L` of its frame, or why there is none. -/
inductive Decoded where
  | instr (i : Instr) (len : Nat)
  | reject (r : Reject)
  deriving DecidableEq, Repr

/-- The decoder, total on any bytes: mode, function code, length, CRC, fields (R64, R57, R59). The
bytes after the frame are not looked at. -/
def decode (bs : List Byte) : Decoded :=
  let a := addressOffset bs
  if bs.length < 8 + a then .reject .incomplete
  else
    match fnOfCode (bs.getD (a + 1) 0) with
    | none => .reject (.unknownFunction (bs.getD (a + 1) 0))
    | some f =>
      let len := frameLengthOf f a (bs.getD (a + 6) 0)
      if bs.length < len then .reject .incomplete
      else if crcValid (bs.take len) then .instr (decodeFields f bs) len
      else .reject .crcMismatch

/-- The prefix of an instruction. -/
def instrAddress : Instr → Address
  | .rdCoils p _ _ | .rdDiscretes p _ _ | .rdHolding p _ _ | .rdInput p _ _ | .wrCoil p _ _
  | .wrReg p _ _ | .wrMulti p _ _ _ | .diagSample p _ _ | .forceAddr p _ _ => p

/-- The function of an instruction. -/
def instrFn : Instr → Fn
  | .rdCoils _ _ _ => .rdCoils
  | .rdDiscretes _ _ _ => .rdDiscretes
  | .rdHolding _ _ _ => .rdHolding
  | .rdInput _ _ _ => .rdInput
  | .wrCoil _ _ _ => .wrCoil
  | .wrReg _ _ _ => .wrReg
  | .wrMulti _ _ _ _ => .wrMulti
  | .diagSample _ _ _ => .diagSample
  | .forceAddr _ _ _ => .forceAddr

/-- The prefix bytes (R56). -/
def addressBytes : Address → List Byte
  | .short slave => [slave]
  | .long serial => 0xFA :: bytes32 serial

/-- The bytes between the function code and the CRC (R58). -/
def operandBytes : Instr → List Byte
  | .rdCoils _ start count | .rdDiscretes _ start count | .rdHolding _ start count
  | .rdInput _ start count => bytes16 start ++ bytes16 count
  | .wrCoil _ addr value | .wrReg _ addr value => bytes16 addr ++ bytes16 value
  | .wrMulti _ start count data =>
    bytes16 start ++ bytes16 count ++ BitVec.ofNat 8 data.length :: data
  | .diagSample _ field tune => bytes16 field ++ bytes16 tune
  | .forceAddr _ serial newAddr => bytes32 serial ++ [newAddr]

/-- A frame: its body and the CRC of the body, low byte first (R57). -/
def withCrc (body : List Byte) : List Byte := body ++ crcBytes (crc16 body)

/-- The encoder: prefix, function code, operands, CRC (R56, R57, R58). -/
def encode (i : Instr) : List Byte :=
  withCrc (addressBytes (instrAddress i) ++ fnCode (instrFn i) :: operandBytes i)

/-- The length of an instruction's frame (R58). -/
def frameLength (i : Instr) : Nat := (encode i).length

/-- Byte `k` of a number of `nbits` bits whose byte 0 is the least significant; bits from `nbits`
upward are 0. -/
def tableByte (nbits w k : Nat) : Byte := if 8 * k < nbits then BitVec.ofNat 8 (w / 256 ^ k) else 0

/-- The frame that carries a row of spec/opcode_table.json to the device whose address is `slave`:
the table numbers the bits from the function code on (frame byte A+1), so byte 0 of `w` is the
function code, the SHORT prefix stands before it and the CRC after the operands (log 15). -/
def tableFrame (slave : Byte) (nbits w : Nat) : List Byte :=
  let fc := tableByte nbits w 0
  let len : Nat :=
    match fnOfCode fc with
    | some f => frameLengthOf f 0 (tableByte nbits w 5) - 3
    | none => 5
  withCrc (slave :: (List.range len).map (tableByte nbits w))

/-- The instruction the decoder reads from a row's bits, in a frame addressed to slave 1 (the slave
address of `State.reset`); log 15. -/
def decodeTableWord (nbits w : Nat) : Option Instr :=
  match decode (tableFrame 0x01 nbits w) with
  | .instr i _ => some i
  | .reject _ => none

end Sys2Proof
end

