-- ==== Sys2Proof/Config.lean ====
section
/-! DEFINITION. What is fixed for a run (00_scope.md R7 to R11), the vocabulary its tables use, and
the free values. -/

namespace Sys2Proof

/-- Register class (10_state.md R24): selects the encoder and the silence timer. -/
inductive RegClass where
  | int | long | float | coil | diag | force
  deriving DecidableEq, Repr

/-- One value per register class: the delays, and the class timers (R8, R27). -/
structure PerClass (α : Type) where
  int : α
  long : α
  float : α
  coil : α
  diag : α
  force : α
  deriving DecidableEq, Repr

/-- The five value kinds (20_memory.md R36, 44_dispatcher.md R105). -/
inductive Kind where
  | rawDouble | rawInteger | rawLongInteger | annotated | coilBoolean
  deriving DecidableEq, Repr

/-- The five permission classes (R105). -/
inductive Perm where
  | volatile | password | readOnly | writeOnly | factory
  deriving DecidableEq, Repr

/-- Read or write direction (10_state.md R23). -/
inductive Dir where
  | read | write
  deriving DecidableEq, Repr

/-- Byte-order variant of a 32-bit value (20_memory.md R45). -/
inductive ByteOrder where
  | abcd | badc | cdab | dcba
  deriving DecidableEq, Repr

/-- A storage reference, opaque to the block (R36): a base and an element index, so that element `i`
of an extended segment's base is the reference (base, i) (R37); log 13. -/
structure StorageRef where
  base : Nat
  index : Nat
  deriving DecidableEq, Repr

/-- A lookup result (R37, R105). -/
structure Binding where
  ref : StorageRef
  kind : Kind
  perm : Perm
  deriving DecidableEq, Repr

/-- An entry of a linear table; `addr = 0` is the sentinel (R9, R106). -/
structure Entry where
  addr : Nat
  bnd : Binding
  deriving DecidableEq, Repr

/-- A segment of the extended table (R9, R37). -/
structure Segment where
  rangeStart : Nat
  kind : Kind
  perm : Perm
  base : Nat
  deriving DecidableEq, Repr

/-- `ROUND_TIE` (R11). -/
inductive RoundTie where
  | away | even
  deriving DecidableEq, Repr

/-- `RX_DURING_TX` (R11). -/
inductive RxDuringTx where
  | accept | drop
  deriving DecidableEq, Repr

/-- `STRIDE32` (R11). -/
inductive Stride where
  | one | two
  deriving DecidableEq, Repr

/-- `WRITE_POLICY` (R11). -/
inductive WritePolicy where
  | partialWrites | atomicWrites
  deriving DecidableEq, Repr

/-- A typed store value (R36): s32 values and f64 values as their bits (R12). -/
inductive Value where
  | f64 (x : U64)
  | i32 (n : U32)
  | l32 (n : U32)
  | ann (x : U64)
  | bool (b : Bool)
  deriving DecidableEq, Repr

/-- The parameters of a run (R7 to R11), all but DIAG_SNAPSHOT, which is `Config.diagSnapshot`. -/
structure Config where
  /-- `RX_CAP`, `TX_CAP`, `Q_CAP` (R7). -/
  rxCap : Nat
  txCap : Nat
  qCap : Nat
  /-- `T_WDOG`, `T_CLASS[k]`, `T_RETRY[k]`, in TICK events (R8). -/
  tWdog : Nat
  tClass : PerClass Nat
  tRetry : PerClass Nat
  /-- The register tables (R9). -/
  intTable : List Entry
  longTable : List Entry
  floatTable : List Entry
  coilTable : List Entry
  extTable : List Segment
  extEnd : Nat
  /-- `SLAVE_ADDR_INIT` and `PIPE_SERIAL` (R10). -/
  slaveAddrInit : Byte
  pipeSerial : U32
  /-- The behaviour switches (R11). -/
  overwriteAdvancesTail : Bool
  emptySentinel : Byte
  roundTie : RoundTie
  rxDuringTx : RxDuringTx
  stride32 : Stride
  writePolicy : WritePolicy
  deriving DecidableEq, Repr

/-- `DIAG_SNAPSHOT` (R10, R139, OPEN): word `j` of the 34 words the diagnostic sample answers, for a
store and a tuning value; log 11. -/
opaque Config.diagSnapshot : List (Nat × Value) → U16 → Nat → U16

/-- The u16 of draw number `n` (45_encoders.md R120); log 10. -/
opaque Config.freeU16 : Nat → U16

/-- The u32 or s32 of draw number `n` (R121, R125); log 10. -/
opaque Config.freeU32 : Nat → U32

/-- 64 bits of draw number `n`, from which the NaN patterns of R122 and R125 are taken; log 10. -/
opaque Config.freeU64 : Nat → U64

/-- How many steps the event of draw number `n` is put off, once the event script is empty: "Nothing
bounds how long any of these takes" (60_exceptions.md R158, 70_reset_and_hazards.md R183); log 7. -/
opaque Config.freePatience : Nat → Nat

end Sys2Proof
end

