-- ==== Sys2Proof/Machine/Float.lean ====
section
/-! DEFINITION. IEEE-754 binary64 and binary32 patterns: rounding to an integer (45_encoders.md
R119), narrowing to f32 by round-to-nearest-even (R122) and exact widening (R123 to R125). A finite
value is (-1)^neg * m * 2^e with `m` a natural and `e` an integer. -/

namespace Sys2Proof.Machine

/-- A finite value: sign, magnitude `m`, exponent `e`. -/
structure Finite where
  neg : Bool
  m : Nat
  e : Int
  deriving DecidableEq, Repr

/-- The sign bit of an f64 pattern. -/
def f64Neg (x : U64) : Bool := x.getLsbD 63

/-- The exponent field of an f64 pattern. -/
def f64Exp (x : U64) : Nat := (x.extractLsb' 52 11).toNat

/-- The fraction field of an f64 pattern. -/
def f64Frac (x : U64) : Nat := (x.extractLsb' 0 52).toNat

/-- An f64 is NaN: exponent all ones, fraction nonzero. -/
def f64IsNan (x : U64) : Bool := f64Exp x == 2047 && f64Frac x != 0

/-- The finite value of an f64 pattern, none for NaN and infinities. -/
def f64Finite (x : U64) : Option Finite :=
  if f64Exp x = 2047 then none
  else if f64Exp x = 0 then some ⟨f64Neg x, f64Frac x, -1074⟩
  else some ⟨f64Neg x, 2 ^ 52 + f64Frac x, (f64Exp x : Int) - 1075⟩

/-- The sign bit of an f32 pattern. -/
def f32Neg (x : U32) : Bool := x.getLsbD 31

/-- The exponent field of an f32 pattern. -/
def f32Exp (x : U32) : Nat := (x.extractLsb' 23 8).toNat

/-- The fraction field of an f32 pattern. -/
def f32Frac (x : U32) : Nat := (x.extractLsb' 0 23).toNat

/-- An f32 is NaN: exponent all ones, fraction nonzero. -/
def f32IsNan (x : U32) : Bool := f32Exp x == 255 && f32Frac x != 0

/-- The finite value of an f32 pattern, none for NaN and infinities. -/
def f32Finite (x : U32) : Option Finite :=
  if f32Exp x = 255 then none
  else if f32Exp x = 0 then some ⟨f32Neg x, f32Frac x, -149⟩
  else some ⟨f32Neg x, 2 ^ 23 + f32Frac x, (f32Exp x : Int) - 150⟩

/-- `m / 2^k` to the nearest integer, a tie going up (away from zero, `m` being a magnitude) or to
the even integer (R119). -/
def roundShift (tie : RoundTie) (m k : Nat) : Nat :=
  let q := m / 2 ^ k
  let r := m % 2 ^ k
  if 2 * r < 2 ^ k then q
  else if 2 ^ k < 2 * r then q + 1
  else
    match tie with
    | .away => q + 1
    | .even => if q % 2 = 0 then q else q + 1

/-- `m * 2^e` to the nearest integer. -/
def roundScaled (tie : RoundTie) (m : Nat) (e : Int) : Nat :=
  if 0 ≤ e then m * 2 ^ e.toNat
  else if m = 0 then 0
  else roundShift tie m (-e).toNat

/-- `Round` of a finite value (R119). -/
def roundFinite (tie : RoundTie) (v : Finite) : Int :=
  if v.neg then -(roundScaled tie v.m v.e : Int) else (roundScaled tie v.m v.e : Int)

/-- `Round(x)` of an f64 (R119); none is the spec's DRAW: NaN or infinite. -/
def f64Round (tie : RoundTie) (x : U64) : Option Int := (f64Finite x).map (roundFinite tie)

/-- `Round(f)` of an f32 (R119, R125); none is DRAW. -/
def f32Round (tie : RoundTie) (x : U32) : Option Int := (f32Finite x).map (roundFinite tie)

/-- The magnitude bits of the f32 nearest to `m * 2^e`, by round-to-nearest-even (R122). The value is
rounded to a multiple of the target's unit 2^q; a carry out of the fraction moves into the exponent
field, and a magnitude past the largest finite one is infinity. -/
def f32Magnitude (m : Nat) (e : Int) : Nat :=
  if m = 0 then 0
  else
    let q : Int := max ((Nat.log2 m : Int) + e - 23) (-149)
    let bits := (q + 149).toNat * 2 ^ 23 + roundScaled .even m (e - q)
    min bits 0x7F800000

/-- The f32 nearest to a finite value (R122). -/
def f32OfFinite (v : Finite) : U32 :=
  BitVec.ofNat 32 ((if v.neg then 2 ^ 31 else 0) + f32Magnitude v.m v.e)

/-- The f32 infinity of a sign. -/
def f32Infinity (neg : Bool) : U32 := if neg then 0xFF800000 else 0x7F800000

/-- The bits of the f64 that is exactly `m * 2^e`, for a value with at most 53 significant bits in
the normal range, as every f32 and every s32 is (R123, R124, R125). -/
def f64OfFinite (v : Finite) : U64 :=
  BitVec.ofNat 64 ((if v.neg then 2 ^ 63 else 0) +
    if v.m = 0 then 0
    else ((Nat.log2 v.m : Int) + v.e + 1022).toNat * 2 ^ 52 + v.m * 2 ^ (52 - Nat.log2 v.m))

/-- An integer as a finite value. -/
def finiteOfInt (n : Int) : Finite := ⟨decide (n < 0), n.natAbs, 0⟩

/-- `F64(n)`, exact for every s32 (R123, R124). -/
def f64OfInt (n : Int) : U64 := f64OfFinite (finiteOfInt n)

/-- The f32 nearest to an integer (R122). -/
def f32OfInt (n : Int) : U32 := f32OfFinite (finiteOfInt n)

/-- An f32 NaN from 64 free bits: any sign, any nonzero fraction (R122). -/
def f32NanOf (w : U64) : U32 :=
  let frac := w.extractLsb' 0 23
  w.extractLsb' 31 1 ++ (0xFF : Byte) ++ (if frac = 0 then 1 else frac)

/-- An f64 NaN from 64 free bits: any sign, any nonzero fraction (R125). -/
def f64NanOf (w : U64) : U64 :=
  let frac := w.extractLsb' 0 52
  w.extractLsb' 63 1 ++ (0x7FF : BitVec 11) ++ (if frac = 0 then 1 else frac)

end Sys2Proof.Machine
end

