-- ==== Sys2Proof/Machine/CfgA.lean ====
section
/-! DEFINITION. Configuration CFG-A of 95_test_vectors.md section 0, which `State.reset` runs with
(log 2, log 3). -/

namespace Sys2Proof

/-- The key a storage reference is held under in the store's list (log 13). -/
def StorageRef.key (r : StorageRef) : Nat := Nat.pair r.base r.index

/-- The same value for every class. -/
def PerClass.all {α : Type} (x : α) : PerClass α := ⟨x, x, x, x, x, x⟩

end Sys2Proof

namespace Sys2Proof.Machine

/-- An entry of a linear table of CFG-A. -/
def cfgAEntry (addr base : Nat) (kind : Kind) (perm : Perm) : Entry :=
  ⟨addr, ⟨⟨base, 0⟩, kind, perm⟩⟩

/-- The sentinel entry that ends a linear table (44_dispatcher.md R106). -/
def cfgASentinel : Entry := cfgAEntry 0 0 .rawInteger .readOnly

/-- CFG-A. The references i201.., l301.., f1.. are the bases of those numbers, c1..c11 the bases 2001
to 2011, X and Y the bases 3000 and 3001. -/
def cfgA : Config where
  rxCap := 268
  txCap := 259
  qCap := 4
  tWdog := 3
  tClass := .all 2
  tRetry := .all 1
  intTable :=
    [cfgAEntry 201 201 .rawInteger .volatile, cfgAEntry 202 202 .rawInteger .volatile,
     cfgAEntry 203 203 .rawDouble .password, cfgAEntry 204 204 .rawInteger .readOnly,
     cfgAEntry 205 205 .rawInteger .writeOnly, cfgAEntry 206 206 .rawInteger .factory,
     cfgAEntry 207 207 .annotated .volatile, cfgAEntry 208 208 .coilBoolean .volatile, cfgASentinel]
  longTable :=
    [cfgAEntry 301 301 .rawLongInteger .volatile, cfgAEntry 303 303 .rawLongInteger .password,
     cfgASentinel]
  floatTable :=
    [cfgAEntry 1 1 .rawDouble .volatile, cfgAEntry 3 3 .rawDouble .volatile,
     cfgAEntry 5 5 .rawInteger .volatile, cfgASentinel]
  coilTable :=
    (List.range 10).map (fun j => cfgAEntry (j + 1) (2001 + j) .coilBoolean .volatile) ++
      [cfgAEntry 11 2011 .rawInteger .volatile, cfgASentinel]
  extTable := [⟨100, .rawDouble, .readOnly, 3000⟩, ⟨300, .rawDouble, .readOnly, 3001⟩]
  extEnd := 400
  slaveAddrInit := 1
  pipeSerial := 0x12345678
  overwriteAdvancesTail := false
  emptySentinel := 0
  roundTie := .away
  rxDuringTx := .accept
  stride32 := .two
  writePolicy := .partialWrites

/-- The elements 1, 2, .. of an extended array of CFG-A: `(X, j) = F64(j)`, `(Y, j) = F64(-j)`.
Element 0 is F64(0), which a reference not listed holds. -/
def cfgAArray (base n : Nat) (sign : Int) : List (Nat × Value) :=
  (List.range n).map fun j =>
    (StorageRef.key ⟨base, j + 1⟩, .f64 (f64OfInt (sign * ((j + 1 : Nat) : Int))))

/-- CFG-A's store at the start, as far as an address of its tables reaches it. The elements 0 of the
extended arrays, F64(0), are what a reference not listed holds (log 3). -/
def storeA : List (Nat × Value) :=
  [(StorageRef.key ⟨1, 0⟩, .f64 0x3FF8000000000000), (StorageRef.key ⟨3, 0⟩, .f64 0x3FB999999999999A),
   (StorageRef.key ⟨5, 0⟩, .i32 12), (StorageRef.key ⟨201, 0⟩, .i32 12),
   (StorageRef.key ⟨202, 0⟩, .i32 (-10)), (StorageRef.key ⟨203, 0⟩, .f64 0x4029000000000000),
   (StorageRef.key ⟨204, 0⟩, .i32 0x1234), (StorageRef.key ⟨205, 0⟩, .i32 5),
   (StorageRef.key ⟨206, 0⟩, .i32 6), (StorageRef.key ⟨207, 0⟩, .ann 0),
   (StorageRef.key ⟨208, 0⟩, .bool false), (StorageRef.key ⟨301, 0⟩, .l32 123456),
   (StorageRef.key ⟨303, 0⟩, .l32 (-2))] ++
    ([true, false, true, false, false, true, false, true, false, true].mapIdx fun j b =>
      (StorageRef.key ⟨2001 + j, 0⟩, .bool b)) ++
    [(StorageRef.key ⟨2011, 0⟩, .i32 0)] ++ cfgAArray 3000 99 1 ++ cfgAArray 3001 49 (-1)

end Sys2Proof.Machine
end

