-- ==== Sys2Proof/Machine/State.lean ====
section
/-! DEFINITION. The state of the block (10_state.md), why a step can stop, and the state after
reset (70_reset_and_hazards.md R170). -/

namespace Sys2Proof.Machine

/-- A byte ring (R19): `buf` lists the array's nonzero slots by index (log 4). -/
structure Ring where
  buf : List Host.Cell
  head : Nat
  tail : Nat
  count : Nat
  deriving DecidableEq, Repr

/-- Addressing mode of a request (R23). -/
inductive Mode where
  | short | long
  deriving DecidableEq, Repr

/-- The decoded descriptor of one accepted request frame (R23); the defaults are those of
42_frame_receiver.md section 2. -/
structure PendingRequest where
  mode : Mode
  slave : Byte
  bcast : Bool
  fc : Byte
  wireStart : U16 := 0
  start : Nat := 0
  offset : Nat := 0
  count : U16 := 0
  countEff : Nat := 0
  cls : RegClass
  dir : Dir
  byteCount : Byte := 0
  order : ByteOrder := .abcd
  lvf : Bool := false
  ext : Bool := false
  badOffset : Bool := false
  payload : List Byte := []
  deriving DecidableEq, Repr

/-- The request queue (R22): `slot` has Q_CAP entries. -/
structure Queue where
  slot : List (Option PendingRequest)
  head : Nat
  tail : Nat
  count : Nat
  deriving DecidableEq, Repr

/-- A timer (R25): `running n` has `n` TICK events to go. -/
inductive Timer where
  | off
  | running (n : Nat)
  | expired
  deriving DecidableEq, Repr

/-- The link direction (R28). -/
inductive LineMode where
  | receive | transmit
  deriving DecidableEq, Repr

/-- The status and control registers of R29, by name. -/
inductive HostReg where
  | slaveAddr | faultCount | crcFaultCount | rxOverrun | txOverrun | txInProgress | txie | lineMode
  | persistReq | unlocked | factoryUnlocked
  deriving DecidableEq, Repr

/-- The events, one handler each (30_encoding.md R65). -/
inductive Event where
  | rxByte (x : Byte)
  | txReady
  | tick
  | recv
  | wdogFire
  | classFire (k : RegClass)
  | hostWrite (r : HostReg) (v : U16)
  | hostStore (ref : StorageRef) (v : Value)
  deriving DecidableEq, Repr

/-- The output events (R66). -/
inductive OutEvent where
  | txByte (x : Byte)
  | sideEffect (ref : StorageRef)
  deriving DecidableEq, Repr

/-- Why a step stops with a fault. No instruction raises one. -/
inductive Fault where
  /-- `RingPeek(R, i)` with `i >= R.count` (40_bytering.md R71): raised by the frame receiver's read
  of the buffered bytes. Never reached. Safe. -/
  | peekPastCount
  /-- The event script offers an event that is not enabled (30_encoding.md R65): raised by `handle`.
  The block has no such move. Safe. -/
  | eventNotEnabled
  /-- HOST_STORE of a value of another kind than the reference is bound to (60_exceptions.md R168,
  U19: stuck): raised by `handle`. Safe. -/
  | storeOfWrongKind
  /-- CLASS_FIRE finds a (class, function) pair at the queue's head that the receiver never queues
  (45_encoders.md R112): raised by `classFire`. Not reached from a state whose queue holds only
  requests the receiver makes. Safe. -/
  | requestNeverQueued
  deriving DecidableEq, Repr

/-- Why a step is refused. -/
inductive Refusal where
  /-- An instruction that has no meaning yet, raised by `exec`'s arm of it. Safe. -/
  | notModelled (mnemonic : String)
  /-- The parameters break a bound: "outside this spec: a model refuses it"
  (70_reset_and_hazards.md R172), raised by `step`. Safe. -/
  | configOutOfBounds
  deriving DecidableEq, Repr

end Sys2Proof.Machine

namespace Sys2Proof.Machine

/-- Everything the spec gives the block between two handlers (10_state.md), with the run's parameters
(log 1), and the model's own `inputs` (log 6), `waiting` (log 7) and `freeCount` (log 10). -/
structure State where
  /-- The parameters, which no step writes (R17, R37). -/
  cfg : Config
  rx : Ring
  tx : Ring
  rxOverrun : Bool
  txOverrun : Bool
  rxPosted : Bool
  q : Queue
  wdog : Timer
  wdogN : Nat
  ctimer : PerClass Timer
  txInProgress : Bool
  txie : Bool
  lineMode : LineMode
  slaveAddr : Byte
  faultCount : U16
  crcFaultCount : U16
  persistReq : Bool
  unlocked : Bool
  factoryUnlocked : Bool
  /-- The register store, by reference key; a reference not listed holds `storeDefault` (log 3). -/
  store : List (Nat × Value)
  /-- The output sequence, first output first (R66). -/
  out : List OutEvent
  /-- The event script still to come (R67, R184). -/
  inputs : List Event
  /-- The events that fairness promises, longest waiting first, each with how many more steps it may
  be put off (log 7). -/
  waiting : List (Event × Nat)
  /-- How many free values have been drawn. -/
  freeCount : Nat
  deriving DecidableEq, Repr

/-- An empty ring with indices 0. -/
def Ring.reset : Ring := ⟨[], 0, 0, 0⟩

/-- The reset state of R170 for a configuration and a store; the store is the host's and is not
reset. -/
def State.resetOf (cfg : Config) (store : List (Nat × Value)) : State where
  cfg := cfg
  rx := .reset
  tx := .reset
  rxOverrun := false
  txOverrun := false
  rxPosted := false
  q := ⟨List.replicate cfg.qCap none, 0, 0, 0⟩
  wdog := .off
  wdogN := 0
  ctimer := .all .off
  txInProgress := false
  txie := false
  lineMode := .receive
  slaveAddr := cfg.slaveAddrInit
  faultCount := 0
  crcFaultCount := 0
  persistReq := false
  unlocked := false
  factoryUnlocked := false
  store := store
  out := []
  inputs := []
  waiting := []
  freeCount := 0

/-- The machine right after reset, with the spec's configuration CFG-A and its store (log 2, log 3). -/
def State.reset : State := State.resetOf cfgA storeA

end Sys2Proof.Machine
end

