-- ==== Sys2Proof/Machine/Flags.lean ====
section
/-! DEFINITION. The status bits and counters, each with every operation that changes it
(10_state.md R20, R21, R28 to R32). -/

namespace Sys2Proof.Machine

/-- A put reports whether it overwrote a byte of RX: `rx_overrun` is sticky (R20, R69). -/
def State.noteRxOverrun (s : State) (overwritten : Bool) : State :=
  { s with rxOverrun := s.rxOverrun || overwritten }

/-- A put reports whether it overwrote a byte of TX: `tx_overrun` is sticky (R20, R69). -/
def State.noteTxOverrun (s : State) (overwritten : Bool) : State :=
  { s with txOverrun := s.txOverrun || overwritten }

/-- `rx_posted <- 1` or `<- 0` (R21). -/
def State.setPosted (s : State) (b : Bool) : State := { s with rxPosted := b }

/-- A CRC mismatch increments both fault counters, mod 2^16 (R30). -/
def State.countCrcFault (s : State) : State :=
  { s with faultCount := s.faultCount + 1, crcFaultCount := s.crcFaultCount + 1 }

/-- An unknown function code increments `fault_count` only (R30). -/
def State.countUnknownFunction (s : State) : State := { s with faultCount := s.faultCount + 1 }

/-- `TxStart()` (48_silence_transmit.md R151). -/
def State.txStart (s : State) : State :=
  { s with txInProgress := true, txie := true, lineMode := .transmit }

/-- The end of a transmission (48_silence_transmit.md R152). -/
def State.txEnd (s : State) : State :=
  { s with txInProgress := false, txie := false, lineMode := .receive }

/-- `persist_req`, `unlocked` and `factory_unlocked` as the host writes them; a write of any other
register has no effect (60_exceptions.md R167, log 18). -/
def State.hostWrite (s : State) (r : HostReg) (v : U16) : State :=
  match r with
  | .persistReq => if v = 0 then { s with persistReq := false } else s
  | .unlocked => { s with unlocked := v.getLsbD 0 }
  | .factoryUnlocked => { s with factoryUnlocked := v.getLsbD 0 }
  | .slaveAddr | .faultCount | .crcFaultCount | .rxOverrun | .txOverrun | .txInProgress | .txie
  | .lineMode => s

/-- A host read of a register: its current value, widened with zeros (R29, R167). -/
def State.hostRead (s : State) (r : HostReg) : U16 :=
  match r with
  | .slaveAddr => s.slaveAddr.setWidth 16
  | .faultCount => s.faultCount
  | .crcFaultCount => s.crcFaultCount
  | .rxOverrun => (BitVec.ofBool s.rxOverrun).setWidth 16
  | .txOverrun => (BitVec.ofBool s.txOverrun).setWidth 16
  | .txInProgress => (BitVec.ofBool s.txInProgress).setWidth 16
  | .txie => (BitVec.ofBool s.txie).setWidth 16
  | .lineMode => match s.lineMode with | .receive => 0 | .transmit => 1
  | .persistReq => (BitVec.ofBool s.persistReq).setWidth 16
  | .unlocked => (BitVec.ofBool s.unlocked).setWidth 16
  | .factoryUnlocked => (BitVec.ofBool s.factoryUnlocked).setWidth 16

end Sys2Proof.Machine
end

