-- ==== Sys2Proof/Machine/Assoc.lean ====
section
/-! DEFINITION. A finite map as a list of key and value pairs, keys strictly rising. The ring arrays
and the register store are held in it. -/

namespace Sys2Proof.Machine

/-- The value at a key, if the key is listed. -/
def assocFind {β : Type} : List (Nat × β) → Nat → Option β
  | [], _ => none
  | (k, v) :: m, a => if k = a then some v else assocFind m a

/-- List a value at a key, in key order, replacing what the key had. -/
def assocSet {β : Type} : List (Nat × β) → Nat → β → List (Nat × β)
  | [], a, x => [(a, x)]
  | (k, v) :: m, a, x =>
    if a < k then (a, x) :: (k, v) :: m
    else if a = k then (a, x) :: m
    else (k, v) :: assocSet m a x

/-- Unlist a key. -/
def assocErase {β : Type} : List (Nat × β) → Nat → List (Nat × β)
  | [], _ => []
  | (k, v) :: m, a => if k = a then m else (k, v) :: assocErase m a

/-- Every listed key is at least `lo`, and the keys rise strictly. -/
def assocSortedFrom {β : Type} (lo : Nat) : List (Nat × β) → Bool
  | [] => true
  | (k, _) :: m => decide (lo ≤ k) && assocSortedFrom (k + 1) m

end Sys2Proof.Machine
end

