-- ==== Sys2Proof/Machine/Ring.lean ====
section
/-! DEFINITION. The ByteRing operations (40_bytering.md R69 to R74) and the CRC over a ring range
(41_crc16.md R77). `cap` is the ring's capacity. -/

namespace Sys2Proof.Machine

/-- Slot `i` of a ring array; a slot nothing has written reads 0 (log 4). -/
def cellRead (buf : List Host.Cell) (i : Nat) : Byte := (assocFind buf i).getD 0

/-- `buf[i] <- x`, keeping the canonical form: no slot that reads 0 is listed. -/
def cellWrite (buf : List Host.Cell) (i : Nat) (x : Byte) : List Host.Cell :=
  if x = 0 then assocErase buf i else assocSet buf i x

/-- The canonical form of a ring array of `cap` slots: indices strictly rising and below `cap`, no
listed slot 0. -/
def cellsWf (cap : Nat) (buf : List Host.Cell) : Bool :=
  assocSortedFrom 0 buf && buf.all fun c => decide (c.1 < cap) && c.2 != 0

/-- `MemRead(R, i, n)`: the n bytes from physical index `i`, wrapping at `cap` (00_scope.md R15). -/
def Ring.memRead (cap : Nat) (r : Ring) (i n : Nat) : List Byte :=
  (List.range n).map fun j => cellRead r.buf ((i + j) % cap)

/-- The buffered bytes, oldest first. -/
def Ring.bytes (cap : Nat) (r : Ring) : List Byte := r.memRead cap r.head r.count

/-- `RingPut(R, x)` (R69): the ring, and whether a full ring was overwritten. -/
def Ring.put (cap : Nat) (advances : Bool) (r : Ring) (x : Byte) : Ring × Bool :=
  if r.count < cap then
    ({ r with buf := cellWrite r.buf r.tail x, tail := (r.tail + 1) % cap, count := r.count + 1 },
      false)
  else
    ({ r with
        buf := cellWrite r.buf r.tail x
        tail := if advances then (r.tail + 1) % cap else r.tail }, true)

/-- `RingGet(R)` (R70): the byte and the ring; an empty ring resynchronizes head = tail and answers
the sentinel. -/
def Ring.get (cap : Nat) (sentinel : Byte) (r : Ring) : Byte × Ring :=
  if r.count = 0 then (sentinel, { r with head := r.tail })
  else (cellRead r.buf r.head, { r with head := (r.head + 1) % cap, count := r.count - 1 })

/-- `RingPeek(R, i)` (R71), none for `i >= R.count`. -/
def Ring.peek (cap : Nat) (r : Ring) (i : Nat) : Option Byte :=
  if i < r.count then some (cellRead r.buf ((r.head + i) % cap)) else none

/-- `b(0) .. b(n-1)` (00_scope.md R16): the first `n` peeks, none if one of them is past the count. -/
def Ring.peekAll (cap : Nat) (r : Ring) (n : Nat) : Option (List Byte) :=
  if n ≤ r.count then some (r.memRead cap r.head n) else none

/-- `RingRemove(R, m)` (R72): `m` gets, the bytes discarded. -/
def Ring.remove (cap : Nat) (sentinel : Byte) (r : Ring) : Nat → Ring
  | 0 => r
  | m + 1 => Ring.remove cap sentinel (r.get cap sentinel).2 m

/-- `RingClear(R)` (R73). -/
def Ring.clear (r : Ring) : Ring := { r with head := 0, tail := 0, count := 0 }

/-- `TxSnapshot()` (R74). -/
def Ring.snapshot (r : Ring) : Nat × Nat := (r.tail, r.count)

/-- `TxRollback((t, c))` (R74). -/
def Ring.rollback (r : Ring) (snap : Nat × Nat) : Ring := { r with tail := snap.1, count := snap.2 }

/-- `CrcRing(R, i0, m)` (41_crc16.md R77). -/
def Ring.crc (cap : Nat) (r : Ring) (i m : Nat) : U16 := crc16 (r.memRead cap i m)

end Sys2Proof.Machine
end

