-- ==== Sys2Proof/Machine/Ops.lean ====
section
/-! DEFINITION. The named operations on the state: rings, timers, queue, store, dispatcher, the drop
action and the exception path. -/

namespace Sys2Proof.Machine

/-! ## Parameters -/

/-- The value for a class. -/
def perClassGet {α : Type} (p : PerClass α) : RegClass → α
  | .int => p.int
  | .long => p.long
  | .float => p.float
  | .coil => p.coil
  | .diag => p.diag
  | .force => p.force

/-- The value for a class replaced. -/
def perClassSet {α : Type} (p : PerClass α) (k : RegClass) (x : α) : PerClass α :=
  match k with
  | .int => { p with int := x }
  | .long => { p with long := x }
  | .float => { p with float := x }
  | .coil => { p with coil := x }
  | .diag => { p with diag := x }
  | .force => { p with force := x }

/-- A function applied to the value of every class. -/
def perClassMap {α β : Type} (f : α → β) (p : PerClass α) : PerClass β :=
  ⟨f p.int, f p.long, f p.float, f p.coil, f p.diag, f p.force⟩

/-- The six classes. -/
def allClasses : List RegClass := [.int, .long, .float, .coil, .diag, .force]

/-- The bounds on the parameters (00_scope.md R7, R8, R10; 70_reset_and_hazards.md R172). -/
def configOk (c : Config) : Bool :=
  decide (268 ≤ c.rxCap) && decide (259 ≤ c.txCap) && decide (2 ≤ c.qCap) && decide (1 ≤ c.tWdog) &&
    allClasses.all (fun k => decide (1 ≤ perClassGet c.tClass k) &&
      decide (1 ≤ perClassGet c.tRetry k)) &&
    decide (1 ≤ c.slaveAddrInit.toNat) && decide (c.slaveAddrInit.toNat ≤ 247)

/-- `STRIDE32` as a number (R11, 20_memory.md R40). -/
def strideNat : Stride → Nat
  | .one => 1
  | .two => 2

/-! ## Rings -/

/-- The bytes in RX, oldest first: `b(0) ..` (R16). -/
def State.rxBytes (s : State) : List Byte := s.rx.bytes s.cfg.rxCap

/-- The bytes in TX, oldest first. -/
def State.txBytes (s : State) : List Byte := s.tx.bytes s.cfg.txCap

/-- `RingPut(RX, x)` (40_bytering.md R69). -/
def State.rxPut (s : State) (x : Byte) : State :=
  ({ s with rx := (s.rx.put s.cfg.rxCap s.cfg.overwriteAdvancesTail x).1 } : State).noteRxOverrun
    (s.rx.put s.cfg.rxCap s.cfg.overwriteAdvancesTail x).2

/-- `RingRemove(RX, m)` (R72). -/
def State.rxRemove (s : State) (m : Nat) : State :=
  { s with rx := s.rx.remove s.cfg.rxCap s.cfg.emptySentinel m }

/-- `RingClear(RX)` (R73). -/
def State.rxClear (s : State) : State := { s with rx := s.rx.clear }

/-- `emit(x)`, `RingPut(TX, x)` (45_encoders.md R112). -/
def State.emit (s : State) (x : Byte) : State :=
  ({ s with tx := (s.tx.put s.cfg.txCap s.cfg.overwriteAdvancesTail x).1 } : State).noteTxOverrun
    (s.tx.put s.cfg.txCap s.cfg.overwriteAdvancesTail x).2

/-- `emit` of bytes in order. -/
def State.emitAll (s : State) : List Byte → State
  | [] => s
  | x :: xs => (s.emit x).emitAll xs

/-- `RingClear(TX)` (R73). -/
def State.txClear (s : State) : State := { s with tx := s.tx.clear }

/-- `TxRollback(snap)` (R74). -/
def State.txRollback (s : State) (snap : Nat × Nat) : State := { s with tx := s.tx.rollback snap }

/-- `AppendCrc(CrcRing(TX, i, m))` (41_crc16.md R77, R78). -/
def State.appendCrc (s : State) (i m : Nat) : State :=
  s.emitAll (crcBytes (s.tx.crc s.cfg.txCap i m))

/-- The transmit path is idle: `tx_in_progress = 0` and TX empty (48_silence_transmit.md R153). -/
def State.txIdle (s : State) : Bool := !s.txInProgress && s.tx.count == 0

/-! ## Timers -/

/-- One TICK of a timer (48_silence_transmit.md R149). -/
def timerTick : Timer → Timer
  | .running n => if n ≤ 1 then .expired else .running (n - 1)
  | .off => .off
  | .expired => .expired

/-- `TICK`: every timer steps at once (R149). -/
def State.tickTimers (s : State) : State :=
  { s with wdog := timerTick s.wdog, ctimer := perClassMap timerTick s.ctimer }

/-- `ctimer[k] <- t`. -/
def State.setClassTimer (s : State) (k : RegClass) (t : Timer) : State :=
  { s with ctimer := perClassSet s.ctimer k t }

/-- `TimerArm(ctimer[k], n)` (R147). -/
def State.armClass (s : State) (k : RegClass) (n : Nat) : State := s.setClassTimer k (.running n)

/-- `WdogArm(n)` (47_watchdog.md R144). -/
def State.wdogArm (s : State) (n : Nat) : State :=
  { s with wdog := .running s.cfg.tWdog, wdogN := n }

/-- `WdogCancel()` (47_watchdog.md R145). -/
def State.wdogCancel (s : State) : State := { s with wdog := .off }

/-! ## Request queue -/

/-- `Create(d)` on a queue of `cap` slots (43_request_queue.md R100), none for NULL. -/
def Queue.create (cap : Nat) (q : Queue) (d : PendingRequest) : Option Queue :=
  if q.count = cap - 1 then none
  else some { q with slot := q.slot.set q.tail (some d), tail := (q.tail + 1) % cap,
                     count := q.count + 1 }

/-- `DiscardHead()` (R101). -/
def Queue.discardHead (cap : Nat) (q : Queue) : Queue :=
  if q.count = 0 then q
  else { q with slot := q.slot.set q.head none, head := (q.head + 1) % cap, count := q.count - 1 }

/-- `DiscardTail()` (R102). -/
def Queue.discardTail (cap : Nat) (q : Queue) : Queue :=
  if q.count = 0 then q
  else { q with slot := q.slot.set ((q.tail + cap - 1) % cap) none, tail := (q.tail + cap - 1) % cap,
                count := q.count - 1 }

/-- `QueueHead()` (R103). -/
def Queue.first (q : Queue) : Option PendingRequest :=
  if q.count = 0 then none else q.slot.getD q.head none

/-- The queued requests, oldest first (R104). -/
def Queue.requests (cap : Nat) (q : Queue) : List PendingRequest :=
  (List.range q.count).filterMap fun j => q.slot.getD ((q.head + j) % cap) none

/-- `DiscardHead()` on the state's queue. -/
def State.discardHead (s : State) : State := { s with q := s.q.discardHead s.cfg.qCap }

/-- `DiscardTail()` on the state's queue. -/
def State.discardTail (s : State) : State := { s with q := s.q.discardTail s.cfg.qCap }

/-! ## The drop action and acceptance -/

/-- Why a frame is abandoned without a response (42_frame_receiver.md R89). -/
inductive DropReason where
  | addressMismatch | broadcastRead | crcMismatch | unknownFunction | malformedCoil | serialMismatch
  | queueFull
  deriving DecidableEq, Repr

/-- The counters a drop changes (R89, R30). -/
def State.countDrop (s : State) : DropReason → State
  | .crcMismatch => s.countCrcFault
  | .unknownFunction => s.countUnknownFunction
  | .addressMismatch | .broadcastRead | .malformedCoil | .serialMismatch | .queueFull => s

/-- `Drop(reason)` (R89); `created` says that the handler has queued the request. -/
def State.dropFrame (s : State) (created : Bool) (reason : DropReason) : State :=
  ((if created then s.discardTail else s).rxClear).countDrop reason

/-- `Accept(L, k)` (R88). -/
def State.acceptFrame (s : State) (len : Nat) (k : RegClass) : State :=
  (s.rxRemove len).armClass k (perClassGet s.cfg.tClass k)

/-! ## The exception path -/

/-- The exception codes a body raises (60_exceptions.md R155). -/
inductive ExcCode where
  | badFxn | badAddress | badValue | slaveFail
  deriving DecidableEq, Repr

/-- Their numbers (R155). -/
def excNumber : ExcCode → Nat
  | .badFxn => 1
  | .badAddress => 2
  | .badValue => 3
  | .slaveFail => 4

/-- `ExceptionFrame(fc, code)` (46_exception_responder.md R142): the state, and whether a frame was
BUILT; a code outside 1..4 is IGNORED. -/
def State.exceptionFrame (s : State) (fc : Byte) (code : Nat) : State × Bool :=
  if 1 ≤ code ∧ code ≤ 4 then
    ((s.txClear.emitAll [s.slaveAddr, fc ||| 0x80, BitVec.ofNat 8 code]).appendCrc 0 3, true)
  else (s, false)

/-- `ExceptionFrame` and `TxStart`: how every exception reaches the line (R142, R151, R160). The
block saves nothing, changes no mode and has no return instruction (R160, R161). -/
def State.sendException (s : State) (fc : Byte) (code : ExcCode) : State :=
  (s.exceptionFrame fc (excNumber code)).1.txStart

/-- `EncException(d, snap, code)`, taking an exception of a body (45_encoders.md R114, R160). -/
def State.encException (s : State) (d : PendingRequest) (snap : Nat × Nat) (code : ExcCode) : State :=
  if d.bcast then s.txRollback snap else (s.txRollback snap).sendException d.fc code

/-- `BadByteCount(L, bcast)` (42_frame_receiver.md R95): the receiver's own exception, sent only when
the transmit path is idle. -/
def State.badByteCount (s : State) (len : Nat) (bcast : Bool) : State :=
  if !bcast && (s.discardTail.rxRemove len).txIdle then
    (s.discardTail.rxRemove len).sendException 0x10 .badValue
  else s.discardTail.rxRemove len

/-! ## Store -/

/-- The kind of a value (20_memory.md R36). -/
def valueKind : Value → Kind
  | .f64 _ => .rawDouble
  | .i32 _ => .rawInteger
  | .l32 _ => .rawLongInteger
  | .ann _ => .annotated
  | .bool _ => .coilBoolean

/-- The value a reference that is not listed holds (log 3). -/
def storeDefault : Value := .f64 0

/-- `Store[ref] <- v`, keeping the canonical form: `storeDefault` is not listed. -/
def storePut (st : List (Nat × Value)) (ref : StorageRef) (v : Value) : List (Nat × Value) :=
  if v = storeDefault then assocErase st ref.key else assocSet st ref.key v

/-- `StoreRead(ref, kind)`: the store is a total map, and the read gives the value held, which is of
kind `kind` where the host keeps the reference at the kind it is bound to (R36, log 19). -/
def storeGet (st : List (Nat × Value)) (ref : StorageRef) : Value :=
  (assocFind st ref.key).getD storeDefault

/-- The canonical form of the store: keys strictly rising, `storeDefault` not listed. -/
def storeWf (st : List (Nat × Value)) : Bool :=
  assocSortedFrom 0 st && st.all fun c => decide (c.2 ≠ storeDefault)

/-- `out(e)` (00_scope.md R14, 30_encoding.md R66). -/
def State.output (s : State) (e : OutEvent) : State := { s with out := s.out ++ [e] }

/-- `Store[ref] <- v` on the state. -/
def State.storeWrite (s : State) (ref : StorageRef) (v : Value) : State :=
  { s with store := storePut s.store ref v }

/-- `Commit(bnd, v)` (45_encoders.md R128). -/
def State.commit (s : State) (bnd : Binding) (v : Value) : State :=
  { s with
    store := storePut s.store bnd.ref v
    out := if bnd.kind = .annotated then s.out ++ [.sideEffect bnd.ref] else s.out
    persistReq := s.persistReq || decide (bnd.perm ≠ .volatile) }

/-- The count of drawn free values after a coercion (log 10). -/
def State.setFree (s : State) (n : Nat) : State := { s with freeCount := n }

/-! ## Dispatcher -/

/-- `LookupLinear(T, a)` (44_dispatcher.md R106), none for NOTFOUND. -/
def lookupLinear : List Entry → Nat → Option Binding
  | [], _ => none
  | e :: t, a => if e.addr = 0 then none else if e.addr = a then some e.bnd else lookupLinear t a

/-- `LookupExt(a)` (R108): each segment ends where the next starts, the last at `extEnd`. DEDUCED: the
extended table has no sentinel, so address 0 (register number 60000) is found when a segment's
interval holds it, although 20_memory.md R39 (d) says that t = 0 is never found; log 23. -/
def lookupExt (extEnd : Nat) : List Segment → Nat → Option Binding
  | [], _ => none
  | g :: t, a =>
    if g.rangeStart ≤ a ∧ a < (match t with | [] => extEnd | h :: _ => h.rangeStart) then
      some ⟨⟨g.base, (a - g.rangeStart) / 2⟩, g.kind, g.perm⟩
    else lookupExt extEnd t a

/-- `Lookup(d, a)` (R107). DIAG and FORCE requests look nothing up. -/
def lookupFor (c : Config) (cls : RegClass) (ext : Bool) (a : Nat) : Option Binding :=
  match cls with
  | .coil => lookupLinear c.coilTable a
  | .int => lookupLinear c.intTable a
  | .long => lookupLinear c.longTable a
  | .float => if ext then lookupExt c.extEnd c.extTable a else lookupLinear c.floatTable a
  | .diag | .force => none

/-- `NoPermission(perm, dir)` (R109): true when the access is denied. -/
def noPermission (unlocked factoryUnlocked : Bool) (perm : Perm) (dir : Dir) : Bool :=
  match dir, perm with
  | .read, .writeOnly => true
  | .read, _ => false
  | .write, .volatile => false
  | .write, .password => !unlocked
  | .write, .factory => !(factoryUnlocked && unlocked)
  | .write, .readOnly => true
  | .write, .writeOnly => true

/-- `Check(d, a, dir)` (45_encoders.md R118): presence before permission. -/
def State.check (s : State) (d : PendingRequest) (a : Nat) (dir : Dir) : Except ExcCode Binding :=
  match lookupFor s.cfg d.cls d.ext a with
  | none => .error .badAddress
  | some bnd =>
    if noPermission s.unlocked s.factoryUnlocked bnd.perm dir then .error .badValue else .ok bnd

/-- The entries of a linear table that a search can reach: those before the sentinel (R106). -/
def visibleEntries (t : List Entry) : List Entry := t.takeWhile fun e => e.addr ≠ 0

/-- The kinds a reference is bound to by the tables (R37, log 9). -/
def boundKinds (c : Config) (ref : StorageRef) : List Kind :=
  ((visibleEntries c.intTable ++ visibleEntries c.longTable ++ visibleEntries c.floatTable ++
      visibleEntries c.coilTable).filter fun e => decide (e.bnd.ref = ref)).map (·.bnd.kind) ++
    (c.extTable.filter fun g => decide (g.base = ref.base)).map (·.kind)

end Sys2Proof.Machine
end

