-- ==== Sys2Proof/Machine/Operands.lean ====
section
/-! DEFINITION. The operand forms: the prefix, the register bands, the descriptor of each frame
(20_memory.md R38, R45; 42_frame_receiver.md R91 to R98), and the value coercions
(45_encoders.md R119 to R127). -/

namespace Sys2Proof.Machine

/-! ## Byte order -/

/-- `Permute(order, x0 x1 x2 x3)` (R45). -/
def permute (order : ByteOrder) (x0 x1 x2 x3 : Byte) : List Byte :=
  match order with
  | .abcd => [x0, x1, x2, x3]
  | .badc => [x1, x0, x3, x2]
  | .cdab => [x2, x3, x0, x1]
  | .dcba => [x3, x2, x1, x0]

/-- The four wire bytes of a 32-bit value in an order (R45). -/
def orderedBytes (order : ByteOrder) (u : U32) : List Byte :=
  permute order (u.extractLsb' 24 8) (u.extractLsb' 16 8) (u.extractLsb' 8 8) (u.extractLsb' 0 8)

/-- Every whole group of four bytes permuted, the trailing bytes verbatim (R96). -/
def permuteGroups (order : ByteOrder) : List Byte → List Byte
  | x0 :: x1 :: x2 :: x3 :: xs => permute order x0 x1 x2 x3 ++ permuteGroups order xs
  | xs => xs

/-! ## Register bands -/

/-- What `Classify` answers (R38). -/
structure Band where
  cls : RegClass
  start : Nat
  offset : Nat
  order : ByteOrder
  lvf : Bool
  ext : Bool
  badOffset : Bool
  deriving DecidableEq, Repr

/-- `Classify(s)` (R38). A table address 0 is left to the search: the linear tables end at it (R39 (d)),
the extended one does not (log 23). -/
def classify (s : Nat) : Band :=
  if (201 ≤ s ∧ s ≤ 300) ∨ (401 ≤ s ∧ s ≤ 500) then ⟨.int, s, 0, .abcd, false, false, false⟩
  else if 301 ≤ s ∧ s ≤ 400 then ⟨.long, s, 0, .abcd, false, false, false⟩
  else
    let off := s - s % 2000
    let t := s % 2000
    if off = 0 then ⟨.float, t, 0, .abcd, false, false, false⟩
    else if off = 2000 then ⟨.float, t, 2000, .badc, false, false, false⟩
    else if off = 4000 then ⟨.float, t, 4000, .cdab, false, false, false⟩
    else if off = 6000 then ⟨.float, t, 6000, .dcba, false, false, false⟩
    else if off = 8000 then ⟨.float, t, 8000, .abcd, true, false, false⟩
    else if off = 60000 then ⟨.float, t, 60000, .abcd, false, true, false⟩
    else ⟨.float, t, off, .abcd, false, false, true⟩

/-- The register or coil number of a wire address, 1-based, with no wrap (30_encoding.md R59). -/
def regNumber (w : U16) : Nat := w.toNat + 1

/-- `count_eff`: the count, halved for the 32-bit classes (R91, R94). -/
def effectiveCount (cls : RegClass) (count : U16) : Nat :=
  if cls = .int then count.toNat else count.toNat / 2

/-! ## The prefix -/

/-- The addressing mode of a prefix. -/
def addressMode : Address → Mode
  | .short _ => .short
  | .long _ => .long

/-- `slave`, frame byte 0 (10_state.md R23). -/
def addressSlave : Address → Byte
  | .short slave => slave
  | .long _ => 0xFA

/-- Only a SHORT frame with address 0 is broadcast (42_frame_receiver.md R82). -/
def addressBcast : Address → Bool
  | .short slave => slave == 0
  | .long _ => false

/-! ## Descriptors -/

/-- The descriptor of a coil read (R91). -/
def coilReadRequest (fc : Byte) (p : Address) (start count : U16) : PendingRequest where
  mode := addressMode p
  slave := addressSlave p
  bcast := addressBcast p
  fc := fc
  wireStart := start
  start := regNumber start
  count := count
  countEff := count.toNat
  cls := .coil
  dir := .read

/-- The descriptor of a register read (R91). -/
def registerReadRequest (fc : Byte) (p : Address) (start count : U16) : PendingRequest where
  mode := addressMode p
  slave := addressSlave p
  bcast := addressBcast p
  fc := fc
  wireStart := start
  start := (classify (regNumber start)).start
  offset := (classify (regNumber start)).offset
  count := count
  countEff := effectiveCount (classify (regNumber start)).cls count
  cls := (classify (regNumber start)).cls
  dir := .read
  order := (classify (regNumber start)).order
  lvf := (classify (regNumber start)).lvf
  ext := (classify (regNumber start)).ext
  badOffset := (classify (regNumber start)).badOffset

/-- The descriptor of WR_COIL (R92). -/
def coilWriteRequest (p : Address) (addr value : U16) : PendingRequest where
  mode := addressMode p
  slave := addressSlave p
  bcast := addressBcast p
  fc := 0x05
  wireStart := addr
  start := regNumber addr
  count := 1
  countEff := 1
  cls := .coil
  dir := .write
  payload := bytes16 value

/-- The descriptor of WR_REG (R93). -/
def registerWriteRequest (p : Address) (addr value : U16) : PendingRequest where
  mode := addressMode p
  slave := addressSlave p
  bcast := addressBcast p
  fc := 0x06
  wireStart := addr
  start := (classify (regNumber addr)).start
  offset := (classify (regNumber addr)).offset
  count := 1
  countEff := 1
  cls := (classify (regNumber addr)).cls
  dir := .write
  order := (classify (regNumber addr)).order
  lvf := (classify (regNumber addr)).lvf
  ext := (classify (regNumber addr)).ext
  badOffset := (classify (regNumber addr)).badOffset
  payload := bytes16 value

/-- `Normalize` (R96): float payloads to ABCD, integer and long-integer ones verbatim. -/
def normalizeData (b : Band) (data : List Byte) : List Byte :=
  if b.cls = .float ∧ b.lvf = false then permuteGroups b.order data else data

/-- The descriptor of WR_MULTI (R94). -/
def multiWriteRequest (p : Address) (start count : U16) (data : List Byte) : PendingRequest where
  mode := addressMode p
  slave := addressSlave p
  bcast := addressBcast p
  fc := 0x10
  wireStart := start
  start := (classify (regNumber start)).start
  offset := (classify (regNumber start)).offset
  count := count
  countEff := effectiveCount (classify (regNumber start)).cls count
  cls := (classify (regNumber start)).cls
  dir := .write
  byteCount := BitVec.ofNat 8 data.length
  order := (classify (regNumber start)).order
  lvf := (classify (regNumber start)).lvf
  ext := (classify (regNumber start)).ext
  badOffset := (classify (regNumber start)).badOffset
  payload := normalizeData (classify (regNumber start)) data

/-- The descriptor of DIAG_SAMPLE (R97). -/
def diagRequest (p : Address) (field tune : U16) : PendingRequest where
  mode := addressMode p
  slave := addressSlave p
  bcast := addressBcast p
  fc := 0x42
  wireStart := field
  cls := .diag
  dir := .read
  payload := bytes16 tune

/-- The descriptor of FORCE_ADDR (R98). -/
def forceRequest (p : Address) (newAddr : Byte) : PendingRequest where
  mode := addressMode p
  slave := addressSlave p
  bcast := addressBcast p
  fc := 0x44
  cls := .force
  dir := .write
  payload := [newAddr]

/-- The descriptor an instruction is queued as (42_frame_receiver.md section 2). -/
def requestOf : Instr → PendingRequest
  | .rdCoils p start count => coilReadRequest 0x01 p start count
  | .rdDiscretes p start count => coilReadRequest 0x02 p start count
  | .rdHolding p start count => registerReadRequest 0x03 p start count
  | .rdInput p start count => registerReadRequest 0x04 p start count
  | .wrCoil p addr value => coilWriteRequest p addr value
  | .wrReg p addr value => registerWriteRequest p addr value
  | .wrMulti p start count data => multiWriteRequest p start count data
  | .diagSample p field tune => diagRequest p field tune
  | .forceAddr p _ newAddr => forceRequest p newAddr

/-- Byte `i` of a payload. -/
def payloadByte (d : PendingRequest) (i : Nat) : Byte := d.payload.getD i 0

/-- 16-bit value `i` of a payload, most significant byte first. -/
def payload16 (d : PendingRequest) (i : Nat) : U16 :=
  be16 (payloadByte d (2 * i)) (payloadByte d (2 * i + 1))

/-- 32-bit value `i` of a payload, ABCD. -/
def payload32 (d : PendingRequest) (i : Nat) : U32 :=
  be32 (payloadByte d (4 * i)) (payloadByte d (4 * i + 1)) (payloadByte d (4 * i + 2))
    (payloadByte d (4 * i + 3))

/-- The table addresses of a request's `n` values, `stride` apart (20_memory.md R40). -/
def valueAddrs (start stride n : Nat) : List Nat := (List.range n).map fun i => start + stride * i

/-! ## Coercions

Each takes the number of free values drawn so far and answers the number after it. None is
`raise ModbusException(SLAVE_FAIL)`. -/

/-- A rounded value inside s32; none where the result is a draw (R120, R121, R125). -/
def inS32 : Option Int → Option Int
  | none => none
  | some r => if -2147483648 ≤ r ∧ r ≤ 2147483647 then some r else none

/-- The u16 a rounded value reads as (R120). -/
def rounded16 (r : Option Int) (n : Nat) : U16 × Nat :=
  match inS32 r with
  | some r => (BitVec.ofInt 16 r, n)
  | none => (Config.freeU16 n, n + 1)

/-- The u32 a rounded value reads as, and the s32 it is stored as (R121, R125). -/
def rounded32 (r : Option Int) (n : Nat) : U32 × Nat :=
  match inS32 r with
  | some r => (BitVec.ofInt 32 r, n)
  | none => (Config.freeU32 n, n + 1)

/-- `Rd16(v)` (R120). -/
def rd16 (tie : RoundTie) (v : Value) (n : Nat) : Option (U16 × Nat) :=
  match v with
  | .i32 x => some (x.setWidth 16, n)
  | .l32 x => some (x.setWidth 16, n)
  | .f64 x => some (rounded16 (f64Round tie x) n)
  | .ann x => some (rounded16 (f64Round tie x) n)
  | .bool _ => none

/-- `Rd32(v)` (R121). -/
def rd32 (tie : RoundTie) (v : Value) (n : Nat) : Option (U32 × Nat) :=
  match v with
  | .i32 x => some (x, n)
  | .l32 x => some (x, n)
  | .f64 x => some (rounded32 (f64Round tie x) n)
  | .ann x => some (rounded32 (f64Round tie x) n)
  | .bool _ => none

/-- The f32 nearest to an f64; a NaN gives any f32 NaN (R122). -/
def narrowF64 (x : U64) (n : Nat) : U32 × Nat :=
  match f64Finite x with
  | some v => (f32OfFinite v, n)
  | none => if f64IsNan x then (f32NanOf (Config.freeU64 n), n + 1) else (f32Infinity (f64Neg x), n)

/-- `RdF(v)` (R122). -/
def rdF (v : Value) (n : Nat) : Option (U32 × Nat) :=
  match v with
  | .f64 x => some (narrowF64 x n)
  | .ann x => some (narrowF64 x n)
  | .i32 x => some (f32OfInt x.toInt, n)
  | .l32 x => some (f32OfInt x.toInt, n)
  | .bool _ => none

/-- `Wr16(w, kind)` (R123). -/
def wr16 (w : U16) (kind : Kind) (n : Nat) : Option (Value × Nat) :=
  match kind with
  | .rawInteger => some (.i32 (w.signExtend 32), n)
  | .rawLongInteger => some (.l32 (w.signExtend 32), n)
  | .rawDouble => some (.f64 (f64OfInt w.toInt), n)
  | .annotated => some (.ann (f64OfInt w.toInt), n)
  | .coilBoolean => none

/-- `Wr32(u, kind)` (R124). -/
def wr32 (u : U32) (kind : Kind) (n : Nat) : Option (Value × Nat) :=
  match kind with
  | .rawLongInteger => some (.l32 u, n)
  | .rawInteger => some (.i32 u, n)
  | .rawDouble => some (.f64 (f64OfInt u.toInt), n)
  | .annotated => some (.ann (f64OfInt u.toInt), n)
  | .coilBoolean => none

/-- An f32 pattern widened exactly to f64; a NaN gives any f64 NaN (R125). -/
def widenF32 (u : U32) (n : Nat) : U64 × Nat :=
  match f32Finite u with
  | some v => (f64OfFinite v, n)
  | none =>
    if f32IsNan u then (f64NanOf (Config.freeU64 n), n + 1)
    else (if f32Neg u then 0xFFF0000000000000 else 0x7FF0000000000000, n)

/-- `WrF(u, kind)` (R125). -/
def wrF (tie : RoundTie) (u : U32) (kind : Kind) (n : Nat) : Option (Value × Nat) :=
  match kind with
  | .rawDouble => some (.f64 (widenF32 u n).1, (widenF32 u n).2)
  | .annotated => some (.ann (widenF32 u n).1, (widenF32 u n).2)
  | .rawInteger => some (.i32 (rounded32 (f32Round tie u) n).1, (rounded32 (f32Round tie u) n).2)
  | .rawLongInteger =>
    some (.l32 (rounded32 (f32Round tie u) n).1, (rounded32 (f32Round tie u) n).2)
  | .coilBoolean => none

/-- `RdBool(v)` (R126). -/
def rdBool : Value → Option Bool
  | .bool b => some b
  | .f64 _ | .i32 _ | .l32 _ | .ann _ => none

/-- `WrBool(w, kind)` (R127). -/
def wrBool (w : U16) (kind : Kind) (n : Nat) : Option (Value × Nat) :=
  match kind with
  | .coilBoolean => some (.bool (w == 0xFF00), n)
  | .rawInteger | .rawLongInteger | .rawDouble | .annotated => none

end Sys2Proof.Machine
end

