-- ==== Sys2Proof/Machine/Bodies.lean ====
section
/-! DEFINITION. What the instructions share: queueing a decoded frame (42_frame_receiver.md R87,
R88), and the steps an encoder body is made of (45_encoders.md R112, R113, R117, R118, R141). -/

namespace Sys2Proof.Machine

/-! ## In RECV: queueing the request -/

/-- `Create(d)`, then what the function does with the request queued (R87): a full queue drops the
frame. The descriptor is queued with its payload; R87's later completion of it in the same handler
is not visible outside the handler (log 16). -/
def State.enqueue (s : State) (d : PendingRequest) (k : State → State) :
    Host.Outcome State Fault Refusal :=
  match s.q.create s.cfg.qCap d with
  | none => .next (s.dropFrame false .queueFull)
  | some q => .next (k { s with q := q })

/-- Queue the request and accept the frame: the functions without a value check (R87, R88). -/
def State.enqueueAccept (s : State) (i : Instr) : Host.Outcome State Fault Refusal :=
  s.enqueue (requestOf i) fun t => t.acceptFrame (frameLength i) (requestOf i).cls

/-! ## In CLASS_FIRE: encoder bodies -/

/-- How a body ends (R112): OK, or an exception; each with the state, in which the bytes emitted and
the values committed so far stand. `neverQueued` marks a (class, function) pair outside R112's
table. -/
inductive BodyResult where
  | ok (s : State)
  | exc (code : ExcCode) (s : State)
  | neverQueued
  deriving DecidableEq, Repr

/-- Go on after a part of a body, unless it raised. -/
def BodyResult.andThen (r : BodyResult) (k : State → BodyResult) : BodyResult :=
  match r with
  | .ok s => k s
  | .exc code s => .exc code s
  | .neverQueued => .neverQueued

/-- The response prefix of a mode (30_encoding.md R60). -/
def State.responsePrefix (s : State) (mode : Mode) : List Byte :=
  match mode with
  | .short => [s.slaveAddr]
  | .long => 0xFA :: bytes32 s.cfg.pipeSerial

/-- `EmitPrefix(d)` (R113). -/
def State.emitPrefix (s : State) (d : PendingRequest) : State := s.emitAll (s.responsePrefix d.mode)

/-- The register loop of a read body: check, read, coerce to bytes, emit, in increasing order
(R118, R129). -/
def readLoop (d : PendingRequest) (coerce : Value → Nat → Option (List Byte × Nat)) :
    List Nat → State → BodyResult
  | [], s => .ok s
  | a :: as, s =>
    match s.check d a .read with
    | .error code => .exc code s
    | .ok bnd =>
      match coerce (storeGet s.store bnd.ref) s.freeCount with
      | none => .exc .slaveFail s
      | some (bytes, n) => readLoop d coerce as ((s.setFree n).emitAll bytes)

/-- The PARTIAL write loop (R141). -/
def writePartial {ω : Type} (d : PendingRequest) (coerce : ω → Kind → Nat → Option (Value × Nat)) :
    List (Nat × ω) → State → BodyResult
  | [], s => .ok s
  | (a, w) :: items, s =>
    match s.check d a .write with
    | .error code => .exc code s
    | .ok bnd =>
      match coerce w bnd.kind s.freeCount with
      | none => .exc .slaveFail s
      | some (v, n) => writePartial d coerce items ((s.setFree n).commit bnd v)

/-- The first pass of an ATOMIC write: every check and coercion, no commit (R141). -/
def writePlan {ω : Type} (s : State) (d : PendingRequest)
    (coerce : ω → Kind → Nat → Option (Value × Nat)) :
    List (Nat × ω) → Nat → Except ExcCode (List (Binding × Value) × Nat)
  | [], n => .ok ([], n)
  | (a, w) :: items, n =>
    match s.check d a .write with
    | .error code => .error code
    | .ok bnd =>
      match coerce w bnd.kind n with
      | none => .error .slaveFail
      | some (v, n') =>
        match writePlan s d coerce items n' with
        | .error code => .error code
        | .ok (vs, n'') => .ok ((bnd, v) :: vs, n'')

/-- The second pass of an ATOMIC write (R141). -/
def State.commitAll (s : State) : List (Binding × Value) → State
  | [] => s
  | (bnd, v) :: vs => (s.commit bnd v).commitAll vs

/-- `WritePhase(d, items)` (R141). -/
def writePhase {ω : Type} (d : PendingRequest) (coerce : ω → Kind → Nat → Option (Value × Nat))
    (items : List (Nat × ω)) (s : State) : BodyResult :=
  match s.cfg.writePolicy with
  | .partialWrites => writePartial d coerce items s
  | .atomicWrites =>
    match writePlan s d coerce items s.freeCount with
    | .error code => .exc code s
    | .ok (vs, n) => .ok ((s.setFree n).commitAll vs)

/-- The bytes after the prefix of a write-multiple response (RSP-WM, 30_encoding.md R61). -/
def multiEcho (d : PendingRequest) : List Byte := 0x10 :: bytes16 d.wireStart ++ bytes16 d.count

/-- The bytes after the prefix of a write-single response (RSP-W1, 30_encoding.md R61). -/
def singleEcho (d : PendingRequest) (fc : Byte) : List Byte :=
  fc :: bytes16 d.wireStart ++ [payloadByte d 0, payloadByte d 1]

end Sys2Proof.Machine
end

