-- ==== Sys2Proof/Machine/Coil.lean ====
section
/-! DEFINITION. The coil functions RD_COILS, RD_DISCRETES and WR_COIL: `exec…` is what the frame does
in RECV, `respond…` its encoder body in CLASS_FIRE. -/

namespace Sys2Proof.Machine

/-! ## RECV -/

/-- RD_COILS in RECV (42_frame_receiver.md R91): queue the request, accept the frame. -/
def execRdCoils (p : Address) (start count : U16) (s : State) : Host.Outcome State Fault Refusal :=
  s.enqueueAccept (.rdCoils p start count)

/-- RD_DISCRETES in RECV (R91). -/
def execRdDiscretes (p : Address) (start count : U16) (s : State) :
    Host.Outcome State Fault Refusal :=
  s.enqueueAccept (.rdDiscretes p start count)

/-- WR_COIL in RECV (R92): a value other than 0xFF00 and 0x0000 is a malformed query, dropped. -/
def execWrCoil (p : Address) (addr value : U16) (s : State) : Host.Outcome State Fault Refusal :=
  s.enqueue (requestOf (.wrCoil p addr value)) fun t =>
    if value ≠ 0xFF00 ∧ value ≠ 0x0000 then t.dropFrame true .malformedCoil
    else t.acceptFrame (frameLength (.wrCoil p addr value)) .coil

/-! ## CLASS_FIRE -/

/-- The coil loop: check, read and coerce every coil, in increasing order (45_encoders.md R137). -/
def readBits (d : PendingRequest) (s : State) : List Nat → Except ExcCode (List Bool)
  | [] => .ok []
  | a :: as =>
    match s.check d a .read with
    | .error code => .error code
    | .ok bnd =>
      match rdBool (storeGet s.store bnd.ref) with
      | none => .error .slaveFail
      | some b =>
        match readBits d s as with
        | .error code => .error code
        | .ok bs => .ok (b :: bs)

/-- Data byte `j`: coil `8j + i` is its bit `i`, bits past the last coil are 0 (20_memory.md R46). -/
def packByte (bits : List Bool) (j : Nat) : Byte :=
  (List.range 8).foldl (fun y i => if bits.getD (8 * j + i) false then y ||| (1 <<< i) else y) 0

/-- The data bytes of `n` coils (R46, R137). -/
def packCoils (n : Nat) (bits : List Bool) : List Byte :=
  (List.range ((n + 7) / 8)).map (packByte bits)

/-- COIL read (R117, R137). -/
def coilReadBody (d : PendingRequest) (s : State) : BodyResult :=
  if 1 ≤ d.count.toNat ∧ d.count.toNat ≤ 2000 then
    match readBits d s (valueAddrs d.start 1 d.count.toNat) with
    | .error code => .exc code s
    | .ok bits =>
      .ok ((s.emitPrefix d).emitAll
        (d.fc :: BitVec.ofNat 8 ((d.count.toNat + 7) / 8) :: packCoils d.count.toNat bits))
  else .exc .badValue s

/-- The encoder body of RD_COILS (R112, R137). -/
def respondRdCoils (d : PendingRequest) (s : State) : BodyResult :=
  match d.cls with
  | .coil => coilReadBody d s
  | .int | .long | .float | .diag | .force => .neverQueued

/-- The encoder body of RD_DISCRETES (R112, R137): it reads the coil table too. -/
def respondRdDiscretes (d : PendingRequest) (s : State) : BodyResult :=
  match d.cls with
  | .coil => coilReadBody d s
  | .int | .long | .float | .diag | .force => .neverQueued

/-- The encoder body of WR_COIL (R112, R138). -/
def respondWrCoil (d : PendingRequest) (s : State) : BodyResult :=
  match d.cls with
  | .coil =>
    (writePhase d wrBool [(d.start, payload16 d 0)] (s.emitPrefix d)).andThen fun t =>
      .ok (t.emitAll (singleEcho d 0x05))
  | .int | .long | .float | .diag | .force => .neverQueued

end Sys2Proof.Machine
end

