-- ==== Sys2Proof/Machine/Register.lean ====
section
/-! DEFINITION. The register functions RD_HOLDING, RD_INPUT, WR_REG and WR_MULTI: `exec…` is what the
frame does in RECV, `respond…` its encoder body in CLASS_FIRE. -/

namespace Sys2Proof.Machine

/-! ## RECV -/

/-- RD_HOLDING in RECV (42_frame_receiver.md R91): classify, queue, accept. -/
def execRdHolding (p : Address) (start count : U16) (s : State) :
    Host.Outcome State Fault Refusal :=
  s.enqueueAccept (.rdHolding p start count)

/-- RD_INPUT in RECV (R91). -/
def execRdInput (p : Address) (start count : U16) (s : State) : Host.Outcome State Fault Refusal :=
  s.enqueueAccept (.rdInput p start count)

/-- WR_REG in RECV (R93). -/
def execWrReg (p : Address) (addr value : U16) (s : State) : Host.Outcome State Fault Refusal :=
  s.enqueueAccept (.wrReg p addr value)

/-- WR_MULTI in RECV (R94): a byte count that is not `2 * count`, or is 0, is answered BAD_VALUE at
once (R95). -/
def execWrMulti (p : Address) (start count : U16) (data : List Byte) (s : State) :
    Host.Outcome State Fault Refusal :=
  s.enqueue (requestOf (.wrMulti p start count data)) fun t =>
    if data.length = 2 * count.toNat ∧ 0 < data.length ∧ data.length ≤ 255 then
      t.acceptFrame (frameLength (.wrMulti p start count data))
        (requestOf (.wrMulti p start count data)).cls
    else t.badByteCount (frameLength (.wrMulti p start count data)) (addressBcast p)

/-! ## CLASS_FIRE -/

/-- INT read (45_encoders.md R117, R129). -/
def intReadBody (d : PendingRequest) (s : State) : BodyResult :=
  if 1 ≤ d.count.toNat ∧ d.count.toNat ≤ 125 then
    readLoop d (fun v n => (rd16 s.cfg.roundTie v n).map fun r => (bytes16 r.1, r.2))
      (valueAddrs d.start 1 d.count.toNat)
      ((s.emitPrefix d).emitAll [d.fc, BitVec.ofNat 8 (2 * d.count.toNat)])
  else .exc .badValue s

/-- The register loop of a 32-bit read, in the request's byte order (R133, R135). -/
def read32 (d : PendingRequest) (coerce : Value → Nat → Option (U32 × Nat)) (s : State) :
    BodyResult :=
  readLoop d (fun v n => (coerce v n).map fun r => (orderedBytes d.order r.1, r.2))
    (valueAddrs d.start (strideNat s.cfg.stride32) d.countEff)
    ((s.emitPrefix d).emitAll [d.fc, BitVec.ofNat 8 (4 * d.countEff)])

/-- LONG read (R117, R133). -/
def longReadBody (d : PendingRequest) (s : State) : BodyResult :=
  if 1 ≤ d.count.toNat ∧ d.count.toNat ≤ 125 ∧ 1 ≤ d.countEff then
    read32 d (rd32 s.cfg.roundTie) s
  else .exc .badValue s

/-- FLOAT read, with the long-via-float and extended-table forms (R117, R135). -/
def floatReadBody (d : PendingRequest) (s : State) : BodyResult :=
  if 1 ≤ d.count.toNat ∧ d.count.toNat ≤ 125 ∧ 1 ≤ d.countEff then
    if d.badOffset then .exc .badAddress s
    else read32 d (if d.lvf then rd32 s.cfg.roundTie else rdF) s
  else .exc .badValue s

/-- INT write single (R130). -/
def intWriteBody (d : PendingRequest) (s : State) : BodyResult :=
  (writePhase d wr16 [(d.start, payload16 d 0)] (s.emitPrefix d)).andThen fun t =>
    .ok (t.emitAll (singleEcho d 0x06))

/-- INT write multiple (R131). -/
def intMultiBody (d : PendingRequest) (s : State) : BodyResult :=
  (writePhase d wr16
      ((List.range d.count.toNat).map fun i => (d.start + i, payload16 d i))
      (s.emitPrefix d)).andThen fun t => .ok (t.emitAll (multiEcho d))

/-- The items of a 32-bit write (R134, R136). -/
def items32 (d : PendingRequest) (stride : Nat) : List (Nat × U32) :=
  (List.range d.countEff).map fun i => (d.start + stride * i, payload32 d i)

/-- The write phase and response of a 32-bit write (R134, R136). -/
def write32 (d : PendingRequest) (coerce : U32 → Kind → Nat → Option (Value × Nat)) (s : State) :
    BodyResult :=
  (writePhase d coerce (items32 d (strideNat s.cfg.stride32)) (s.emitPrefix d)).andThen fun t =>
    .ok (t.emitAll (multiEcho d))

/-- LONG write multiple (R117, R134). -/
def longMultiBody (d : PendingRequest) (s : State) : BodyResult :=
  if 1 ≤ d.countEff then write32 d wr32 s else .exc .badValue s

/-- FLOAT write multiple, with the same forms (R117, R136). -/
def floatMultiBody (d : PendingRequest) (s : State) : BodyResult :=
  if 1 ≤ d.countEff then
    if d.badOffset then .exc .badAddress s
    else write32 d (if d.lvf then wr32 else wrF s.cfg.roundTie) s
  else .exc .badValue s

/-- The encoder body of RD_HOLDING (R112). -/
def respondRdHolding (d : PendingRequest) (s : State) : BodyResult :=
  match d.cls with
  | .int => intReadBody d s
  | .long => longReadBody d s
  | .float => floatReadBody d s
  | .coil | .diag | .force => .neverQueued

/-- The encoder body of RD_INPUT (R112): the same tables as RD_HOLDING. -/
def respondRdInput (d : PendingRequest) (s : State) : BodyResult :=
  match d.cls with
  | .int => intReadBody d s
  | .long => longReadBody d s
  | .float => floatReadBody d s
  | .coil | .diag | .force => .neverQueued

/-- The encoder body of WR_REG (R112): outside the integer class BAD_FXN, before any lookup or write
(R132). -/
def respondWrReg (d : PendingRequest) (s : State) : BodyResult :=
  match d.cls with
  | .int => intWriteBody d s
  | .long | .float => .exc .badFxn s
  | .coil | .diag | .force => .neverQueued

/-- The encoder body of WR_MULTI (R112). -/
def respondWrMulti (d : PendingRequest) (s : State) : BodyResult :=
  match d.cls with
  | .int => intMultiBody d s
  | .long => longMultiBody d s
  | .float => floatMultiBody d s
  | .coil | .diag | .force => .neverQueued

end Sys2Proof.Machine
end

