-- ==== Sys2Proof/Machine/Vendor.lean ====
section
/-! DEFINITION. The vendor functions DIAG_SAMPLE and FORCE_ADDR: `exec…` is what the frame does in
RECV, `respond…` its encoder body in CLASS_FIRE. -/

namespace Sys2Proof.Machine

/-! ## RECV -/

/-- DIAG_SAMPLE in RECV (42_frame_receiver.md R97). -/
def execDiagSample (p : Address) (field tune : U16) (s : State) :
    Host.Outcome State Fault Refusal :=
  s.enqueueAccept (.diagSample p field tune)

/-- FORCE_ADDR in RECV (R98): the embedded serial number must match the device's, else the frame is
dropped. -/
def execForceAddr (p : Address) (serial : U32) (newAddr : Byte) (s : State) :
    Host.Outcome State Fault Refusal :=
  s.enqueue (requestOf (.forceAddr p serial newAddr)) fun t =>
    if serial ≠ t.cfg.pipeSerial then t.dropFrame true .serialMismatch
    else t.acceptFrame (frameLength (.forceAddr p serial newAddr)) .force

/-! ## CLASS_FIRE -/

/-- The 34 words of a diagnostic sample, most significant byte first (45_encoders.md R139). -/
def diagBytes (store : List (Nat × Value)) (tune : U16) : List Byte :=
  (List.range 34).flatMap fun j => bytes16 (Config.diagSnapshot store tune j)

/-- The encoder body of DIAG_SAMPLE (R112, R139). -/
def respondDiagSample (d : PendingRequest) (s : State) : BodyResult :=
  match d.cls with
  | .diag => .ok ((s.emitPrefix d).emitAll (0x42 :: 68 :: diagBytes s.store (payload16 d 0)))
  | .int | .long | .float | .coil | .force => .neverQueued

/-- The encoder body of FORCE_ADDR (R112, R140): the prefix is formed with the new address. -/
def respondForceAddr (d : PendingRequest) (s : State) : BodyResult :=
  match d.cls with
  | .force =>
    if (payloadByte d 0).toNat < 1 ∨ 247 < (payloadByte d 0).toNat then .exc .badValue s
    else
      .ok ((({ s with slaveAddr := payloadByte d 0 } : State).emitPrefix d).emitAll
        (0x44 :: bytes32 s.cfg.pipeSerial ++ [payloadByte d 0]))
  | .int | .long | .float | .coil | .diag => .neverQueued

end Sys2Proof.Machine
end

