-- ==== Sys2Proof/Machine/Dispatch.lean ====
section
/-! DEFINITION. One arm per instruction: what a decoded frame does in RECV. Its answer on the line is
built later, in CLASS_FIRE, by the body that Machine/Encoder.lean selects. -/

namespace Sys2Proof.Machine

def exec (i : Instr) (s : State) : Host.Outcome State Fault Refusal :=
  match i with
  | .rdCoils p start count => Sys2Proof.Machine.execRdCoils p start count s
  | .rdDiscretes p start count => Sys2Proof.Machine.execRdDiscretes p start count s
  | .rdHolding p start count => Sys2Proof.Machine.execRdHolding p start count s
  | .rdInput p start count => Sys2Proof.Machine.execRdInput p start count s
  | .wrCoil p addr value => Sys2Proof.Machine.execWrCoil p addr value s
  | .wrReg p addr value => Sys2Proof.Machine.execWrReg p addr value s
  | .wrMulti p start count data => Sys2Proof.Machine.execWrMulti p start count data s
  | .diagSample p field tune => Sys2Proof.Machine.execDiagSample p field tune s
  | .forceAddr p serial newAddr => Sys2Proof.Machine.execForceAddr p serial newAddr s

end Sys2Proof.Machine
end

