-- ==== Sys2Proof/Machine/Encoder.lean ====
section
/-! DEFINITION. The encoder wrapper CLASS_FIRE(k) (45_encoders.md R111, R112, R115). -/

namespace Sys2Proof.Machine

/-- `Body(d)` (R112): the body of the request's function code. -/
def bodyOf (d : PendingRequest) (s : State) : BodyResult :=
  match fnOfCode d.fc with
  | some .rdCoils => respondRdCoils d s
  | some .rdDiscretes => respondRdDiscretes d s
  | some .rdHolding => respondRdHolding d s
  | some .rdInput => respondRdInput d s
  | some .wrCoil => respondWrCoil d s
  | some .wrReg => respondWrReg d s
  | some .wrMulti => respondWrMulti d s
  | some .diagSample => respondDiagSample d s
  | some .forceAddr => respondForceAddr d s
  | none => .neverQueued

/-- Steps 4 and 5 of the wrapper: CRC over the bytes emitted since the snapshot, and start (R111,
R115). -/
def State.finishFrame (s : State) (snap : Nat × Nat) : State :=
  (s.appendCrc snap.1 (s.tx.count - snap.2)).txStart

/-- The wrapper once the request at the head may be answered: body, then exception, rollback or
transmission, then the request leaves the queue (R111). -/
def answer (d : PendingRequest) (s : State) : Host.Outcome State Fault Refusal :=
  match bodyOf d s with
  | .exc code t => .next (t.encException d s.tx.snapshot code).discardHead
  | .ok t =>
    if d.bcast then .next (t.txRollback s.tx.snapshot).discardHead
    else .next (t.finishFrame s.tx.snapshot).discardHead
  | .neverQueued => .fault .requestNeverQueued

/-- `CLASS_FIRE(k)` with its timer expired (R111). -/
def classFire (k : RegClass) (s : State) : Host.Outcome State Fault Refusal :=
  match s.q.first with
  | none => .next (s.setClassTimer k .off)
  | some d =>
    if d.cls ≠ k ∨ s.txIdle = false then .next (s.armClass k (perClassGet s.cfg.tRetry k))
    else answer d (s.setClassTimer k .off)

end Sys2Proof.Machine
end

