-- ==== Sys2Proof/Machine/Receiver.lean ====
section
/-! DEFINITION. The frame receiver up to the decoded instruction: the machine's fetch and decode
(42_frame_receiver.md R80 to R86). -/

namespace Sys2Proof.Machine

/-- What `AddressCheck()` finds (R82). -/
inductive AddressResult where
  | waitMore
  | mismatch
  | ok (a : Nat) (bcast : Bool)
  deriving DecidableEq, Repr

/-- `AddressCheck()` on the buffered bytes (R82). -/
def addressCheck (c : Config) (slaveAddr : Byte) (bs : List Byte) : AddressResult :=
  if bs.getD 0 0 = 0xFA then
    if bs.length < 12 then .waitMore
    else if be32 (bs.getD 1 0) (bs.getD 2 0) (bs.getD 3 0) (bs.getD 4 0) ≠ c.pipeSerial then .mismatch
    else .ok 4 false
  else if bs.getD 0 0 ≠ slaveAddr ∧ bs.getD 0 0 ≠ 0x00 then .mismatch
  else .ok 0 (bs.getD 0 0 == 0x00)

/-- `CrcValid(L)`: `CrcRing(RX, RX.head, L-2)` against `b(L-2)` and `b(L-1)` (R86). -/
def State.frameCrcValid (s : State) (bs : List Byte) (len : Nat) : Bool :=
  crcBytes (s.rx.crc s.cfg.rxCap s.rx.head (len - 2)) == [bs.getD (len - 2) 0, bs.getD (len - 1) 0]

/-- How RECV goes up to the decode: it ends (a wait or a drop), or an instruction is to be executed
in the given state. -/
inductive Fetched where
  | done (s : State)
  | run (i : Instr) (s : State)
  | peekFault
  deriving DecidableEq, Repr

/-- RECV from the address check on, with the watchdog cancelled (R80, R82 to R86). -/
def fetchFrame (s : State) (bs : List Byte) : Fetched :=
  match addressCheck s.cfg s.slaveAddr bs with
  | .waitMore => .done (s.wdogArm bs.length)
  | .mismatch => .done (s.dropFrame false .addressMismatch)
  | .ok a bcast =>
    match fnOfCode (bs.getD (a + 1) 0) with
    | none => .done (s.dropFrame false .unknownFunction)
    | some f =>
      if bs.length < frameLengthOf f a (bs.getD (a + 6) 0) then .done (s.wdogArm bs.length)
      else if fnRefusesBroadcast f && bcast then .done (s.dropFrame false .broadcastRead)
      else if !s.frameCrcValid bs (frameLengthOf f a (bs.getD (a + 6) 0)) then
        .done (s.dropFrame false .crcMismatch)
      else .run (decodeFields f bs) s

/-- RECV up to the decode (R80, R81). -/
def fetch (s : State) : Fetched :=
  match s.rx.peekAll s.cfg.rxCap s.rx.count with
  | none => .peekFault
  | some bs =>
    if s.rx.count < 8 then .done ((s.setPosted false).wdogArm s.rx.count)
    else fetchFrame (s.setPosted false).wdogCancel bs

end Sys2Proof.Machine
end

