-- ==== Sys2Proof/Machine/Events.lean ====
section
/-! DEFINITION. The event handlers (30_encoding.md R65), which events are enabled, and which event
comes when the event script is empty. -/

namespace Sys2Proof.Machine

/-- Handler of `RX_BYTE(x)` (40_bytering.md R75). -/
def handleRxByte (x : Byte) (s : State) : State :=
  if s.cfg.rxDuringTx = .drop ∧ s.lineMode = .transmit then s else (s.rxPut x).setPosted true

/-- Handler of `TX_READY` (48_silence_transmit.md R152). -/
def handleTxReady (s : State) : State :=
  if s.txie = false then s
  else if 1 ≤ s.tx.count then
    ({ s with tx := (s.tx.get s.cfg.txCap s.cfg.emptySentinel).2 } : State).output
      (.txByte (s.tx.get s.cfg.txCap s.cfg.emptySentinel).1)
  else s.txEnd

/-- Handler of `WDOG_FIRE` (47_watchdog.md R146). -/
def handleWdogFire (s : State) : State := s.wdogCancel.rxRemove (min s.wdogN s.rx.count)

/-- Handler of `RECV` (42_frame_receiver.md R80): fetch and decode, then execute the instruction. -/
def handleRecv (s : State) : Host.Outcome State Fault Refusal :=
  match fetch s with
  | .done t => .next t
  | .run i t => exec i t
  | .peekFault => .fault .peekPastCount

/-- An event is enabled (R65). HOST_STORE is always enabled; a value of a wrong kind has no move
(60_exceptions.md R168), which `handle` reports under its own name. -/
def enabled (e : Event) (s : State) : Bool :=
  match e with
  | .rxByte _ | .txReady | .tick | .hostWrite _ _ | .hostStore _ _ => true
  | .recv => s.rxPosted
  | .wdogFire => s.wdog == .expired
  | .classFire k => perClassGet s.ctimer k == .expired

/-- The value is of every kind the reference is bound to (R168, log 9). -/
def storeKindOk (c : Config) (ref : StorageRef) (v : Value) : Bool :=
  (boundKinds c ref).all fun k => decide (k = valueKind v)

/-- One event and its whole handler (R65). -/
def handle (e : Event) (s : State) : Host.Outcome State Fault Refusal :=
  if enabled e s then
    match e with
    | .rxByte x => .next (handleRxByte x s)
    | .txReady => .next (handleTxReady s)
    | .tick => .next s.tickTimers
    | .recv => handleRecv s
    | .wdogFire => .next (handleWdogFire s)
    | .classFire k => classFire k s
    | .hostWrite r v => .next (s.hostWrite r v)
    | .hostStore ref v =>
      if storeKindOk s.cfg ref v then .next (s.storeWrite ref v) else .fault .storeOfWrongKind
  else .fault .eventNotEnabled

/-- A timer is running. -/
def timerRunning : Timer → Bool
  | .running _ => true
  | .off | .expired => false

/-- The events that fairness promises in a state: the enabled internal events, TX_READY while
`txie = 1`, TICK while a timer runs (70_reset_and_hazards.md R183). -/
def promisedEvents (s : State) : List Event :=
  (if s.rxPosted then [.recv] else []) ++ (if s.wdog = .expired then [.wdogFire] else []) ++
    (allClasses.filter fun k => perClassGet s.ctimer k == .expired).map .classFire ++
    (if s.txie then [.txReady] else []) ++
    (if timerRunning s.wdog || allClasses.any fun k => timerRunning (perClassGet s.ctimer k) then
      [.tick] else [])

/-- Events that begin to wait, each with a free number of steps it may be put off; `n` draws came
before. -/
def beginWaiting : Nat → List Event → List (Event × Nat)
  | _, [] => []
  | n, e :: es => (e, Config.freePatience n) :: beginWaiting (n + 1) es

/-- The promised events as they wait: those that waited before, longest first, then those that are
promised only now. -/
def State.promises (s : State) : List (Event × Nat) :=
  (s.waiting.filter fun w => decide (w.1 ∈ promisedEvents s)) ++
    beginWaiting s.freeCount
      ((promisedEvents s).filter fun e => decide (e ∉ s.waiting.map Prod.fst))

/-- The entry that may be put off least, the longest waiting of those. -/
def firstDue : List (Event × Nat) → Option (Event × Nat)
  | [] => none
  | w :: ws =>
    match firstDue ws with
    | none => some w
    | some v => if w.2 ≤ v.2 then some w else some v

/-- The event that comes next: the script's, and once the script is empty one of the promised events;
none in a state that promises none. Each promised event may be put off a free number of steps and no
longer than the older ones then need, so that every one that stays promised comes (R158, R183, log 7). -/
def nextEvent (s : State) : Option Event :=
  match s.inputs with
  | e :: _ => some e
  | [] => (firstDue s.promises).map Prod.fst

/-- `s` with the event that comes next taken: off the script, or off the waiting events, the others
having been put off once more. -/
def State.takeEvent (s : State) (e : Event) : State :=
  match s.inputs with
  | _ :: rest => { s with inputs := rest }
  | [] =>
    { s with
      waiting := (s.promises.filter fun w => decide (w.1 ≠ e)).map fun w => (w.1, w.2 - 1)
      freeCount := s.freeCount + (promisedEvents s).length }

end Sys2Proof.Machine
end

