-- ==== Sys2Proof/Machine/Step.lean ====
section
/-! DEFINITION. One step: one enabled event and its whole handler (30_encoding.md R65). -/

namespace Sys2Proof.Machine

/-- One step. A configuration out of bounds is refused (70_reset_and_hazards.md R172). The event that
comes next is handled; when there is none, the script being empty and nothing promised (R183, R184),
the block waits unchanged (log 7). -/
def step (s : State) : Host.Outcome State Fault Refusal :=
  if configOk s.cfg then
    match nextEvent s with
    | some e => handle e (s.takeEvent e)
    | none => .next s
  else .refused .configOutOfBounds

/-- `s` with a frame in RX, received and posted, and RECV the next event: how a request comes to run
(log 6). -/
def State.withFrame (s : State) (frame : List Byte) : State :=
  { s with
    rx := (frame.foldl (fun r x => (r.put s.cfg.rxCap false x).1) s.rx.clear)
    rxPosted := true
    inputs := .recv :: s.inputs }

/-- `s` with the frame of an opcode-table row's bits, addressed to this device, as what the next step
fetches (log 6, log 15). -/
def State.withFetchWord (s : State) (nbits w : Nat) : State :=
  s.withFrame (tableFrame s.slaveAddr nbits w)

end Sys2Proof.Machine
end

