-- ==== Sys2Proof/Safety.lean ====
section
/-! DEFINITION. The terms claims are made in: the state's invariants (10_state.md R19, R22, R25, R26,
R28, R34; 70_reset_and_hazards.md R171), the quiescent state and what a run is observed by (R184). -/

namespace Sys2Proof.Machine

/-- The ring invariant of R19. "`tail == (head+count) mod capacity`" is claimed only while
OVERWRITE_ADVANCES_TAIL is false. -/
structure RingOk (c : Config) (cap : Nat) (r : Ring) : Prop where
  head_lt : r.head < cap
  tail_lt : r.tail < cap
  count_le : r.count ≤ cap
  tail_eq : c.overwriteAdvancesTail = false → r.tail = (r.head + r.count) % cap
  cells : cellsWf cap r.buf = true

/-- An instruction whose value check in RECV passes (42_frame_receiver.md R92, R94, R98). -/
def valueChecked (c : Config) : Instr → Prop
  | .wrCoil _ _ value => value = 0xFF00 ∨ value = 0x0000
  | .wrMulti _ _ count data => data.length = 2 * count.toNat ∧ 0 < data.length ∧ data.length ≤ 255
  | .forceAddr _ serial _ => serial = c.pipeSerial
  | .rdCoils _ _ _ | .rdDiscretes _ _ _ | .rdHolding _ _ _ | .rdInput _ _ _ | .wrReg _ _ _
  | .diagSample _ _ _ => True

/-- A request the receiver makes: the descriptor of an instruction that passed its value check
(10_state.md R23). -/
def RequestOk (c : Config) (d : PendingRequest) : Prop :=
  ∃ i : Instr, valueChecked c i ∧ d = requestOf i

/-- The queue invariant of R22. -/
structure QueueOk (c : Config) (q : Queue) : Prop where
  slots : q.slot.length = c.qCap
  head_lt : q.head < c.qCap
  tail_lt : q.tail < c.qCap
  count_le : q.count ≤ c.qCap - 1
  tail_eq : q.tail = (q.head + q.count) % c.qCap
  filled : ∀ i < c.qCap,
    (q.slot.getD i none).isSome = true ↔ ∃ j < q.count, i = (q.head + j) % c.qCap
  made : ∀ i d, q.slot.getD i none = some d → RequestOk c d

/-- A running timer has at least one TICK to go (R25). -/
def TimerOk : Timer → Prop
  | .running n => 1 ≤ n
  | .off | .expired => True

/-- The invariant of the block: what the spec says of every state between two handlers. -/
structure Inv (s : State) : Prop where
  config : configOk s.cfg = true
  rx : RingOk s.cfg s.cfg.rxCap s.rx
  tx : RingOk s.cfg s.cfg.txCap s.tx
  /-- TX is never overwritten (45_encoders.md R116), so its tail follows its count whatever the
  switch. -/
  txTail : s.tx.tail = (s.tx.head + s.tx.count) % s.cfg.txCap
  queue : QueueOk s.cfg s.q
  wdog : TimerOk s.wdog
  wdogN : s.wdogN ≤ s.cfg.rxCap
  ctimer : ∀ k, TimerOk (perClassGet s.ctimer k)
  txGate : s.txInProgress = false → s.tx.count = 0
  txie : s.txie = s.txInProgress
  line : s.lineMode = .transmit ↔ s.txInProgress = true
  slave : 1 ≤ s.slaveAddr.toNat ∧ s.slaveAddr.toNat ≤ 247
  store : storeWf s.store = true

/-- The receiver's state (R33): AwaitingMoreBytes when the watchdog is not off, else AwaitingFrame. -/
def awaitingMoreBytes (s : State) : Prop := s.wdog ≠ .off

/-- The block is quiescent (R184). -/
def quiescent (s : State) : Prop :=
  s.rxPosted = false ∧ s.wdog = .off ∧ (∀ k, perClassGet s.ctimer k = .off) ∧ s.txInProgress = false

/-- A step that stops only because the environment offered a move the block does not have. -/
def environmentFault : Fault → Prop
  | .eventNotEnabled | .storeOfWrongKind => True
  | .peekPastCount | .requestNeverQueued => False

/-! ## Events offered, and requests that are due -/

/-- `s` with an event as the next of its script. -/
def State.offer (s : State) (e : Event) : State := { s with inputs := e :: s.inputs }

/-- The step in which the timer handler of a class runs. -/
def State.fire (s : State) (k : RegClass) : Host.Outcome State Fault Refusal :=
  step (s.offer (.classFire k))

/-- A frame with this prefix is for this device: its serial number, its slave address, or broadcast
(42_frame_receiver.md R82). -/
def addressed (s : State) : Address → Prop
  | .long serial => serial = s.cfg.pipeSerial
  | .short slave => slave = s.slaveAddr ∨ slave = 0x00

/-- The request at the queue's head may be answered: the timer of its class has expired and nothing
is being transmitted (45_encoders.md R111). -/
structure Due (d : PendingRequest) (s : State) : Prop where
  inv : Inv s
  first : s.q.first = some d
  expired : perClassGet s.ctimer d.cls = .expired
  idle : s.txInProgress = false

/-- The offset `A` of a prefix: 0 SHORT, 4 LONG (30_encoding.md R56). -/
def prefixOffset : Address → Nat
  | .short _ => 0
  | .long _ => 4

/-- `s` after a RECV whose frame of `len` bytes was accepted as the request `d`: the frame has left
RX, the request is behind the others, the timer of its class runs (42_frame_receiver.md R87, R88). -/
def State.queued (s : State) (d : PendingRequest) (len : Nat) : State :=
  { s with
    rx := ⟨s.rx.buf, (s.rx.head + len) % s.cfg.rxCap, s.rx.tail, s.rx.count - len⟩
    q := ⟨s.q.slot.set s.q.tail (some d), s.q.head, (s.q.tail + 1) % s.cfg.qCap, s.q.count + 1⟩
    ctimer := perClassSet s.ctimer d.cls (.running (perClassGet s.cfg.tClass d.cls)) }

/-- The queue has room for one more request (43_request_queue.md R99, R100). -/
def State.hasRoom (s : State) : Prop := s.q.count ≠ s.cfg.qCap - 1

/-! ## How a request ends -/

/-- `t` is `s` after its receiver abandoned the frame: RX cleared, the watchdog cancelled, `n`
faults counted, `m` of them CRC mismatches (R89). -/
def State.dropped (s : State) (n m : U16) : State :=
  { s with
    rxPosted := false
    wdog := .off
    rx := ⟨s.rx.buf, 0, 0, 0⟩
    faultCount := s.faultCount + n
    crcFaultCount := s.crcFaultCount + m }

/-- The array slots of TX from `low` on are as they were, but for the `n` slots from the tail on. -/
def TxSlotsKept (s t : State) (low n : Nat) : Prop :=
  ∀ j, low ≤ j → (∀ m < n, j ≠ (s.tx.tail + m) % s.cfg.txCap) →
    cellRead t.tx.buf j = cellRead s.tx.buf j

/-- `t` is `s` after the request `d` left the queue and `frame` was put into TX and its transmission
started (R111, R115, 48_silence_transmit.md R151). `s` holds what the body wrote; how many free
values were drawn is not fixed. -/
def Sent (d : PendingRequest) (s : State) (frame : List Byte) (t : State) : Prop :=
  t = { s with
        tx := t.tx
        txInProgress := true
        txie := true
        lineMode := .transmit
        q := s.q.discardHead s.cfg.qCap
        ctimer := perClassSet s.ctimer d.cls .off
        freeCount := t.freeCount } ∧
    t.txBytes = frame

/-- `t` is `s` after the request `d` left the queue and nothing was sent (R111, R114): of TX only
array slots outside its bytes can differ. -/
def Unsent (d : PendingRequest) (s t : State) : Prop :=
  t = { s with
        tx := { s.tx with buf := t.tx.buf }
        q := s.q.discardHead s.cfg.qCap
        ctimer := perClassSet s.ctimer d.cls .off
        freeCount := t.freeCount }

/-- The longest body that a request's frame can have, prefix included and CRC not (R116). -/
def maxBody : Nat := 257

/-- The request ended with its response, which a broadcast does not get (R111). -/
def Answered (d : PendingRequest) (s : State) (body : List Byte) (t : State) : Prop :=
  if d.bcast then
    Unsent d s t ∧ TxSlotsKept s t 0 (s.responsePrefix d.mode ++ body).length
  else
    Sent d s (withCrc (s.responsePrefix d.mode ++ body)) t ∧
      TxSlotsKept s t 0 (withCrc (s.responsePrefix d.mode ++ body)).length

/-- The request ended with an exception: the 5-byte short form, which a broadcast does not get
(R114, R142). It stands in slots 0 to 4 of TX; what the body had put from the tail on is forgotten. -/
def Excepted (d : PendingRequest) (s : State) (code : ExcCode) (t : State) : Prop :=
  if d.bcast then Unsent d s t ∧ TxSlotsKept s t 0 maxBody
  else
    Sent d s (withCrc [s.slaveAddr, d.fc ||| 0x80, BitVec.ofNat 8 (excNumber code)]) t ∧
      t.tx.head = 0 ∧ TxSlotsKept s t 5 maxBody

/-! ## What a request reads and writes -/

/-- The table addresses of a request's values, in order (20_memory.md R40). -/
def requestAddrs (c : Config) (d : PendingRequest) : List Nat :=
  match d.cls with
  | .int | .coil => (List.range d.count.toNat).map fun j => d.start + j
  | .long | .float => (List.range d.countEff).map fun j => d.start + strideNat c.stride32 * j
  | .diag | .force => []

/-- The value a table address is bound to. -/
def State.valueAt (s : State) (d : PendingRequest) (a : Nat) : Value :=
  match lookupFor s.cfg d.cls d.ext a with
  | none => .bool false
  | some bnd => storeGet s.store bnd.ref

/-- A coil request takes coil values, a register request all others (R120 to R127). -/
def kindFits (d : PendingRequest) (k : Kind) : Bool := (d.cls == .coil) == (k == .coilBoolean)

/-- Why a register cannot be read (R118): absent 2, denied 3, of a kind not taken 4. -/
def State.readFailure (s : State) (d : PendingRequest) (a : Nat) : Option ExcCode :=
  match lookupFor s.cfg d.cls d.ext a with
  | none => some .badAddress
  | some bnd =>
    if bnd.perm = .writeOnly then some .badValue
    else if kindFits d (valueKind (storeGet s.store bnd.ref)) then none
    else some .slaveFail

/-- The permission classes that may be written (44_dispatcher.md R109, 60_exceptions.md R162). -/
def State.writable (s : State) : Perm → Prop
  | .volatile => True
  | .password => s.unlocked = true
  | .factory => s.factoryUnlocked = true ∧ s.unlocked = true
  | .readOnly | .writeOnly => False

/-- Why a register cannot be written (R118): absent 2, denied 3, of a kind not taken 4. -/
def State.writeFailure (s : State) (d : PendingRequest) (a : Nat) : Option ExcCode :=
  match lookupFor s.cfg d.cls d.ext a with
  | none => some .badAddress
  | some bnd =>
    if noPermission s.unlocked s.factoryUnlocked bnd.perm .write then some .badValue
    else if kindFits d bnd.kind then none
    else some .slaveFail

/-- The quantity checks of R117. -/
def countOk (d : PendingRequest) : Prop :=
  match d.cls, d.dir with
  | .int, .read => 1 ≤ d.count.toNat ∧ d.count.toNat ≤ 125
  | .long, .read | .float, .read => 1 ≤ d.count.toNat ∧ d.count.toNat ≤ 125 ∧ 1 ≤ d.countEff
  | .coil, .read => 1 ≤ d.count.toNat ∧ d.count.toNat ≤ 2000
  | .long, .write | .float, .write => 1 ≤ d.countEff
  | .int, .write | .coil, .write | .diag, _ | .force, _ => True

/-- A u16 that a value reads as (R120). A result that is a draw is any u16. -/
def Reads16 (tie : RoundTie) : Value → U16 → Prop
  | .i32 x, w | .l32 x, w => w = BitVec.ofInt 16 x.toInt
  | .f64 x, w | .ann x, w => ∀ r, inS32 (f64Round tie x) = some r → w = BitVec.ofInt 16 r
  | .bool _, _ => False

/-- A u32 that a value reads as (R121). A result that is a draw is any u32. -/
def Reads32 (tie : RoundTie) : Value → U32 → Prop
  | .i32 x, u | .l32 x, u => u = x
  | .f64 x, u | .ann x, u => ∀ r, inS32 (f64Round tie x) = some r → u = BitVec.ofInt 32 r
  | .bool _, _ => False

/-- An f32 pattern that a value reads as (R122). A NaN reads as any f32 NaN. -/
def ReadsF : Value → U32 → Prop
  | .f64 x, u | .ann x, u =>
    match f64Finite x with
    | some v => u = f32OfFinite v
    | none => if f64IsNan x then f32IsNan u = true else u = f32Infinity (f64Neg x)
  | .i32 x, u | .l32 x, u => u = f32OfInt x.toInt
  | .bool _, _ => False

/-- The value a 16-bit wire value is stored as (R123). -/
def Writes16 (w : U16) : Kind → Value → Prop
  | .rawInteger, v => v = .i32 (w.signExtend 32)
  | .rawLongInteger, v => v = .l32 (w.signExtend 32)
  | .rawDouble, v => v = .f64 (f64OfInt w.toInt)
  | .annotated, v => v = .ann (f64OfInt w.toInt)
  | .coilBoolean, _ => False

/-- The value a 32-bit wire value is stored as (R124). -/
def Writes32 (u : U32) : Kind → Value → Prop
  | .rawInteger, v => v = .i32 u
  | .rawLongInteger, v => v = .l32 u
  | .rawDouble, v => v = .f64 (f64OfInt u.toInt)
  | .annotated, v => v = .ann (f64OfInt u.toInt)
  | .coilBoolean, _ => False

/-- An f64 pattern that an f32 pattern widens to: any f64 NaN for a NaN (R125). -/
def Widens (u : U32) (x : U64) : Prop :=
  match f32Finite u with
  | some v => x = f64OfFinite v
  | none =>
    if f32IsNan u then f64IsNan x = true
    else x = if f32Neg u then 0xFFF0000000000000 else 0x7FF0000000000000

/-- A value an f32 pattern is stored as (R125). A result that is a draw is any s32. -/
def WritesF (tie : RoundTie) (u : U32) : Kind → Value → Prop
  | .rawDouble, v => ∃ x, Widens u x ∧ v = .f64 x
  | .annotated, v => ∃ x, Widens u x ∧ v = .ann x
  | .rawInteger, v =>
    ∃ n, (∀ r, inS32 (f32Round tie u) = some r → n = BitVec.ofInt 32 r) ∧ v = .i32 n
  | .rawLongInteger, v =>
    ∃ n, (∀ r, inS32 (f32Round tie u) = some r → n = BitVec.ofInt 32 r) ∧ v = .l32 n
  | .coilBoolean, _ => False

/-- The writes `vs` are those of the first `vs.length` values of a request, each to what its address
is bound to, `Writes j` saying which values wire value `j` may be stored as. -/
def WritesAre (s : State) (d : PendingRequest) (Writes : Nat → Kind → Value → Prop)
    (vs : List (Binding × Value)) : Prop :=
  ∀ j (h : j < vs.length), ∃ a bnd, (requestAddrs s.cfg d)[j]? = some a ∧
    lookupFor s.cfg d.cls d.ext a = some bnd ∧ vs[j].1 = bnd ∧ Writes j bnd.kind vs[j].2

end Sys2Proof.Machine
end

