-- ==== Sys2Proof/Certificates/Slice0/Obligations.lean ====
section
/-! DEFINITION. What is claimed of the model, rule by rule. -/

open Sys2Proof Sys2Proof.Machine

/-! ## Frames and the decoder -/

/-- 30_encoding.md R56 to R59 and R64: the decoder reads back every frame the encoder writes, whatever
follows it in the buffer. -/
def Obligations.DecodeOfEncode : Prop :=
  ∀ (i : Instr) (rest : List Byte), i.wellFormed = true →
    decode (encode i ++ rest) = .instr i (frameLength i)

/-- R56 to R59, R64: a frame has one meaning; the bytes the decoder reads an instruction from are the
frame of that instruction. -/
def Obligations.EncodeOfDecode : Prop :=
  ∀ (bytes : List Byte) (i : Instr) (len : Nat), decode bytes = .instr i len →
    i.wellFormed = true ∧ len ≤ bytes.length ∧ bytes.take len = encode i

/-- Frames written out from R58, in the spec's examples, are what they stand for. -/
def Obligations.SpecFramesDecode : Prop :=
  decode [0x01, 0x01, 0x00, 0x00, 0x00, 0x0A, 0xBC, 0x0D] = .instr (.rdCoils (.short 1) 0 10) 8 ∧
    decode [0xFA, 0x12, 0x34, 0x56, 0x78, 0x03, 0x00, 0xC8, 0x00, 0x01, 0xBB, 0xE0] =
      .instr (.rdHolding (.long 0x12345678) 200 1) 12 ∧
    decode [0x01, 0x06, 0x00, 0xC8, 0x00, 0x07, 0x49, 0xF6] =
      .instr (.wrReg (.short 1) 200 7) 8 ∧
    decode [0x01, 0x10, 0x00, 0xC8, 0x00, 0x02, 0x04, 0x00, 0x0C, 0xFF, 0xF6, 0xFF, 0xEC] =
      .instr (.wrMulti (.short 1) 200 2 [0x00, 0x0C, 0xFF, 0xF6]) 13 ∧
    decode [0x00, 0x44, 0x12, 0x34, 0x56, 0x78, 0x05, 0xA0, 0x64] =
      .instr (.forceAddr (.short 0) 0x12345678 5) 9

/-- R62, R63: nine function codes, all 8 bits compared; a frame with any other code is rejected by
name. -/
def Obligations.OtherFunctionCodesRejected : Prop :=
  (∀ c : Byte, fnOfCode c = none ↔ c ∉ ([0x01, 0x02, 0x03, 0x04, 0x05, 0x06, 0x10, 0x42, 0x44] : List Byte)) ∧
    ∀ bytes : List Byte, 8 + addressOffset bytes ≤ bytes.length →
      fnOfCode (bytes.getD (addressOffset bytes + 1) 0) = none →
      decode bytes = .reject (.unknownFunction (bytes.getD (addressOffset bytes + 1) 0))

/-- 41_crc16.md R79, a consequence the spec marks as derived: a frame carries its own CRC exactly when
the CRC over all of it is zero. -/
def Obligations.CrcValidIffCrcZero : Prop :=
  ∀ frame : List Byte, 3 ≤ frame.length → (crcValid frame = true ↔ crc16 frame = 0)

/-! ## Operand forms -/

/-- 20_memory.md R38: the bands, the sub-offsets and their byte orders. -/
def Obligations.ClassifyBands : Prop :=
  ∀ s : Nat, 1 ≤ s → s ≤ 65536 →
    ((201 ≤ s ∧ s ≤ 300) ∨ (401 ≤ s ∧ s ≤ 500) →
      classify s = ⟨.int, s, 0, .abcd, false, false, false⟩) ∧
    (301 ≤ s ∧ s ≤ 400 → classify s = ⟨.long, s, 0, .abcd, false, false, false⟩) ∧
    (¬(201 ≤ s ∧ s ≤ 500) → ∀ band t, t < 2000 → s = 2000 * band + t →
      classify s = ⟨.float, t, 2000 * band,
        if band = 1 then .badc else if band = 2 then .cdab else if band = 3 then .dcba else .abcd,
        band == 4, band == 30, decide (band ∉ [0, 1, 2, 3, 4, 30])⟩)

/-- R45: the four byte orders; that each undoes itself is a consequence the spec marks as derived. -/
def Obligations.ByteOrdersUndoThemselves : Prop :=
  ∀ (o : ByteOrder) (u : U32) (x0 x1 x2 x3 : Byte), permute o x0 x1 x2 x3 =
      (match o with
        | .abcd => [x0, x1, x2, x3]
        | .badc => [x1, x0, x3, x2]
        | .cdab => [x2, x3, x0, x1]
        | .dcba => [x3, x2, x1, x0]) ∧
    permuteGroups o (permuteGroups o [x0, x1, x2, x3]) = [x0, x1, x2, x3] ∧
    permuteGroups o (orderedBytes o u) = bytes32 u

/-- 44_dispatcher.md R106: the first entry with the address, among those before the sentinel. -/
def Obligations.LinearLookupFindsFirst : Prop :=
  ∀ (table : List Entry) (a : Nat),
    (∀ bnd, lookupLinear table a = some bnd ↔
      ∃ before e after, table = before ++ e :: after ∧ e.addr = a ∧ e.bnd = bnd ∧ a ≠ 0 ∧
        ∀ e' ∈ before, e'.addr ≠ 0 ∧ e'.addr ≠ a)

/-- R108: the first segment whose interval holds the address, the interval ending where the next
segment starts, the last at the table's end bound. -/
def Obligations.ExtendedLookupScansIntervals : Prop :=
  ∀ (table : List Segment) (extEnd a : Nat) (bnd : Binding),
    lookupExt extEnd table a = some bnd ↔
      ∃ i, ∃ h : i < table.length, table[i].rangeStart ≤ a ∧
        a < ((table[i + 1]?).map Segment.rangeStart).getD extEnd ∧
        bnd = ⟨⟨table[i].base, (a - table[i].rangeStart) / 2⟩, table[i].kind, table[i].perm⟩ ∧
        ∀ j, (hj : j < i) → ¬(table[j].rangeStart ≤ a ∧ a < table[j + 1].rangeStart)

/-- R109 (60_exceptions.md R162): what is denied. -/
def Obligations.PermissionRule : Prop :=
  ∀ (s : State) (perm : Perm),
    (noPermission s.unlocked s.factoryUnlocked perm .read = true ↔ perm = .writeOnly) ∧
    (noPermission s.unlocked s.factoryUnlocked perm .write = true ↔ ¬ s.writable perm)

/-- 45_encoders.md R119: rounding goes to a nearest integer, a tie away from zero or to the even one.
The value rounded is m / 2^k, negated for a negative one. -/
def Obligations.RoundGoesToNearest : Prop :=
  ∀ (tie : RoundTie) (x : U64),
    (f64Finite x = none → f64Round tie x = none) ∧
    ∀ v : Finite, f64Finite x = some v →
      ∃ r : Int, f64Round tie x = some r ∧
        (0 ≤ v.e → r = (if v.neg then -1 else 1) * (v.m * 2 ^ v.e.toNat : Int)) ∧
        ∀ k : Nat, v.e = -(k : Int) →
          2 * (r * 2 ^ k - (if v.neg then -1 else 1) * (v.m : Int)).natAbs ≤ 2 ^ k ∧
          (2 * (r * 2 ^ k - (if v.neg then -1 else 1) * (v.m : Int)).natAbs = 2 ^ k →
            match tie with
            | .away => (v.m : Int) < r.natAbs * 2 ^ k
            | .even => r % 2 = 0)

/-- R122, R125: a float that is not NaN survives being written and read back. -/
def Obligations.FloatRoundTrip : Prop :=
  ∀ (tie : RoundTie) (u : U32) (n : Nat), f32IsNan u = false →
    ∃ v, wrF tie u .rawDouble n = some (v, n) ∧ rdF v n = some (u, n)

/-! ## The receiver -/

/-- 30_encoding.md R65: one step is the next event and its whole handler; an event of the script that is
not enabled is no move (the model's fault, log 8). 70_reset_and_hazards.md R183, R184: with the script
empty the next event is one that fairness promises, and a state that promises none waits; in every run,
a promised event comes or stops being promised (how long it is put off is free, log 7). -/
def Obligations.StepHandlesTheNextEvent : Prop :=
  (∀ (s : State) (e : Event) (rest : List Event), configOk s.cfg = true → s.inputs = e :: rest →
    step s = handle e { s with inputs := rest } ∧
      (enabled e s = false → step s = .fault .eventNotEnabled)) ∧
  (∀ s : State, configOk s.cfg = true → s.inputs = [] →
    (promisedEvents s = [] → step s = .next s) ∧
    (promisedEvents s ≠ [] → ∃ e ∈ promisedEvents s, ∃ waiting n,
      step s = handle e { s with waiting := waiting, freeCount := n })) ∧
  (∀ s : State, (.recv ∈ promisedEvents s ↔ s.rxPosted = true) ∧
    (.wdogFire ∈ promisedEvents s ↔ s.wdog = .expired) ∧
    (∀ k, .classFire k ∈ promisedEvents s ↔ perClassGet s.ctimer k = .expired) ∧
    (.txReady ∈ promisedEvents s ↔ s.txie = true) ∧
    (.tick ∈ promisedEvents s ↔
      ∃ n, s.wdog = .running n ∨ ∃ k, perClassGet s.ctimer k = .running n)) ∧
  ∀ run : Nat → State, (∀ n, step (run n) = .next (run (n + 1))) →
    ∀ i e, e ∈ promisedEvents (run i) →
      ∃ n, i ≤ n ∧ (e ∉ promisedEvents (run n) ∨ nextEvent (run n) = some e)

/-- 42_frame_receiver.md R80: when the bytes in RX decode to an instruction for this device, the step
of RECV executes it (`exec` is what the frame does in RECV, log 14), with RECV no longer posted and the
watchdog cancelled. -/
def Obligations.StepRunsTheDecodedInstruction : Prop :=
  ∀ (s : State) (i : Instr) (len : Nat) (rest : List Event), configOk s.cfg = true →
    s.inputs = .recv :: rest → s.rxPosted = true → decode s.rxBytes = .instr i len →
    addressed s (instrAddress i) →
    (addressBcast (instrAddress i) = true → fnRefusesBroadcast (instrFn i) = false) →
    step s = exec i { s with inputs := rest, rxPosted := false, wdog := .off }

/-- R81, R82, R84 and 47_watchdog.md R144: too few bytes arm the watchdog with their count and change
nothing else. -/
def Obligations.IncompleteFrameArmsWatchdog : Prop :=
  ∀ s : State, configOk s.cfg = true → s.rxPosted = true →
    (s.rxBytes.length < 8 ∨ (s.rxBytes.getD 0 0 = 0xFA ∧ s.rxBytes.length < 12) ∨
      (addressed s (decodeAddress s.rxBytes) ∧
        ∃ f, fnOfCode (s.rxBytes.getD (addressOffset s.rxBytes + 1) 0) = some f ∧
          s.rxBytes.length < frameLengthOf f (addressOffset s.rxBytes)
            (s.rxBytes.getD (addressOffset s.rxBytes + 6) 0))) →
    step (s.offer .recv) =
      .next { s with rxPosted := false, wdog := .running s.cfg.tWdog, wdogN := s.rxBytes.length }

/-- R82, R89: a frame for another device is dropped: RX is cleared and no counter changes. -/
def Obligations.OtherDevicesFrameDropped : Prop :=
  ∀ s : State, configOk s.cfg = true → s.rxPosted = true →
    8 + addressOffset s.rxBytes ≤ s.rxBytes.length → ¬ addressed s (decodeAddress s.rxBytes) →
    step (s.offer .recv) = .next (s.dropped 0 0)

/-- R83, R30: an unknown function code is counted, whatever the frame's length and CRC, and the frame
dropped. -/
def Obligations.UnknownFunctionDropped : Prop :=
  ∀ s : State, configOk s.cfg = true → s.rxPosted = true →
    8 + addressOffset s.rxBytes ≤ s.rxBytes.length → addressed s (decodeAddress s.rxBytes) →
    fnOfCode (s.rxBytes.getD (addressOffset s.rxBytes + 1) 0) = none →
    step (s.offer .recv) = .next (s.dropped 1 0)

/-- R85: a broadcast of a read function is dropped before its CRC is looked at; no counter changes. -/
def Obligations.BroadcastReadDropped : Prop :=
  ∀ (s : State) (f : Fn), configOk s.cfg = true → s.rxPosted = true →
    8 ≤ s.rxBytes.length → s.rxBytes.getD 0 0 = 0x00 →
    fnOfCode (s.rxBytes.getD 1 0) = some f →
    f ∈ [Fn.rdCoils, .rdDiscretes, .rdHolding, .rdInput, .diagSample] →
    step (s.offer .recv) = .next (s.dropped 0 0)

/-- R86, R30: a complete frame with a wrong CRC counts in both fault counters and is dropped. -/
def Obligations.CrcMismatchDropped : Prop :=
  ∀ (s : State) (f : Fn), configOk s.cfg = true → s.rxPosted = true →
    8 + addressOffset s.rxBytes ≤ s.rxBytes.length → addressed s (decodeAddress s.rxBytes) →
    fnOfCode (s.rxBytes.getD (addressOffset s.rxBytes + 1) 0) = some f →
    frameLengthOf f (addressOffset s.rxBytes) (s.rxBytes.getD (addressOffset s.rxBytes + 6) 0) ≤
      s.rxBytes.length →
    (s.rxBytes.getD 0 0 = 0x00 → fnRefusesBroadcast f = false) →
    crcValid (s.rxBytes.take (frameLengthOf f (addressOffset s.rxBytes)
      (s.rxBytes.getD (addressOffset s.rxBytes + 6) 0))) = false →
    step (s.offer .recv) = .next (s.dropped 1 1)

/-! ## What each request frame does in RECV -/

/-- R91, R87, R88: RD_COILS and RD_DISCRETES are queued with their fields and accepted. -/
def Obligations.CoilReadsAreQueued : Prop :=
  ∀ (p : Address) (start count : U16) (s : State), s.hasRoom → 8 + prefixOffset p ≤ s.rx.count →
    exec (.rdCoils p start count) s = .next (s.queued
      { mode := addressMode p, slave := addressSlave p, bcast := addressBcast p, fc := 0x01,
        wireStart := start, start := start.toNat + 1, count := count, countEff := count.toNat,
        cls := .coil, dir := .read } (8 + prefixOffset p)) ∧
    exec (.rdDiscretes p start count) s = .next (s.queued
      { mode := addressMode p, slave := addressSlave p, bcast := addressBcast p, fc := 0x02,
        wireStart := start, start := start.toNat + 1, count := count, countEff := count.toNat,
        cls := .coil, dir := .read } (8 + prefixOffset p))

/-- R91, R38: RD_HOLDING and RD_INPUT are classified by their first register; the count is halved for
the 32-bit classes. -/
def Obligations.RegisterReadsAreQueued : Prop :=
  ∀ (p : Address) (start count : U16) (b : Band) (s : State), b = classify (start.toNat + 1) →
    s.hasRoom → 8 + prefixOffset p ≤ s.rx.count →
    ∀ i fc, (i, fc) ∈ [(Instr.rdHolding p start count, (0x03 : Byte)), (.rdInput p start count, 0x04)] →
      exec i s = .next (s.queued
        { mode := addressMode p, slave := addressSlave p, bcast := addressBcast p, fc := fc,
          wireStart := start, start := b.start, offset := b.offset, count := count,
          countEff := if b.cls = .int then count.toNat else count.toNat / 2,
          cls := b.cls, dir := .read, order := b.order, lvf := b.lvf, ext := b.ext,
          badOffset := b.badOffset } (8 + prefixOffset p))

/-- R92: WR_COIL with value 0xFF00 or 0x0000 is queued. -/
def Obligations.CoilWriteIsQueued : Prop :=
  ∀ (p : Address) (addr value : U16) (s : State), value = 0xFF00 ∨ value = 0x0000 →
    s.hasRoom → 8 + prefixOffset p ≤ s.rx.count →
    exec (.wrCoil p addr value) s = .next (s.queued
      { mode := addressMode p, slave := addressSlave p, bcast := addressBcast p, fc := 0x05,
        wireStart := addr, start := addr.toNat + 1, count := 1, countEff := 1, cls := .coil,
        dir := .write, payload := [hi8 value, lo8 value] } (8 + prefixOffset p))

/-- R93: WR_REG is classified by the same bands, its two payload bytes verbatim. -/
def Obligations.RegisterWriteIsQueued : Prop :=
  ∀ (p : Address) (addr value : U16) (b : Band) (s : State), b = classify (addr.toNat + 1) →
    s.hasRoom → 8 + prefixOffset p ≤ s.rx.count →
    exec (.wrReg p addr value) s = .next (s.queued
      { mode := addressMode p, slave := addressSlave p, bcast := addressBcast p, fc := 0x06,
        wireStart := addr, start := b.start, offset := b.offset, count := 1, countEff := 1,
        cls := b.cls, dir := .write, order := b.order, lvf := b.lvf, ext := b.ext,
        badOffset := b.badOffset, payload := [hi8 value, lo8 value] } (8 + prefixOffset p))

/-- R94, R96: WR_MULTI whose byte count is twice its count is queued, float data in ABCD order,
integer and long-integer data verbatim. -/
def Obligations.MultiWriteIsQueued : Prop :=
  ∀ (p : Address) (start count : U16) (data : List Byte) (b : Band) (s : State),
    b = classify (start.toNat + 1) →
    data.length = 2 * count.toNat → 0 < data.length → data.length ≤ 255 →
    s.hasRoom → 9 + prefixOffset p + data.length ≤ s.rx.count →
    ∃ payload, payload.length = data.length ∧
      (b.cls ≠ .float ∨ b.lvf = true → payload = data) ∧
      (b.cls = .float → b.lvf = false →
        (∀ g, 4 * g + 3 < data.length →
          permute b.order (data.getD (4 * g) 0) (data.getD (4 * g + 1) 0) (data.getD (4 * g + 2) 0)
            (data.getD (4 * g + 3) 0) = (payload.drop (4 * g)).take 4) ∧
        ∀ j, 4 * (data.length / 4) ≤ j → payload.getD j 0 = data.getD j 0) ∧
      exec (.wrMulti p start count data) s = .next (s.queued
        { mode := addressMode p, slave := addressSlave p, bcast := addressBcast p, fc := 0x10,
          wireStart := start, start := b.start, offset := b.offset, count := count,
          countEff := if b.cls = .int then count.toNat else count.toNat / 2,
          cls := b.cls, dir := .write, byteCount := BitVec.ofNat 8 data.length, order := b.order,
          lvf := b.lvf, ext := b.ext, badOffset := b.badOffset, payload := payload }
        (9 + prefixOffset p + data.length))

/-- R97, R98: DIAG_SAMPLE is queued, and FORCE_ADDR with the device's serial number. -/
def Obligations.VendorRequestsAreQueued : Prop :=
  ∀ (p : Address) (field tune : U16) (serial : U32) (newAddr : Byte) (s : State), s.hasRoom →
    (8 + prefixOffset p ≤ s.rx.count →
      exec (.diagSample p field tune) s = .next (s.queued
        { mode := addressMode p, slave := addressSlave p, bcast := addressBcast p, fc := 0x42,
          wireStart := field, cls := .diag, dir := .read, payload := [hi8 tune, lo8 tune] }
        (8 + prefixOffset p))) ∧
    (9 + prefixOffset p ≤ s.rx.count → serial = s.cfg.pipeSerial →
      exec (.forceAddr p serial newAddr) s = .next (s.queued
        { mode := addressMode p, slave := addressSlave p, bcast := addressBcast p, fc := 0x44,
          cls := .force, dir := .write, payload := [newAddr] } (9 + prefixOffset p)))

/-- R87, 43_request_queue.md R100: with `Q_CAP - 1` requests queued, any frame is dropped; no counter
changes. -/
def Obligations.FullQueueDropsTheFrame : Prop :=
  ∀ (i : Instr) (s : State), s.q.count = s.cfg.qCap - 1 →
    exec i s = .next { s with rx := ⟨s.rx.buf, 0, 0, 0⟩ }

/-- R92, R98, R89: a coil value other than 0xFF00 and 0x0000, and a foreign serial number in
FORCE_ADDR, drop the frame and leave the queue as it was. -/
def Obligations.FailedValueCheckDrops : Prop :=
  ∀ (p : Address) (addr value : U16) (serial : U32) (newAddr : Byte) (s : State), Inv s → s.hasRoom →
    (value ≠ 0xFF00 → value ≠ 0x0000 →
      exec (.wrCoil p addr value) s = .next { s with rx := ⟨s.rx.buf, 0, 0, 0⟩ }) ∧
    (serial ≠ s.cfg.pipeSerial →
      exec (.forceAddr p serial newAddr) s = .next { s with rx := ⟨s.rx.buf, 0, 0, 0⟩ })

/-- R94, R95, 46_exception_responder.md R142: a byte count that is not twice the count, or is zero, is
answered BAD_VALUE at once when the transmit path is idle and the frame is no broadcast; else nothing
is sent. The frame leaves RX and no request stays queued. -/
def Obligations.BadByteCountAnswered : Prop :=
  ∀ (p : Address) (start count : U16) (data : List Byte) (s : State), Inv s → s.hasRoom →
    data.length ≤ 255 → ¬(data.length = 2 * count.toNat ∧ 0 < data.length) →
    9 + prefixOffset p + data.length ≤ s.rx.count →
    ∃ t, exec (.wrMulti p start count data) s = .next t ∧
      t.rx = ⟨s.rx.buf, (s.rx.head + (9 + prefixOffset p + data.length)) % s.cfg.rxCap, s.rx.tail,
        s.rx.count - (9 + prefixOffset p + data.length)⟩ ∧
      if p = .short 0x00 ∨ s.txInProgress = true then t = { s with rx := t.rx }
      else
        t = { s with rx := t.rx, tx := t.tx, txInProgress := true, txie := true,
                     lineMode := .transmit } ∧
          t.txBytes = withCrc [s.slaveAddr, 0x90, 0x03] ∧ t.tx.head = 0 ∧ TxSlotsKept s t 5 0

/-- The frame of RECV's instructions, all nine: what none of them changes, and what only WR_MULTI,
through its immediate exception, may change. -/
def Obligations.ExecFrame : Prop :=
  ∀ (i : Instr) (s t : State), Inv s → exec i s = .next t →
    t.cfg = s.cfg ∧ t.rx.buf = s.rx.buf ∧ t.rxOverrun = s.rxOverrun ∧ t.txOverrun = s.txOverrun ∧
    t.rxPosted = s.rxPosted ∧ t.wdog = s.wdog ∧ t.wdogN = s.wdogN ∧ t.slaveAddr = s.slaveAddr ∧
    t.faultCount = s.faultCount ∧ t.crcFaultCount = s.crcFaultCount ∧
    t.persistReq = s.persistReq ∧ t.unlocked = s.unlocked ∧
    t.factoryUnlocked = s.factoryUnlocked ∧ t.store = s.store ∧ t.out = s.out ∧
    t.inputs = s.inputs ∧ t.waiting = s.waiting ∧ t.freeCount = s.freeCount ∧ t.q.head = s.q.head ∧
    (∀ j, j ≠ s.q.tail → t.q.slot.getD j none = s.q.slot.getD j none) ∧
    (∀ k, k ≠ (requestOf i).cls → perClassGet t.ctimer k = perClassGet s.ctimer k) ∧
    TxSlotsKept s t 5 0 ∧
    (instrFn i ≠ .wrMulti ∨ s.txInProgress = true →
      t.tx = s.tx ∧ t.txInProgress = s.txInProgress ∧ t.txie = s.txie ∧ t.lineMode = s.lineMode)

/-- From acceptance to the answer (R88, 48_silence_transmit.md R147, R149, R150): a request accepted
into an empty queue, with nothing being transmitted, becomes due after exactly `T_CLASS` TICKs, and
not before. -/
def Obligations.AcceptedRequestBecomesDue : Prop :=
  ∀ (i : Instr) (s : State), Inv s → s.q.count = 0 → s.txInProgress = false →
    valueChecked s.cfg i → frameLength i ≤ s.rx.count →
    ∃ t, exec i s = .next t ∧
      (∀ n < perClassGet s.cfg.tClass (requestOf i).cls,
        perClassGet (State.tickTimers^[n] t).ctimer (requestOf i).cls ≠ .expired) ∧
      Due (requestOf i)
        (State.tickTimers^[perClassGet s.cfg.tClass (requestOf i).cls] t)

/-! ## What answering a request does: CLASS_FIRE -/

/-- 45_encoders.md R137, 20_memory.md R46: a coil read answers the coils, least significant bit first,
the unused bits of the last byte 0. -/
def Obligations.CoilReadAnswer : Prop :=
  ∀ (d : PendingRequest) (s : State), Due d s → d.cls = .coil → d.fc = 0x01 ∨ d.fc = 0x02 →
    1 ≤ d.count.toNat → d.count.toNat ≤ 2000 →
    (requestAddrs s.cfg d).findSome? (s.readFailure d) = none →
    ∃ t data, s.fire d.cls = .next t ∧ data.length = (d.count.toNat + 7) / 8 ∧
      (∀ j < data.length, ∀ b < 8, (data.getD j 0).getLsbD b =
        (decide (8 * j + b < d.count.toNat) &&
          s.valueAt d (d.start + (8 * j + b)) == .bool true)) ∧
      Answered d s (d.fc :: BitVec.ofNat 8 data.length :: data) t

/-- R129, R120: an integer read answers a 16-bit word a register, most significant byte first. -/
def Obligations.IntReadAnswer : Prop :=
  ∀ (d : PendingRequest) (s : State), Due d s → d.cls = .int → d.fc = 0x03 ∨ d.fc = 0x04 →
    1 ≤ d.count.toNat → d.count.toNat ≤ 125 →
    (requestAddrs s.cfg d).findSome? (s.readFailure d) = none →
    ∃ t words, s.fire d.cls = .next t ∧
      List.Forall₂ (fun a w => Reads16 s.cfg.roundTie (s.valueAt d a) w) (requestAddrs s.cfg d) words ∧
      Answered d s (d.fc :: BitVec.ofNat 8 (2 * d.count.toNat) ::
        words.flatMap fun w => [hi8 w, lo8 w]) t

/-- R133, R135, R121: a long-integer read, and a read by the long-via-float offset, answer a 32-bit
integer a value, in the request's byte order. -/
def Obligations.LongReadAnswer : Prop :=
  ∀ (d : PendingRequest) (s : State), Due d s → d.cls = .long ∨ (d.cls = .float ∧ d.lvf = true) →
    d.fc = 0x03 ∨ d.fc = 0x04 → countOk d →
    (requestAddrs s.cfg d).findSome? (s.readFailure d) = none →
    ∃ t words, s.fire d.cls = .next t ∧
      List.Forall₂ (fun a u => Reads32 s.cfg.roundTie (s.valueAt d a) u) (requestAddrs s.cfg d) words ∧
      Answered d s (d.fc :: BitVec.ofNat 8 (4 * d.countEff) ::
        words.flatMap fun u => permute d.order (u.extractLsb' 24 8) (u.extractLsb' 16 8)
          (u.extractLsb' 8 8) (u.extractLsb' 0 8)) t

/-- R135, R122: a float read, the extended table's included, answers an f32 pattern a value, in the
request's byte order. -/
def Obligations.FloatReadAnswer : Prop :=
  ∀ (d : PendingRequest) (s : State), Due d s → d.cls = .float → d.lvf = false →
    d.badOffset = false → d.fc = 0x03 ∨ d.fc = 0x04 → countOk d →
    (requestAddrs s.cfg d).findSome? (s.readFailure d) = none →
    ∃ t words, s.fire d.cls = .next t ∧
      List.Forall₂ (fun a u => ReadsF (s.valueAt d a) u) (requestAddrs s.cfg d) words ∧
      Answered d s (d.fc :: BitVec.ofNat 8 (4 * d.countEff) ::
        words.flatMap fun u => permute d.order (u.extractLsb' 24 8) (u.extractLsb' 16 8)
          (u.extractLsb' 8 8) (u.extractLsb' 0 8)) t

/-- R118, R112, R114: the first register that cannot be read, in increasing order, decides the
exception: 2 absent, 3 denied, 4 of a kind not taken. -/
def Obligations.ReadExceptions : Prop :=
  ∀ (d : PendingRequest) (s : State) (code : ExcCode), Due d s →
    d.fc ∈ ([0x01, 0x02, 0x03, 0x04] : List Byte) → countOk d → d.badOffset = false →
    (requestAddrs s.cfg d).findSome? (s.readFailure d) = some code →
    ∃ t, s.fire d.cls = .next t ∧ Excepted d s code t

/-- R117, R132, R135, R136, R140: what is refused before any register is looked up: a quantity out of
range and an address to force that is not in 1 to 247 (BAD_VALUE), a sub-offset the float path does
not have (BAD_ADDRESS), a single write outside the integer class (BAD_FXN). -/
def Obligations.RequestsRefusedOutright : Prop :=
  ∀ (d : PendingRequest) (s : State), Due d s →
    (d.fc = 0x06 → d.cls ≠ .int → ∃ t, s.fire d.cls = .next t ∧ Excepted d s .badFxn t) ∧
    (d.fc ≠ 0x06 → ¬ countOk d → ∃ t, s.fire d.cls = .next t ∧ Excepted d s .badValue t) ∧
    (d.fc ≠ 0x06 → countOk d → d.badOffset = true →
      ∃ t, s.fire d.cls = .next t ∧ Excepted d s .badAddress t) ∧
    (d.fc = 0x44 → (d.payload.getD 0 0).toNat < 1 ∨ 247 < (d.payload.getD 0 0).toNat →
      ∃ t, s.fire d.cls = .next t ∧ Excepted d s .badValue t)

/-- R138, R127: a coil write commits the coil and echoes the request's fields. -/
def Obligations.CoilWriteAnswer : Prop :=
  ∀ (d : PendingRequest) (s : State), Due d s → d.fc = 0x05 →
    (requestAddrs s.cfg d).findSome? (s.writeFailure d) = none →
    ∃ t bnd, s.fire d.cls = .next t ∧ lookupFor s.cfg .coil false d.start = some bnd ∧
      Answered d (s.commit bnd (.bool (payload16 d 0 == 0xFF00)))
        [0x05, hi8 d.wireStart, lo8 d.wireStart, d.payload.getD 0 0, d.payload.getD 1 0] t

/-- R130, R123: an integer write commits the register and echoes the request's fields. -/
def Obligations.IntWriteAnswer : Prop :=
  ∀ (d : PendingRequest) (s : State), Due d s → d.fc = 0x06 → d.cls = .int →
    (requestAddrs s.cfg d).findSome? (s.writeFailure d) = none →
    ∃ t bnd v, s.fire d.cls = .next t ∧ lookupFor s.cfg .int false d.start = some bnd ∧
      Writes16 (payload16 d 0) bnd.kind v ∧
      Answered d (s.commit bnd v)
        [0x06, hi8 d.wireStart, lo8 d.wireStart, d.payload.getD 0 0, d.payload.getD 1 0] t

/-- R131, R134, R136, R123 to R125, R141: a multiple write commits every value, in increasing order,
and echoes the start and the count. -/
def Obligations.MultiWriteAnswer : Prop :=
  ∀ (d : PendingRequest) (s : State), Due d s → d.fc = 0x10 → countOk d → d.badOffset = false →
    (requestAddrs s.cfg d).findSome? (s.writeFailure d) = none →
    ∃ t vs, s.fire d.cls = .next t ∧ vs.length = (requestAddrs s.cfg d).length ∧
      WritesAre s d (fun j => if d.cls = .int then Writes16 (payload16 d j)
        else if d.cls = .long ∨ d.lvf = true then Writes32 (payload32 d j)
        else WritesF s.cfg.roundTie (payload32 d j)) vs ∧
      Answered d (s.commitAll vs)
        [0x10, hi8 d.wireStart, lo8 d.wireStart, hi8 d.count, lo8 d.count] t

/-- R141, R118: the first register that cannot be written decides the exception. Under PARTIAL the
registers before it keep what was written to them; under ATOMIC nothing is written. -/
def Obligations.WriteExceptions : Prop :=
  ∀ (d : PendingRequest) (s : State) (code : ExcCode) (k : Nat), Due d s →
    d.fc = 0x05 ∨ (d.fc = 0x06 ∧ d.cls = .int) ∨ d.fc = 0x10 → countOk d → d.badOffset = false →
    (∀ a ∈ (requestAddrs s.cfg d).take k, s.writeFailure d a = none) →
    (requestAddrs s.cfg d)[k]?.bind (s.writeFailure d) = some code →
    ∃ t vs, s.fire d.cls = .next t ∧
      (s.cfg.writePolicy = .partialWrites → vs.length = k) ∧
      (s.cfg.writePolicy = .atomicWrites → vs = []) ∧
      WritesAre s d (fun j => if d.cls = .coil then fun _ v => v = .bool (payload16 d 0 == 0xFF00)
        else if d.cls = .int then Writes16 (payload16 d j)
        else if d.cls = .long ∨ d.lvf = true then Writes32 (payload32 d j)
        else WritesF s.cfg.roundTie (payload32 d j)) vs ∧
      Excepted d (s.commitAll vs) code t

/-- R128: what committing one register does. -/
def Obligations.CommitWritesThrough : Prop :=
  ∀ (s : State) (bnd : Binding) (v : Value), storeWf s.store = true → valueKind v = bnd.kind →
    s.commit bnd v = { s with
      store := (s.commit bnd v).store
      out := if bnd.kind = .annotated then s.out ++ [.sideEffect bnd.ref] else s.out
      persistReq := if bnd.perm ≠ .volatile then true else s.persistReq } ∧
    storeGet (s.commit bnd v).store bnd.ref = v ∧
    (∀ ref, ref ≠ bnd.ref → storeGet (s.commit bnd v).store ref = storeGet s.store ref) ∧
    storeWf (s.commit bnd v).store = true

/-- R139: a diagnostic sample answers 34 words, byte count 68, whatever they are. -/
def Obligations.DiagSampleAnswer : Prop :=
  ∀ (d : PendingRequest) (s : State), Due d s → d.fc = 0x42 →
    ∃ (t : State) (words : List U16), s.fire d.cls = .next t ∧ words.length = 34 ∧
      (∀ j < 34, words.getD j 0 = Config.diagSnapshot s.store (payload16 d 0) j) ∧
      Answered d s (0x42 :: 68 :: words.flatMap fun w => [hi8 w, lo8 w]) t

/-- R140, R60: forcing an address in 1 to 247 changes the slave address, and the answer already
carries it. -/
def Obligations.ForceAddrAnswer : Prop :=
  ∀ (d : PendingRequest) (s : State), Due d s → d.fc = 0x44 →
    1 ≤ (d.payload.getD 0 0).toNat → (d.payload.getD 0 0).toNat ≤ 247 →
    ∃ t, s.fire d.cls = .next t ∧
      Answered d { s with slaveAddr := d.payload.getD 0 0 }
        (0x44 :: bytes32 s.cfg.pipeSerial ++ [d.payload.getD 0 0]) t

/-- R111, R177: a timer that expires while a transmission is in progress, or while the head of the
queue is of another class, is re-armed and nothing else happens; with an empty queue it goes off. -/
def Obligations.BusyRetry : Prop :=
  ∀ (s : State) (k : RegClass), Inv s → perClassGet s.ctimer k = .expired →
    (s.q.first = none → s.fire k = .next { s with ctimer := perClassSet s.ctimer k .off }) ∧
    ∀ d, s.q.first = some d → d.cls ≠ k ∨ s.txInProgress = true →
      s.fire k =
        .next { s with ctimer := perClassSet s.ctimer k (.running (perClassGet s.cfg.tRetry k)) }

/-! ## The other handlers -/

/-- 40_bytering.md R75, R69: a received byte goes behind the others, or overwrites one in a full ring;
RECV is posted. With RX_DURING_TX = DROP a byte that arrives during transmission is ignored. -/
def Obligations.ReceivedByteIsBuffered : Prop :=
  ∀ (s : State) (x : Byte), Inv s →
    ∃ t, step (s.offer (.rxByte x)) = .next t ∧
      if s.cfg.rxDuringTx = .drop ∧ s.lineMode = .transmit then t = s
      else
        (∀ j, cellRead t.rx.buf j = if j = s.rx.tail then x else cellRead s.rx.buf j) ∧
        if s.rx.count < s.cfg.rxCap then
          t = { s with
            rx := ⟨t.rx.buf, s.rx.head, (s.rx.tail + 1) % s.cfg.rxCap, s.rx.count + 1⟩
            rxPosted := true } ∧
          (s.cfg.overwriteAdvancesTail = false → t.rxBytes = s.rxBytes ++ [x])
        else
          t = { s with
            rx := ⟨t.rx.buf, s.rx.head,
              if s.cfg.overwriteAdvancesTail then (s.rx.tail + 1) % s.cfg.rxCap else s.rx.tail,
              s.rx.count⟩
            rxPosted := true
            rxOverrun := true }

/-- 48_silence_transmit.md R149: TICK steps every timer at once and changes nothing else; an expired
timer enables its handler event. -/
def Obligations.TickStepsEveryTimer : Prop :=
  ∀ s : State, configOk s.cfg = true →
    ∃ t, step (s.offer .tick) = .next t ∧ t = { s with wdog := t.wdog, ctimer := t.ctimer } ∧
      (∀ x y, ((x, y) = (s.wdog, t.wdog) ∨
          ∃ k, (x, y) = (perClassGet s.ctimer k, perClassGet t.ctimer k)) →
        (x = .running 1 → y = .expired) ∧ (∀ n, 2 ≤ n → x = .running n → y = .running (n - 1)) ∧
        (x = .off → y = .off) ∧ (x = .expired → y = .expired)) ∧
      (enabled .wdogFire t = true ↔ t.wdog = .expired) ∧
      ∀ k, enabled (.classFire k) t = true ↔ perClassGet t.ctimer k = .expired

/-- R152: TX_READY hands over the oldest byte of TX, or ends the transmission when TX is empty; masked
it does nothing. -/
def Obligations.TransmitReadyDrainsOneByte : Prop :=
  ∀ s : State, Inv s →
    (s.txie = false → step (s.offer .txReady) = .next s) ∧
    (s.txie = true → s.txBytes = [] → step (s.offer .txReady) =
      .next { s with txInProgress := false, txie := false, lineMode := .receive }) ∧
    ∀ x rest, s.txie = true → s.txBytes = x :: rest →
      ∃ t, step (s.offer .txReady) = .next t ∧ t.txBytes = rest ∧
        t = { s with
          tx := ⟨s.tx.buf, (s.tx.head + 1) % s.cfg.txCap, s.tx.tail, s.tx.count - 1⟩
          out := s.out ++ [.txByte x] }

/-- 47_watchdog.md R146: the expired watchdog discards the recorded number of bytes, as many as there
are, and changes nothing else. -/
def Obligations.WatchdogDiscardsRecordedCount : Prop :=
  ∀ s : State, Inv s → s.wdog = .expired →
    ∃ t, step (s.offer .wdogFire) = .next t ∧
      t.rxBytes = s.rxBytes.drop (min s.wdogN s.rx.count) ∧
      t = { s with
        wdog := .off
        rx := ⟨s.rx.buf, (s.rx.head + min s.wdogN s.rx.count) % s.cfg.rxCap, s.rx.tail,
          s.rx.count - min s.wdogN s.rx.count⟩ }

/-- 60_exceptions.md R167: the host sets the unlock flags and clears the persistence request; a write
of any other register has no effect; a read gives the register's value. How v is read is log 18. -/
def Obligations.HostWritesThreeRegisters : Prop :=
  ∀ (s : State) (r : HostReg) (v : U16), configOk s.cfg = true →
    step (s.offer (.hostWrite r v)) = .next
      (if r = .persistReq ∧ v = 0 then { s with persistReq := false }
      else if r = .unlocked then { s with unlocked := v.getLsbD 0 }
      else if r = .factoryUnlocked then { s with factoryUnlocked := v.getLsbD 0 }
      else s) ∧
    (s.hostRead .slaveAddr).toNat = s.slaveAddr.toNat ∧ s.hostRead .faultCount = s.faultCount ∧
    s.hostRead .crcFaultCount = s.crcFaultCount ∧
    ∀ r b, (r, b) ∈ [(HostReg.rxOverrun, s.rxOverrun), (.txOverrun, s.txOverrun),
        (.txInProgress, s.txInProgress), (.txie, s.txie),
        (.lineMode, decide (s.lineMode = .transmit)), (.persistReq, s.persistReq),
        (.unlocked, s.unlocked), (.factoryUnlocked, s.factoryUnlocked)] →
      s.hostRead r = if b then 1 else 0

/-- R168: the host replaces one store value by one of the bound kind; a value of another kind has no
move. Which kinds a reference is bound to is log 9. -/
def Obligations.HostStoresOneValue : Prop :=
  ∀ (s : State) (ref : StorageRef) (v : Value), Inv s →
    ((∀ k ∈ boundKinds s.cfg ref, k = valueKind v) →
      ∃ t, step (s.offer (.hostStore ref v)) = .next t ∧ t = { s with store := t.store } ∧
        storeGet t.store ref = v ∧
        ∀ ref', ref' ≠ ref → storeGet t.store ref' = storeGet s.store ref') ∧
    ((∃ k ∈ boundKinds s.cfg ref, k ≠ valueKind v) →
      step (s.offer (.hostStore ref v)) = .fault .storeOfWrongKind)

/-! ## The whole machine -/

/-- 70_reset_and_hazards.md R170: the reset values, for any parameters and store. -/
def Obligations.ResetValues : Prop :=
  ∀ (c : Config) (store : List (Nat × Value)) (s : State), s = State.resetOf c store →
    s.rx.head = 0 ∧ s.rx.tail = 0 ∧ s.rx.count = 0 ∧ s.tx.head = 0 ∧ s.tx.tail = 0 ∧
    s.tx.count = 0 ∧ s.rxOverrun = false ∧ s.txOverrun = false ∧ s.rxPosted = false ∧
    s.q.slot.length = c.qCap ∧ (∀ x ∈ s.q.slot, x = none) ∧ s.q.head = 0 ∧ s.q.tail = 0 ∧
    s.q.count = 0 ∧ s.wdog = .off ∧ s.wdogN = 0 ∧ (∀ k, perClassGet s.ctimer k = .off) ∧
    s.txInProgress = false ∧ s.txie = false ∧ s.lineMode = .receive ∧
    s.slaveAddr = c.slaveAddrInit ∧ s.faultCount = 0 ∧ s.crcFaultCount = 0 ∧
    s.persistReq = false ∧ s.unlocked = false ∧ s.factoryUnlocked = false ∧ s.out = [] ∧
    s.store = store ∧ ¬ awaitingMoreBytes s ∧ quiescent s

/-- R171: the invariant holds after reset, with any parameters within their bounds; `State.reset` has
those of log 2 and the store of log 3. -/
def Obligations.InvAtReset : Prop :=
  Inv State.reset ∧ ∀ (c : Config) (store : List (Nat × Value)), configOk c = true →
    storeWf store = true → Inv (State.resetOf c store)

/-- R171, R19, R22, R25, R34, R140: every step, of every event, keeps the invariant. -/
def Obligations.StepKeepsInv : Prop :=
  ∀ s t : State, Inv s → step s = .next t → Inv t

/-- R90, R71, R112, R143, R161: nothing received and nothing stored stops the block: a step stops only
when the environment offers a move it does not have, which the model makes a fault (log 8, log 9). -/
def Obligations.OnlyTheEnvironmentStopsTheBlock : Prop :=
  ∀ s : State, Inv s →
    (∃ t, step s = .next t) ∨
      ∃ e rest, s.inputs = e :: rest ∧
        ((enabled e s = false ∧ step s = .fault .eventNotEnabled) ∨
          ∃ ref v, e = .hostStore ref v ∧ (∃ k ∈ boundKinds s.cfg ref, k ≠ valueKind v) ∧
            step s = .fault .storeOfWrongKind)

/-- R116, a consequence the spec marks as derived: no response overruns TX. -/
def Obligations.ResponsesNeverOverrunTx : Prop :=
  ∀ s t : State, Inv s → step s = .next t → t.txOverrun = s.txOverrun

/-- R153, a consequence the spec marks as derived, and 20_memory.md R53: while a response is in
transmission, no step puts another byte into TX: TX is as it was, or its oldest byte has been handed
over. -/
def Obligations.OneResponseAtATime : Prop :=
  ∀ s t : State, Inv s → s.txInProgress = true → step s = .next t →
    (t.txBytes = s.txBytes ∧ t.out = s.out) ∨
      ∃ x, s.txBytes = x :: t.txBytes ∧ t.out = s.out ++ [.txByte x] ∧ t.txInProgress = true

/-- 43_request_queue.md R104, a consequence the spec marks as derived: requests join at the back and
leave from the front. -/
def Obligations.QueueIsFifo : Prop :=
  ∀ s t : State, Inv s → step s = .next t →
    t.q.requests t.cfg.qCap = s.q.requests s.cfg.qCap ∨
      (∃ d, t.q.requests t.cfg.qCap = s.q.requests s.cfg.qCap ++ [d] ∧ RequestOk s.cfg d) ∨
      ∃ d, s.q.requests s.cfg.qCap = d :: t.q.requests t.cfg.qCap

/-- R37, R162, R32, R20: the parameters never change; the unlock flags change, and the persistence
request is cleared, only by the host; the overrun bits are never cleared; what was put out stays. -/
def Obligations.WhoMayChangeWhat : Prop :=
  ∀ s t : State, step s = .next t →
    t.cfg = s.cfg ∧
    (t.unlocked ≠ s.unlocked → ∃ v rest, s.inputs = .hostWrite .unlocked v :: rest) ∧
    (t.factoryUnlocked ≠ s.factoryUnlocked →
      ∃ v rest, s.inputs = .hostWrite .factoryUnlocked v :: rest) ∧
    (s.persistReq = true → t.persistReq = false →
      ∃ rest, s.inputs = .hostWrite .persistReq 0 :: rest) ∧
    (s.rxOverrun = true → t.rxOverrun = true) ∧ (s.txOverrun = true → t.txOverrun = true) ∧
    ∃ es, t.out = s.out ++ es

/-- R30: the fault counters change only in a step whose event is RECV: both by one, or `fault_count`
alone by one. -/
def Obligations.FaultCountersMoveOnlyInRecv : Prop :=
  ∀ s t : State, step s = .next t →
    (t.faultCount = s.faultCount ∧ t.crcFaultCount = s.crcFaultCount) ∨
      (nextEvent s = some .recv ∧ s.rxPosted = true ∧ t.faultCount = s.faultCount + 1 ∧
        (t.crcFaultCount = s.crcFaultCount ∨ t.crcFaultCount = s.crcFaultCount + 1))

/-- R163, R140, R128, R168: the slave address changes only in the CLASS_FIRE that answers a due
FORCE_ADDR; a store value only in the CLASS_FIRE that answers a due write, or by the host. -/
def Obligations.WhoMovesAddressAndStore : Prop :=
  ∀ s t : State, Inv s → step s = .next t →
    (t.slaveAddr ≠ s.slaveAddr → ∃ d, Due d s ∧ d.fc = 0x44 ∧
      nextEvent s = some (.classFire d.cls) ∧ t.slaveAddr = d.payload.getD 0 0 ∧
      t.q = s.q.discardHead s.cfg.qCap) ∧
    (t.store ≠ s.store → (∃ ref v rest, s.inputs = .hostStore ref v :: rest) ∨
      ∃ d, Due d s ∧ d.fc ∈ ([0x05, 0x06, 0x10] : List Byte) ∧
        nextEvent s = some (.classFire d.cls) ∧ t.q = s.q.discardHead s.cfg.qCap)
end

