-- ==== Sys2Proof/Laws/Memory.lean ====
section
/-! SUPPORT. The ring arrays and the store: a read after a write, and every write keeps the canonical
form. -/

namespace Sys2Proof.Machine

/-! ## Association lists -/

theorem assocSortedFrom_mono {β : Type} {m : List (Nat × β)} {lo lo' : Nat} (hle : lo' ≤ lo)
    (h : assocSortedFrom lo m = true) : assocSortedFrom lo' m = true := by
  cases m with
  | nil => rfl
  | cons c m =>
    simp only [assocSortedFrom, Bool.and_eq_true, decide_eq_true_eq] at h ⊢
    exact ⟨by omega, h.2⟩

/-- A key below every listed key is not listed. -/
theorem assocFind_below {β : Type} {m : List (Nat × β)} {lo a : Nat}
    (h : assocSortedFrom lo m = true) (ha : a < lo) : assocFind m a = none := by
  induction m generalizing lo with
  | nil => rfl
  | cons c m ih =>
    obtain ⟨k, v⟩ := c
    simp only [assocSortedFrom, Bool.and_eq_true, decide_eq_true_eq] at h
    rw [assocFind, if_neg (by omega)]
    exact ih h.2 (by omega)

/-- Setting a key: that key reads the new value, every other key what it read. -/
theorem assocFind_set {β : Type} (m : List (Nat × β)) (a b : Nat) (x : β) :
    assocFind (assocSet m a x) b = if b = a then some x else assocFind m b := by
  induction m with
  | nil => simp [assocSet, assocFind, eq_comm]
  | cons c m ih =>
    obtain ⟨k, v⟩ := c
    by_cases h1 : a < k
    · simp [assocSet, h1, assocFind, eq_comm]
    · by_cases h2 : a = k
      · subst h2
        by_cases h3 : a = b
        · simp [assocSet, assocFind, h3]
        · simp [assocSet, assocFind, h3, Ne.symm h3]
      · by_cases h3 : k = b
        · subst h3
          simp [assocSet, h1, h2, assocFind, Ne.symm h2]
        · simp [assocSet, h1, h2, assocFind, h3, ih]

/-- Erasing a key: that key is not listed, every other key reads what it read. -/
theorem assocFind_erase {β : Type} {m : List (Nat × β)} {lo : Nat}
    (h : assocSortedFrom lo m = true) (a b : Nat) :
    assocFind (assocErase m a) b = if b = a then none else assocFind m b := by
  induction m generalizing lo with
  | nil => simp [assocErase, assocFind]
  | cons c m ih =>
    obtain ⟨k, v⟩ := c
    simp only [assocSortedFrom, Bool.and_eq_true, decide_eq_true_eq] at h
    by_cases h1 : k = a
    · subst h1
      by_cases h2 : b = k
      · subst h2
        simp [assocErase, assocFind_below h.2 (Nat.lt_succ_self b)]
      · simp [assocErase, h2, assocFind, Ne.symm h2]
    · by_cases h2 : k = b
      · subst h2
        simp [assocErase, h1, assocFind]
      · simp [assocErase, h1, assocFind, h2, ih h.2]

theorem assocSortedFrom_set {β : Type} {m : List (Nat × β)} {lo a : Nat} (x : β)
    (h : assocSortedFrom lo m = true) : assocSortedFrom (min lo a) (assocSet m a x) = true := by
  induction m generalizing lo with
  | nil => simp [assocSet, assocSortedFrom]
  | cons c m ih =>
    obtain ⟨k, v⟩ := c
    have h' := h
    simp only [assocSortedFrom, Bool.and_eq_true, decide_eq_true_eq] at h
    by_cases h1 : a < k
    · simp only [assocSet, h1, if_true, assocSortedFrom, Bool.and_eq_true, decide_eq_true_eq]
      exact ⟨by omega, by omega, h.2⟩
    · by_cases h2 : a = k
      · subst h2
        simp only [assocSet, h1, if_true, if_false, assocSortedFrom, Bool.and_eq_true,
          decide_eq_true_eq]
        exact ⟨by omega, h.2⟩
      · simp only [assocSet, h1, h2, if_false, assocSortedFrom, Bool.and_eq_true, decide_eq_true_eq]
        exact ⟨by omega, by simpa [show min (k + 1) a = k + 1 by omega] using ih h.2⟩

theorem assocSortedFrom_erase {β : Type} {m : List (Nat × β)} {lo : Nat} (a : Nat)
    (h : assocSortedFrom lo m = true) : assocSortedFrom lo (assocErase m a) = true := by
  induction m generalizing lo with
  | nil => rfl
  | cons c m ih =>
    obtain ⟨k, v⟩ := c
    simp only [assocSortedFrom, Bool.and_eq_true, decide_eq_true_eq] at h
    by_cases h1 : k = a
    · simp only [assocErase, h1, if_true]
      exact assocSortedFrom_mono (by omega) h.2
    · simp only [assocErase, h1, if_false, assocSortedFrom, Bool.and_eq_true, decide_eq_true_eq]
      exact ⟨h.1, ih h.2⟩

theorem mem_assocSet {β : Type} {m : List (Nat × β)} {a : Nat} {x : β} {c : Nat × β}
    (h : c ∈ assocSet m a x) : c = (a, x) ∨ c ∈ m := by
  induction m with
  | nil => simpa [assocSet] using h
  | cons d m ih =>
    obtain ⟨k, v⟩ := d
    by_cases h1 : a < k
    · simpa [assocSet, h1] using h
    · by_cases h2 : a = k
      · subst h2
        simp only [assocSet, lt_irrefl, if_true, if_false, List.mem_cons] at h ⊢
        exact h.imp id Or.inr
      · simp only [assocSet, h1, h2, if_false, List.mem_cons] at h ⊢
        exact h.elim (fun h => .inr (.inl h)) fun h => (ih h).imp id Or.inr

theorem mem_assocErase {β : Type} {m : List (Nat × β)} {a : Nat} {c : Nat × β}
    (h : c ∈ assocErase m a) : c ∈ m := by
  induction m with
  | nil => simp [assocErase] at h
  | cons d m ih =>
    obtain ⟨k, v⟩ := d
    by_cases h1 : k = a
    · simp only [assocErase, h1, if_true] at h
      exact List.mem_cons_of_mem _ h
    · simp only [assocErase, h1, if_false, List.mem_cons] at h ⊢
      exact h.imp id ih

/-! ## Ring arrays -/

theorem cellsWf_sorted {cap : Nat} {buf : List Host.Cell} (h : cellsWf cap buf = true) :
    assocSortedFrom 0 buf = true := by
  rw [cellsWf, Bool.and_eq_true] at h
  exact h.1

theorem cellsWf_nil (cap : Nat) : cellsWf cap [] = true := rfl

/-- A write changes the written slot and no other. -/
theorem cellRead_write {cap : Nat} {buf : List Host.Cell} (h : cellsWf cap buf = true) (i j : Nat)
    (x : Byte) : cellRead (cellWrite buf i x) j = if j = i then x else cellRead buf j := by
  by_cases hx : x = 0
  · subst hx
    by_cases hj : j = i <;>
      simp [cellRead, cellWrite, assocFind_erase (cellsWf_sorted h), hj]
  · rw [cellRead, cellWrite, if_neg hx, assocFind_set]
    by_cases hj : j = i <;> simp [hj, cellRead]

/-- A write inside the array keeps the canonical form. -/
theorem cellsWf_write {cap : Nat} {buf : List Host.Cell} (h : cellsWf cap buf = true) {i : Nat}
    (hi : i < cap) (x : Byte) : cellsWf cap (cellWrite buf i x) = true := by
  simp only [cellsWf, Bool.and_eq_true, List.all_eq_true, decide_eq_true_eq, bne_iff_ne, ne_eq]
    at h ⊢
  by_cases hx : x = 0
  · subst hx
    simp only [cellWrite, if_true]
    exact ⟨assocSortedFrom_erase i h.1, fun c hc => h.2 c (mem_assocErase hc)⟩
  · simp only [cellWrite, hx, if_false]
    refine ⟨by simpa using assocSortedFrom_set x h.1 (a := i), fun c hc => ?_⟩
    rcases mem_assocSet hc with rfl | hc
    · exact ⟨hi, hx⟩
    · exact h.2 c hc

/-! ## Store -/

theorem storageRef_key_inj {r r' : StorageRef} : r.key = r'.key ↔ r = r' := by
  constructor
  · intro h
    obtain ⟨h1, h2⟩ := Nat.pair_eq_pair.1 h
    cases r
    cases r'
    simp_all
  · rintro rfl
    rfl

theorem storeWf_sorted {st : List (Nat × Value)} (h : storeWf st = true) :
    assocSortedFrom 0 st = true := by
  rw [storeWf, Bool.and_eq_true] at h
  exact h.1

/-- A write is read back, and no other reference changes. -/
theorem storeGet_put {st : List (Nat × Value)} (h : storeWf st = true) (r r' : StorageRef)
    (v : Value) : storeGet (storePut st r v) r' = if r' = r then v else storeGet st r' := by
  by_cases hv : v = storeDefault
  · simp only [storeGet, storePut]
    rw [if_pos hv, assocFind_erase (storeWf_sorted h)]
    by_cases hr : r' = r <;> simp [hr, hv, storageRef_key_inj]
  · by_cases hr : r' = r <;>
      simp [storeGet, storePut, hv, hr, assocFind_set, storageRef_key_inj]

/-- A write keeps the canonical form. -/
theorem storeWf_put {st : List (Nat × Value)} (h : storeWf st = true) (r : StorageRef) (v : Value) :
    storeWf (storePut st r v) = true := by
  simp only [storeWf, Bool.and_eq_true, List.all_eq_true, decide_eq_true_eq, ne_eq] at h ⊢
  by_cases hv : v = storeDefault
  · simp only [storePut]
    rw [if_pos hv]
    exact ⟨assocSortedFrom_erase _ h.1, fun c hc => h.2 c (mem_assocErase hc)⟩
  · simp only [storePut]
    rw [if_neg hv]
    refine ⟨by simpa using assocSortedFrom_set v h.1 (a := r.key), fun c hc => ?_⟩
    rcases mem_assocSet hc with rfl | hc
    · exact hv
    · exact h.2 c hc

theorem cellsWf_reset (cap : Nat) : cellsWf cap State.reset.rx.buf = true := rfl

theorem storeWf_reset : storeWf State.reset.store = true := by decide +kernel

end Sys2Proof.Machine
end

