-- ==== Sys2Proof/Laws/Ring.lean ====
section
/-! SUPPORT. What each ring operation does to the buffered bytes, and that each keeps the ring
invariant (40_bytering.md R69 to R74). -/

namespace Sys2Proof.Machine

variable {c : Config} {cap : Nat} {r : Ring}

/-- Two offsets below the capacity that reach the same slot are equal. -/
theorem offset_eq_of_slot_eq {h i j : Nat} (hi : i < cap) (hj : j < cap)
    (he : (h + i) % cap = (h + j) % cap) : i = j := by
  have h1 : i ≡ j [MOD cap] := Nat.ModEq.add_left_cancel' h he
  rw [Nat.ModEq, Nat.mod_eq_of_lt hi, Nat.mod_eq_of_lt hj] at h1
  exact h1

@[simp] theorem Ring.length_memRead (i n : Nat) : (r.memRead cap i n).length = n := by
  simp [Ring.memRead]

@[simp] theorem Ring.length_bytes : (r.bytes cap).length = r.count := by simp [Ring.bytes]

theorem Ring.memRead_take (i n m : Nat) :
    (r.memRead cap i n).take m = r.memRead cap i (min m n) := by
  simp [Ring.memRead, ← List.map_take, List.take_range]

theorem Ring.memRead_succ (i n : Nat) :
    r.memRead cap i (n + 1) = cellRead r.buf (i % cap) :: r.memRead cap (i + 1) n := by
  simp only [Ring.memRead, List.range_succ_eq_map, List.map_cons, List.map_map, Nat.add_zero]
  congr 1
  exact List.map_congr_left fun j _ => by simp [Nat.add_comm, Nat.add_left_comm]

theorem Ring.memRead_mod (i n : Nat) : r.memRead cap (i % cap) n = r.memRead cap i n := by
  simp [Ring.memRead]

theorem Ring.memRead_append (i m n : Nat) :
    r.memRead cap i (m + n) = r.memRead cap i m ++ r.memRead cap (i + m) n := by
  simp only [Ring.memRead, List.range_add, List.map_append, List.map_map]
  congr 1
  exact List.map_congr_left fun j _ => by simp [Nat.add_assoc]

/-- Peeking all buffered bytes gives them. -/
theorem Ring.peekAll_count : r.peekAll cap r.count = some (r.bytes cap) := by
  simp [Ring.peekAll, Ring.bytes]

/-- A peek is the byte at its place among the buffered bytes. -/
theorem Ring.peek_eq_bytes (i : Nat) : r.peek cap i = (r.bytes cap)[i]? := by
  by_cases h : i < r.count <;> simp [Ring.peek, Ring.bytes, Ring.memRead, h]

/-- A read that misses the written slot. -/
theorem Ring.memRead_write {buf : List Host.Cell} (hb : cellsWf cap r.buf = true) {x : Byte}
    {t i n : Nat} (hbuf : buf = cellWrite r.buf t x) (hmiss : ∀ j < n, (i + j) % cap ≠ t) {r' : Ring}
    (hr : r'.buf = buf) : r'.memRead cap i n = r.memRead cap i n := by
  subst hbuf
  refine List.map_congr_left fun j hj => ?_
  rw [hr, cellRead_write hb, if_neg (hmiss j (List.mem_range.1 hj))]

/-! ## put -/

@[simp] theorem Ring.put_head (adv : Bool) (x : Byte) : (r.put cap adv x).1.head = r.head := by
  by_cases h : r.count < cap <;> simp [Ring.put, h]

theorem Ring.put_buf (adv : Bool) (x : Byte) :
    (r.put cap adv x).1.buf = cellWrite r.buf r.tail x := by
  by_cases h : r.count < cap <;> simp [Ring.put, h]

/-- A put into a ring that is not full: one byte more, nothing overwritten (R69). -/
theorem Ring.put_of_lt (adv : Bool) (x : Byte) (h : r.count < cap) :
    (r.put cap adv x) =
      (⟨cellWrite r.buf r.tail x, r.head, (r.tail + 1) % cap, r.count + 1⟩, false) := by
  simp [Ring.put, h]

/-- A put into a full ring overwrites (R69). -/
theorem Ring.put_of_full (adv : Bool) (x : Byte) (h : ¬ r.count < cap) :
    (r.put cap adv x) =
      (⟨cellWrite r.buf r.tail x, r.head, if adv then (r.tail + 1) % cap else r.tail, r.count⟩,
        true) := by
  simp [Ring.put, h]

/-- A put into a ring that is not full appends the byte. -/
theorem Ring.bytes_put (hb : cellsWf cap r.buf = true) (ht : r.tail = (r.head + r.count) % cap)
    (h : r.count < cap) (adv : Bool) (x : Byte) :
    (r.put cap adv x).1.bytes cap = r.bytes cap ++ [x] := by
  rw [Ring.put_of_lt adv x h, Ring.bytes, Ring.memRead_append]
  congr 1
  · refine Ring.memRead_write hb rfl (fun j hj he => ?_) rfl
    have := offset_eq_of_slot_eq (by omega) h (he.trans ht)
    omega
  · simp [Ring.memRead, ← ht, cellRead_write hb]

/-- A put into a full ring whose tail does not advance replaces the oldest byte (R69). -/
theorem Ring.bytes_put_full (hb : cellsWf cap r.buf = true) (hh : r.head < cap)
    (ht : r.tail = (r.head + r.count) % cap) (h : r.count = cap) (x : Byte) :
    (r.put cap false x).1.bytes cap = x :: (r.bytes cap).tail := by
  have htl : r.tail = r.head := by rw [ht, h, Nat.add_mod_right, Nat.mod_eq_of_lt hh]
  obtain ⟨n, hn⟩ : ∃ n, r.count = n + 1 := ⟨r.count - 1, by omega⟩
  rw [Ring.put_of_full false x (by omega)]
  simp only [Ring.bytes, hn, Ring.memRead_succ, List.tail_cons]
  congr 1
  · simp [cellRead_write hb, htl, Nat.mod_eq_of_lt hh]
  · refine Ring.memRead_write hb rfl (fun j hj he => ?_) rfl
    have hslot : (r.head + (j + 1)) % cap = (r.head + 0) % cap := by
      rw [Nat.add_zero r.head, Nat.mod_eq_of_lt hh, ← htl, ← he]
      congr 1
      omega
    have := offset_eq_of_slot_eq (by omega) (by omega) hslot
    omega

theorem RingOk.put (h : RingOk c cap r) (x : Byte) :
    RingOk c cap (r.put cap c.overwriteAdvancesTail x).1 := by
  have hcap : 0 < cap := Nat.lt_of_le_of_lt (Nat.zero_le _) h.head_lt
  by_cases hlt : r.count < cap
  · rw [Ring.put_of_lt _ x hlt]
    exact ⟨h.head_lt, Nat.mod_lt _ hcap, hlt,
      fun ha => by simp only [h.tail_eq ha, Nat.mod_add_mod]; congr 1,
      cellsWf_write h.cells h.tail_lt x⟩
  · rw [Ring.put_of_full _ x hlt]
    refine ⟨h.head_lt, ?_, h.count_le, fun ha => by simp [ha, ← h.tail_eq ha],
      cellsWf_write h.cells h.tail_lt x⟩
    by_cases ha : c.overwriteAdvancesTail
    · simpa [ha] using Nat.mod_lt _ hcap
    · simpa [ha] using h.tail_lt

/-! ## get and remove -/

theorem Ring.get_of_pos (sentinel : Byte) (h : 0 < r.count) :
    r.get cap sentinel =
      (cellRead r.buf r.head, ⟨r.buf, (r.head + 1) % cap, r.tail, r.count - 1⟩) := by
  simp [Ring.get, Nat.ne_of_gt h]

/-- A get takes the oldest byte (R70). -/
theorem Ring.bytes_get (sentinel : Byte) (hh : r.head < cap) (h : 0 < r.count) :
    r.bytes cap = (r.get cap sentinel).1 :: (r.get cap sentinel).2.bytes cap := by
  obtain ⟨n, hn⟩ : ∃ n, r.count = n + 1 := ⟨r.count - 1, by omega⟩
  rw [Ring.get_of_pos sentinel h]
  simp only [Ring.bytes, hn, Nat.add_sub_cancel, Ring.memRead_succ, Nat.mod_eq_of_lt hh,
    Ring.memRead_mod]
  rfl

@[simp] theorem Ring.get_buf (sentinel : Byte) : (r.get cap sentinel).2.buf = r.buf := by
  by_cases h : r.count = 0 <;> simp [Ring.get, h]

@[simp] theorem Ring.get_tail (sentinel : Byte) : (r.get cap sentinel).2.tail = r.tail := by
  by_cases h : r.count = 0 <;> simp [Ring.get, h]

@[simp] theorem Ring.get_count (sentinel : Byte) : (r.get cap sentinel).2.count = r.count - 1 := by
  by_cases h : r.count = 0 <;> simp [Ring.get, h]

theorem RingOk.get (h : RingOk c cap r) (sentinel : Byte) : RingOk c cap (r.get cap sentinel).2 := by
  have hcap : 0 < cap := Nat.lt_of_le_of_lt (Nat.zero_le _) h.head_lt
  by_cases h0 : r.count = 0
  · refine ⟨by simpa [Ring.get, h0] using h.tail_lt, by simpa using h.tail_lt, by simp [h0],
      fun _ => ?_, by simpa using h.cells⟩
    simp [Ring.get, h0, Nat.mod_eq_of_lt h.tail_lt]
  · rw [Ring.get_of_pos sentinel (by omega)]
    refine ⟨Nat.mod_lt _ hcap, h.tail_lt, by have := h.count_le; simp only; omega, fun ha => ?_,
      h.cells⟩
    simp only [h.tail_eq ha, Nat.mod_add_mod]
    congr 1
    omega

/-- The tail still follows the count after a get. -/
theorem Ring.get_tail_eq (sentinel : Byte) (ht : r.tail = (r.head + r.count) % cap) (h0 : 0 < cap) :
    (r.get cap sentinel).2.tail =
      ((r.get cap sentinel).2.head + (r.get cap sentinel).2.count) % cap := by
  by_cases h : r.count = 0
  · have : r.tail < cap := ht ▸ Nat.mod_lt _ h0
    simp [Ring.get, h, Nat.mod_eq_of_lt this]
  · rw [Ring.get_of_pos sentinel (by omega)]
    simp only [ht, Nat.mod_add_mod]
    congr 1
    omega

@[simp] theorem Ring.remove_buf (sentinel : Byte) (m : Nat) :
    (r.remove cap sentinel m).buf = r.buf := by
  induction m generalizing r with
  | zero => rfl
  | succ m ih => rw [Ring.remove, ih, Ring.get_buf]

@[simp] theorem Ring.remove_tail (sentinel : Byte) (m : Nat) :
    (r.remove cap sentinel m).tail = r.tail := by
  induction m generalizing r with
  | zero => rfl
  | succ m ih => rw [Ring.remove, ih, Ring.get_tail]

@[simp] theorem Ring.remove_count (sentinel : Byte) (m : Nat) :
    (r.remove cap sentinel m).count = r.count - m := by
  induction m generalizing r with
  | zero => rfl
  | succ m ih => rw [Ring.remove, ih, Ring.get_count]; omega

theorem RingOk.remove (h : RingOk c cap r) (sentinel : Byte) (m : Nat) :
    RingOk c cap (r.remove cap sentinel m) := by
  induction m generalizing r with
  | zero => exact h
  | succ m ih => exact ih (h.get sentinel)

/-- Removing takes the oldest bytes (R72). -/
theorem Ring.bytes_remove (sentinel : Byte) (hh : r.head < cap) {m : Nat} (hm : m ≤ r.count) :
    (r.remove cap sentinel m).bytes cap = (r.bytes cap).drop m := by
  have hcap : 0 < cap := Nat.lt_of_le_of_lt (Nat.zero_le _) hh
  induction m generalizing r with
  | zero => rfl
  | succ m ih =>
    have hpos : 0 < r.count := by omega
    have hh' : (r.get cap sentinel).2.head < cap := by
      rw [Ring.get_of_pos sentinel hpos]
      exact Nat.mod_lt _ hcap
    rw [Ring.remove, ih hh' (by rw [Ring.get_count]; omega), Ring.bytes_get sentinel hh hpos,
      List.drop_succ_cons]

/-! ## clear and rollback -/

theorem Ring.bytes_clear : r.clear.bytes cap = [] := rfl

theorem RingOk.clear (h : RingOk c cap r) : RingOk c cap r.clear := by
  have hcap : 0 < cap := Nat.lt_of_le_of_lt (Nat.zero_le _) h.head_lt
  exact ⟨hcap, hcap, Nat.zero_le _, fun _ => by simp [Ring.clear], h.cells⟩

end Sys2Proof.Machine
end

