-- ==== Sys2Proof/Laws/Queue.lean ====
section
/-! SUPPORT. What each queue operation does, and that each keeps the queue invariant
(43_request_queue.md R99 to R104). -/

namespace Sys2Proof.Machine

variable {c : Config} {q : Queue} {d : PendingRequest}

theorem getD_set {α : Type} {l : List α} {i j : Nat} {x y : α} (hi : i < l.length) :
    (l.set i x).getD j y = if j = i then x else l.getD j y := by
  by_cases h : j = i
  · subst h
    simp [List.getD_eq_getElem?_getD, hi]
  · simp [List.getD_eq_getElem?_getD, h, List.getElem?_set_ne (Ne.symm h)]

/-- A created request is a new queue with one more slot filled; only a full queue refuses (R100). -/
theorem Queue.create_eq (cap : Nat) (q : Queue) (d : PendingRequest) :
    q.create cap d =
      if q.count = cap - 1 then none
      else some ⟨q.slot.set q.tail (some d), q.head, (q.tail + 1) % cap, q.count + 1⟩ := rfl

theorem QueueOk.create {q' : Queue} (h : QueueOk c q) (hcap : 2 ≤ c.qCap) (hd : RequestOk c d)
    (hc : q.create c.qCap d = some q') : QueueOk c q' := by
  have hcount := h.count_le
  rw [Queue.create_eq] at hc
  split at hc
  · cases hc
  rename_i hne
  cases hc
  have htl : q.tail < q.slot.length := h.slots ▸ h.tail_lt
  refine ⟨by simp [h.slots], h.head_lt, Nat.mod_lt _ (by omega), by simp only; omega, ?_, ?_, ?_⟩
  · simp only [h.tail_eq, Nat.mod_add_mod]
    congr 1
  · intro i hi
    simp only [getD_set htl]
    by_cases hit : i = q.tail
    · simp only [hit, if_true, Option.isSome_some, true_iff]
      exact ⟨q.count, by omega, h.tail_eq⟩
    · simp only [hit, if_false, h.filled i hi]
      constructor
      · rintro ⟨j, hj, rfl⟩
        exact ⟨j, by omega, rfl⟩
      · rintro ⟨j, hj, rfl⟩
        refine ⟨j, ?_, rfl⟩
        rcases Nat.lt_succ_iff_lt_or_eq.1 hj with hj | rfl
        · exact hj
        · exact absurd h.tail_eq.symm hit
  · intro i e he
    simp only [getD_set htl] at he
    split at he
    · cases he
      exact hd
    · exact h.made i e he

theorem QueueOk.discardHead (h : QueueOk c q) : QueueOk c (q.discardHead c.qCap) := by
  by_cases h0 : q.count = 0
  · simpa [Queue.discardHead, h0] using h
  have hcount := h.count_le
  have hcap : 0 < c.qCap := Nat.lt_of_le_of_lt (Nat.zero_le _) h.head_lt
  have hhl : q.head < q.slot.length := h.slots ▸ h.head_lt
  simp only [Queue.discardHead, h0, if_false]
  refine ⟨by simp [h.slots], Nat.mod_lt _ hcap, h.tail_lt, by simp only; omega, ?_, ?_, ?_⟩
  · simp only [h.tail_eq, Nat.mod_add_mod]
    congr 1
    omega
  · intro i hi
    simp only [getD_set hhl]
    by_cases hih : i = q.head
    · subst hih
      simp only [if_true, Option.isSome_none, Bool.false_eq_true, false_iff, not_exists, not_and]
      intro j hj he
      rw [Nat.mod_add_mod] at he
      have := offset_eq_of_slot_eq (cap := c.qCap) (h := q.head) (i := 0) (j := 1 + j) hcap
        (by omega) (by rw [Nat.add_zero, Nat.mod_eq_of_lt h.head_lt, ← Nat.add_assoc]; exact he)
      omega
    · simp only [hih, if_false, h.filled i hi]
      constructor
      · rintro ⟨j, hj, rfl⟩
        rcases Nat.eq_zero_or_pos j with rfl | hpos
        · exact absurd (by rw [Nat.add_zero, Nat.mod_eq_of_lt h.head_lt]) hih
        · exact ⟨j - 1, by omega, by rw [Nat.mod_add_mod]; congr 1; omega⟩
      · rintro ⟨j, hj, rfl⟩
        exact ⟨j + 1, by omega, by rw [Nat.mod_add_mod]; congr 1; omega⟩
  · intro i e he
    simp only [getD_set hhl] at he
    split at he
    · cases he
    · exact h.made i e he

/-- A request created and discarded at once leaves the queue as it was (R102). -/
theorem QueueOk.discardTail_create {q' : Queue} (h : QueueOk c q) (hcap : 2 ≤ c.qCap)
    (hc : q.create c.qCap d = some q') : q'.discardTail c.qCap = q := by
  have hcount := h.count_le
  have htl := h.tail_lt
  rw [Queue.create_eq] at hc
  split at hc
  · cases hc
  rename_i hne
  cases hc
  have hback : ((q.tail + 1) % c.qCap + c.qCap - 1) % c.qCap = q.tail := by
    rcases Nat.lt_or_ge (q.tail + 1) c.qCap with hlt | hge
    · rw [Nat.mod_eq_of_lt hlt, show q.tail + 1 + c.qCap - 1 = q.tail + c.qCap by omega,
        Nat.add_mod_right, Nat.mod_eq_of_lt htl]
    · rw [show q.tail + 1 = c.qCap by omega, Nat.mod_self, Nat.zero_add, Nat.mod_eq_of_lt (by omega)]
      omega
  have hnone : q.slot[q.tail]? = some none := by
    have hsome : (q.slot.getD q.tail none).isSome = false := by
      rw [Bool.eq_false_iff]
      intro hs
      obtain ⟨j, hj, he⟩ := (h.filled q.tail htl).1 hs
      have := offset_eq_of_slot_eq (by omega) (by omega) (he.symm.trans h.tail_eq)
      omega
    rw [List.getD_eq_getElem?_getD, List.getElem?_eq_getElem (h.slots ▸ htl)] at hsome
    rw [List.getElem?_eq_getElem (h.slots ▸ htl)]
    simpa using hsome
  simp only [Queue.discardTail, Nat.succ_ne_zero, if_false, hback, List.set_set, Nat.add_sub_cancel]
  have : q.slot.set q.tail none = q.slot := by
    refine List.ext_getElem? fun i => ?_
    by_cases hi : i = q.tail
    · subst hi
      rw [hnone, List.getElem?_set_self (h.slots ▸ htl)]
    · rw [List.getElem?_set_ne (Ne.symm hi)]
  rw [this]

/-- The oldest request is the head slot's (R103). -/
theorem QueueOk.first_isSome (h : QueueOk c q) (h0 : 0 < q.count) :
    ∃ d, q.first = some d ∧ RequestOk c d := by
  have hs : (q.slot.getD q.head none).isSome = true :=
    (h.filled q.head h.head_lt).2 ⟨0, h0, by rw [Nat.add_zero, Nat.mod_eq_of_lt h.head_lt]⟩
  obtain ⟨d, hd⟩ := Option.isSome_iff_exists.1 hs
  exact ⟨d, by simp only [Queue.first, Nat.ne_of_gt h0, if_false, hd], h.made _ _ hd⟩

theorem QueueOk.first_made (h : QueueOk c q) (hd : q.first = some d) : RequestOk c d := by
  rw [Queue.first] at hd
  split at hd
  · cases hd
  · exact h.made _ _ hd

theorem QueueOk.reset (c : Config) (hcap : 2 ≤ c.qCap) :
    QueueOk c ⟨List.replicate c.qCap none, 0, 0, 0⟩ :=
  ⟨by simp, by simp only; omega, by simp only; omega, Nat.zero_le _, by simp,
    fun i hi => by simp [List.getD_eq_getElem?_getD, hi],
    fun i d hd => by
      by_cases hi : i < c.qCap <;> simp [List.getD_eq_getElem?_getD, hi] at hd⟩

end Sys2Proof.Machine
end

