-- ==== Sys2Proof/Laws/State.lean ====
section
/-! SUPPORT. What each named update of the state does to each field: one lemma per field per update,
true by rfl. -/

namespace Sys2Proof.Machine

variable (s : State)

@[simp] theorem State.noteRxOverrun_cfg (b : Bool) : (s.noteRxOverrun b).cfg = s.cfg := rfl
@[simp] theorem State.noteRxOverrun_rx (b : Bool) : (s.noteRxOverrun b).rx = s.rx := rfl
@[simp] theorem State.noteRxOverrun_tx (b : Bool) : (s.noteRxOverrun b).tx = s.tx := rfl
@[simp] theorem State.noteRxOverrun_rxOverrun (b : Bool) :
    (s.noteRxOverrun b).rxOverrun = (s.rxOverrun || b) := rfl
@[simp] theorem State.noteRxOverrun_txOverrun (b : Bool) :
    (s.noteRxOverrun b).txOverrun = s.txOverrun := rfl
@[simp] theorem State.noteRxOverrun_rxPosted (b : Bool) :
    (s.noteRxOverrun b).rxPosted = s.rxPosted := rfl
@[simp] theorem State.noteRxOverrun_q (b : Bool) : (s.noteRxOverrun b).q = s.q := rfl
@[simp] theorem State.noteRxOverrun_wdog (b : Bool) : (s.noteRxOverrun b).wdog = s.wdog := rfl
@[simp] theorem State.noteRxOverrun_wdogN (b : Bool) : (s.noteRxOverrun b).wdogN = s.wdogN := rfl
@[simp] theorem State.noteRxOverrun_ctimer (b : Bool) : (s.noteRxOverrun b).ctimer = s.ctimer := rfl
@[simp] theorem State.noteRxOverrun_txInProgress (b : Bool) :
    (s.noteRxOverrun b).txInProgress = s.txInProgress := rfl
@[simp] theorem State.noteRxOverrun_txie (b : Bool) : (s.noteRxOverrun b).txie = s.txie := rfl
@[simp] theorem State.noteRxOverrun_lineMode (b : Bool) :
    (s.noteRxOverrun b).lineMode = s.lineMode := rfl
@[simp] theorem State.noteRxOverrun_slaveAddr (b : Bool) :
    (s.noteRxOverrun b).slaveAddr = s.slaveAddr := rfl
@[simp] theorem State.noteRxOverrun_faultCount (b : Bool) :
    (s.noteRxOverrun b).faultCount = s.faultCount := rfl
@[simp] theorem State.noteRxOverrun_crcFaultCount (b : Bool) :
    (s.noteRxOverrun b).crcFaultCount = s.crcFaultCount := rfl
@[simp] theorem State.noteRxOverrun_persistReq (b : Bool) :
    (s.noteRxOverrun b).persistReq = s.persistReq := rfl
@[simp] theorem State.noteRxOverrun_unlocked (b : Bool) :
    (s.noteRxOverrun b).unlocked = s.unlocked := rfl
@[simp] theorem State.noteRxOverrun_factoryUnlocked (b : Bool) :
    (s.noteRxOverrun b).factoryUnlocked = s.factoryUnlocked := rfl
@[simp] theorem State.noteRxOverrun_store (b : Bool) : (s.noteRxOverrun b).store = s.store := rfl
@[simp] theorem State.noteRxOverrun_out (b : Bool) : (s.noteRxOverrun b).out = s.out := rfl
@[simp] theorem State.noteRxOverrun_inputs (b : Bool) : (s.noteRxOverrun b).inputs = s.inputs := rfl
@[simp] theorem State.noteRxOverrun_waiting (b : Bool) :
    (s.noteRxOverrun b).waiting = s.waiting := rfl
@[simp] theorem State.noteRxOverrun_freeCount (b : Bool) :
    (s.noteRxOverrun b).freeCount = s.freeCount := rfl

@[simp] theorem State.noteTxOverrun_cfg (b : Bool) : (s.noteTxOverrun b).cfg = s.cfg := rfl
@[simp] theorem State.noteTxOverrun_rx (b : Bool) : (s.noteTxOverrun b).rx = s.rx := rfl
@[simp] theorem State.noteTxOverrun_tx (b : Bool) : (s.noteTxOverrun b).tx = s.tx := rfl
@[simp] theorem State.noteTxOverrun_rxOverrun (b : Bool) :
    (s.noteTxOverrun b).rxOverrun = s.rxOverrun := rfl
@[simp] theorem State.noteTxOverrun_txOverrun (b : Bool) :
    (s.noteTxOverrun b).txOverrun = (s.txOverrun || b) := rfl
@[simp] theorem State.noteTxOverrun_rxPosted (b : Bool) :
    (s.noteTxOverrun b).rxPosted = s.rxPosted := rfl
@[simp] theorem State.noteTxOverrun_q (b : Bool) : (s.noteTxOverrun b).q = s.q := rfl
@[simp] theorem State.noteTxOverrun_wdog (b : Bool) : (s.noteTxOverrun b).wdog = s.wdog := rfl
@[simp] theorem State.noteTxOverrun_wdogN (b : Bool) : (s.noteTxOverrun b).wdogN = s.wdogN := rfl
@[simp] theorem State.noteTxOverrun_ctimer (b : Bool) : (s.noteTxOverrun b).ctimer = s.ctimer := rfl
@[simp] theorem State.noteTxOverrun_txInProgress (b : Bool) :
    (s.noteTxOverrun b).txInProgress = s.txInProgress := rfl
@[simp] theorem State.noteTxOverrun_txie (b : Bool) : (s.noteTxOverrun b).txie = s.txie := rfl
@[simp] theorem State.noteTxOverrun_lineMode (b : Bool) :
    (s.noteTxOverrun b).lineMode = s.lineMode := rfl
@[simp] theorem State.noteTxOverrun_slaveAddr (b : Bool) :
    (s.noteTxOverrun b).slaveAddr = s.slaveAddr := rfl
@[simp] theorem State.noteTxOverrun_faultCount (b : Bool) :
    (s.noteTxOverrun b).faultCount = s.faultCount := rfl
@[simp] theorem State.noteTxOverrun_crcFaultCount (b : Bool) :
    (s.noteTxOverrun b).crcFaultCount = s.crcFaultCount := rfl
@[simp] theorem State.noteTxOverrun_persistReq (b : Bool) :
    (s.noteTxOverrun b).persistReq = s.persistReq := rfl
@[simp] theorem State.noteTxOverrun_unlocked (b : Bool) :
    (s.noteTxOverrun b).unlocked = s.unlocked := rfl
@[simp] theorem State.noteTxOverrun_factoryUnlocked (b : Bool) :
    (s.noteTxOverrun b).factoryUnlocked = s.factoryUnlocked := rfl
@[simp] theorem State.noteTxOverrun_store (b : Bool) : (s.noteTxOverrun b).store = s.store := rfl
@[simp] theorem State.noteTxOverrun_out (b : Bool) : (s.noteTxOverrun b).out = s.out := rfl
@[simp] theorem State.noteTxOverrun_inputs (b : Bool) : (s.noteTxOverrun b).inputs = s.inputs := rfl
@[simp] theorem State.noteTxOverrun_waiting (b : Bool) :
    (s.noteTxOverrun b).waiting = s.waiting := rfl
@[simp] theorem State.noteTxOverrun_freeCount (b : Bool) :
    (s.noteTxOverrun b).freeCount = s.freeCount := rfl

@[simp] theorem State.setPosted_cfg (b : Bool) : (s.setPosted b).cfg = s.cfg := rfl
@[simp] theorem State.setPosted_rx (b : Bool) : (s.setPosted b).rx = s.rx := rfl
@[simp] theorem State.setPosted_tx (b : Bool) : (s.setPosted b).tx = s.tx := rfl
@[simp] theorem State.setPosted_rxOverrun (b : Bool) :
    (s.setPosted b).rxOverrun = s.rxOverrun := rfl
@[simp] theorem State.setPosted_txOverrun (b : Bool) :
    (s.setPosted b).txOverrun = s.txOverrun := rfl
@[simp] theorem State.setPosted_rxPosted (b : Bool) : (s.setPosted b).rxPosted = b := rfl
@[simp] theorem State.setPosted_q (b : Bool) : (s.setPosted b).q = s.q := rfl
@[simp] theorem State.setPosted_wdog (b : Bool) : (s.setPosted b).wdog = s.wdog := rfl
@[simp] theorem State.setPosted_wdogN (b : Bool) : (s.setPosted b).wdogN = s.wdogN := rfl
@[simp] theorem State.setPosted_ctimer (b : Bool) : (s.setPosted b).ctimer = s.ctimer := rfl
@[simp] theorem State.setPosted_txInProgress (b : Bool) :
    (s.setPosted b).txInProgress = s.txInProgress := rfl
@[simp] theorem State.setPosted_txie (b : Bool) : (s.setPosted b).txie = s.txie := rfl
@[simp] theorem State.setPosted_lineMode (b : Bool) : (s.setPosted b).lineMode = s.lineMode := rfl
@[simp] theorem State.setPosted_slaveAddr (b : Bool) :
    (s.setPosted b).slaveAddr = s.slaveAddr := rfl
@[simp] theorem State.setPosted_faultCount (b : Bool) :
    (s.setPosted b).faultCount = s.faultCount := rfl
@[simp] theorem State.setPosted_crcFaultCount (b : Bool) :
    (s.setPosted b).crcFaultCount = s.crcFaultCount := rfl
@[simp] theorem State.setPosted_persistReq (b : Bool) :
    (s.setPosted b).persistReq = s.persistReq := rfl
@[simp] theorem State.setPosted_unlocked (b : Bool) : (s.setPosted b).unlocked = s.unlocked := rfl
@[simp] theorem State.setPosted_factoryUnlocked (b : Bool) :
    (s.setPosted b).factoryUnlocked = s.factoryUnlocked := rfl
@[simp] theorem State.setPosted_store (b : Bool) : (s.setPosted b).store = s.store := rfl
@[simp] theorem State.setPosted_out (b : Bool) : (s.setPosted b).out = s.out := rfl
@[simp] theorem State.setPosted_inputs (b : Bool) : (s.setPosted b).inputs = s.inputs := rfl
@[simp] theorem State.setPosted_waiting (b : Bool) :
    (s.setPosted b).waiting = s.waiting := rfl
@[simp] theorem State.setPosted_freeCount (b : Bool) :
    (s.setPosted b).freeCount = s.freeCount := rfl

@[simp] theorem State.countCrcFault_cfg : (s.countCrcFault).cfg = s.cfg := rfl
@[simp] theorem State.countCrcFault_rx : (s.countCrcFault).rx = s.rx := rfl
@[simp] theorem State.countCrcFault_tx : (s.countCrcFault).tx = s.tx := rfl
@[simp] theorem State.countCrcFault_rxOverrun : (s.countCrcFault).rxOverrun = s.rxOverrun := rfl
@[simp] theorem State.countCrcFault_txOverrun : (s.countCrcFault).txOverrun = s.txOverrun := rfl
@[simp] theorem State.countCrcFault_rxPosted : (s.countCrcFault).rxPosted = s.rxPosted := rfl
@[simp] theorem State.countCrcFault_q : (s.countCrcFault).q = s.q := rfl
@[simp] theorem State.countCrcFault_wdog : (s.countCrcFault).wdog = s.wdog := rfl
@[simp] theorem State.countCrcFault_wdogN : (s.countCrcFault).wdogN = s.wdogN := rfl
@[simp] theorem State.countCrcFault_ctimer : (s.countCrcFault).ctimer = s.ctimer := rfl
@[simp] theorem State.countCrcFault_txInProgress :
    (s.countCrcFault).txInProgress = s.txInProgress := rfl
@[simp] theorem State.countCrcFault_txie : (s.countCrcFault).txie = s.txie := rfl
@[simp] theorem State.countCrcFault_lineMode : (s.countCrcFault).lineMode = s.lineMode := rfl
@[simp] theorem State.countCrcFault_slaveAddr : (s.countCrcFault).slaveAddr = s.slaveAddr := rfl
@[simp] theorem State.countCrcFault_faultCount :
    (s.countCrcFault).faultCount = s.faultCount + 1 := rfl
@[simp] theorem State.countCrcFault_crcFaultCount :
    (s.countCrcFault).crcFaultCount = s.crcFaultCount + 1 := rfl
@[simp] theorem State.countCrcFault_persistReq : (s.countCrcFault).persistReq = s.persistReq := rfl
@[simp] theorem State.countCrcFault_unlocked : (s.countCrcFault).unlocked = s.unlocked := rfl
@[simp] theorem State.countCrcFault_factoryUnlocked :
    (s.countCrcFault).factoryUnlocked = s.factoryUnlocked := rfl
@[simp] theorem State.countCrcFault_store : (s.countCrcFault).store = s.store := rfl
@[simp] theorem State.countCrcFault_out : (s.countCrcFault).out = s.out := rfl
@[simp] theorem State.countCrcFault_inputs : (s.countCrcFault).inputs = s.inputs := rfl
@[simp] theorem State.countCrcFault_waiting : (s.countCrcFault).waiting = s.waiting := rfl
@[simp] theorem State.countCrcFault_freeCount : (s.countCrcFault).freeCount = s.freeCount := rfl

@[simp] theorem State.countUnknownFunction_cfg : (s.countUnknownFunction).cfg = s.cfg := rfl
@[simp] theorem State.countUnknownFunction_rx : (s.countUnknownFunction).rx = s.rx := rfl
@[simp] theorem State.countUnknownFunction_tx : (s.countUnknownFunction).tx = s.tx := rfl
@[simp] theorem State.countUnknownFunction_rxOverrun :
    (s.countUnknownFunction).rxOverrun = s.rxOverrun := rfl
@[simp] theorem State.countUnknownFunction_txOverrun :
    (s.countUnknownFunction).txOverrun = s.txOverrun := rfl
@[simp] theorem State.countUnknownFunction_rxPosted :
    (s.countUnknownFunction).rxPosted = s.rxPosted := rfl
@[simp] theorem State.countUnknownFunction_q : (s.countUnknownFunction).q = s.q := rfl
@[simp] theorem State.countUnknownFunction_wdog : (s.countUnknownFunction).wdog = s.wdog := rfl
@[simp] theorem State.countUnknownFunction_wdogN : (s.countUnknownFunction).wdogN = s.wdogN := rfl
@[simp] theorem State.countUnknownFunction_ctimer :
    (s.countUnknownFunction).ctimer = s.ctimer := rfl
@[simp] theorem State.countUnknownFunction_txInProgress :
    (s.countUnknownFunction).txInProgress = s.txInProgress := rfl
@[simp] theorem State.countUnknownFunction_txie : (s.countUnknownFunction).txie = s.txie := rfl
@[simp] theorem State.countUnknownFunction_lineMode :
    (s.countUnknownFunction).lineMode = s.lineMode := rfl
@[simp] theorem State.countUnknownFunction_slaveAddr :
    (s.countUnknownFunction).slaveAddr = s.slaveAddr := rfl
@[simp] theorem State.countUnknownFunction_faultCount :
    (s.countUnknownFunction).faultCount = s.faultCount + 1 := rfl
@[simp] theorem State.countUnknownFunction_crcFaultCount :
    (s.countUnknownFunction).crcFaultCount = s.crcFaultCount := rfl
@[simp] theorem State.countUnknownFunction_persistReq :
    (s.countUnknownFunction).persistReq = s.persistReq := rfl
@[simp] theorem State.countUnknownFunction_unlocked :
    (s.countUnknownFunction).unlocked = s.unlocked := rfl
@[simp] theorem State.countUnknownFunction_factoryUnlocked :
    (s.countUnknownFunction).factoryUnlocked = s.factoryUnlocked := rfl
@[simp] theorem State.countUnknownFunction_store : (s.countUnknownFunction).store = s.store := rfl
@[simp] theorem State.countUnknownFunction_out : (s.countUnknownFunction).out = s.out := rfl
@[simp] theorem State.countUnknownFunction_inputs :
    (s.countUnknownFunction).inputs = s.inputs := rfl
@[simp] theorem State.countUnknownFunction_waiting :
    (s.countUnknownFunction).waiting = s.waiting := rfl
@[simp] theorem State.countUnknownFunction_freeCount :
    (s.countUnknownFunction).freeCount = s.freeCount := rfl

@[simp] theorem State.txStart_cfg : (s.txStart).cfg = s.cfg := rfl
@[simp] theorem State.txStart_rx : (s.txStart).rx = s.rx := rfl
@[simp] theorem State.txStart_tx : (s.txStart).tx = s.tx := rfl
@[simp] theorem State.txStart_rxOverrun : (s.txStart).rxOverrun = s.rxOverrun := rfl
@[simp] theorem State.txStart_txOverrun : (s.txStart).txOverrun = s.txOverrun := rfl
@[simp] theorem State.txStart_rxPosted : (s.txStart).rxPosted = s.rxPosted := rfl
@[simp] theorem State.txStart_q : (s.txStart).q = s.q := rfl
@[simp] theorem State.txStart_wdog : (s.txStart).wdog = s.wdog := rfl
@[simp] theorem State.txStart_wdogN : (s.txStart).wdogN = s.wdogN := rfl
@[simp] theorem State.txStart_ctimer : (s.txStart).ctimer = s.ctimer := rfl
@[simp] theorem State.txStart_txInProgress : (s.txStart).txInProgress = true := rfl
@[simp] theorem State.txStart_txie : (s.txStart).txie = true := rfl
@[simp] theorem State.txStart_lineMode : (s.txStart).lineMode = .transmit := rfl
@[simp] theorem State.txStart_slaveAddr : (s.txStart).slaveAddr = s.slaveAddr := rfl
@[simp] theorem State.txStart_faultCount : (s.txStart).faultCount = s.faultCount := rfl
@[simp] theorem State.txStart_crcFaultCount : (s.txStart).crcFaultCount = s.crcFaultCount := rfl
@[simp] theorem State.txStart_persistReq : (s.txStart).persistReq = s.persistReq := rfl
@[simp] theorem State.txStart_unlocked : (s.txStart).unlocked = s.unlocked := rfl
@[simp] theorem State.txStart_factoryUnlocked :
    (s.txStart).factoryUnlocked = s.factoryUnlocked := rfl
@[simp] theorem State.txStart_store : (s.txStart).store = s.store := rfl
@[simp] theorem State.txStart_out : (s.txStart).out = s.out := rfl
@[simp] theorem State.txStart_inputs : (s.txStart).inputs = s.inputs := rfl
@[simp] theorem State.txStart_waiting : (s.txStart).waiting = s.waiting := rfl
@[simp] theorem State.txStart_freeCount : (s.txStart).freeCount = s.freeCount := rfl

@[simp] theorem State.txEnd_cfg : (s.txEnd).cfg = s.cfg := rfl
@[simp] theorem State.txEnd_rx : (s.txEnd).rx = s.rx := rfl
@[simp] theorem State.txEnd_tx : (s.txEnd).tx = s.tx := rfl
@[simp] theorem State.txEnd_rxOverrun : (s.txEnd).rxOverrun = s.rxOverrun := rfl
@[simp] theorem State.txEnd_txOverrun : (s.txEnd).txOverrun = s.txOverrun := rfl
@[simp] theorem State.txEnd_rxPosted : (s.txEnd).rxPosted = s.rxPosted := rfl
@[simp] theorem State.txEnd_q : (s.txEnd).q = s.q := rfl
@[simp] theorem State.txEnd_wdog : (s.txEnd).wdog = s.wdog := rfl
@[simp] theorem State.txEnd_wdogN : (s.txEnd).wdogN = s.wdogN := rfl
@[simp] theorem State.txEnd_ctimer : (s.txEnd).ctimer = s.ctimer := rfl
@[simp] theorem State.txEnd_txInProgress : (s.txEnd).txInProgress = false := rfl
@[simp] theorem State.txEnd_txie : (s.txEnd).txie = false := rfl
@[simp] theorem State.txEnd_lineMode : (s.txEnd).lineMode = .receive := rfl
@[simp] theorem State.txEnd_slaveAddr : (s.txEnd).slaveAddr = s.slaveAddr := rfl
@[simp] theorem State.txEnd_faultCount : (s.txEnd).faultCount = s.faultCount := rfl
@[simp] theorem State.txEnd_crcFaultCount : (s.txEnd).crcFaultCount = s.crcFaultCount := rfl
@[simp] theorem State.txEnd_persistReq : (s.txEnd).persistReq = s.persistReq := rfl
@[simp] theorem State.txEnd_unlocked : (s.txEnd).unlocked = s.unlocked := rfl
@[simp] theorem State.txEnd_factoryUnlocked : (s.txEnd).factoryUnlocked = s.factoryUnlocked := rfl
@[simp] theorem State.txEnd_store : (s.txEnd).store = s.store := rfl
@[simp] theorem State.txEnd_out : (s.txEnd).out = s.out := rfl
@[simp] theorem State.txEnd_inputs : (s.txEnd).inputs = s.inputs := rfl
@[simp] theorem State.txEnd_waiting : (s.txEnd).waiting = s.waiting := rfl
@[simp] theorem State.txEnd_freeCount : (s.txEnd).freeCount = s.freeCount := rfl

@[simp] theorem State.rxPut_cfg (x : Byte) : (s.rxPut x).cfg = s.cfg := rfl
@[simp] theorem State.rxPut_rx (x : Byte) :
    (s.rxPut x).rx = (s.rx.put s.cfg.rxCap s.cfg.overwriteAdvancesTail x).1 := rfl
@[simp] theorem State.rxPut_tx (x : Byte) : (s.rxPut x).tx = s.tx := rfl
@[simp] theorem State.rxPut_rxOverrun (x : Byte) :
    (s.rxPut x).rxOverrun = (s.rxOverrun || (s.rx.put s.cfg.rxCap s.cfg.overwriteAdvancesTail x).2) := rfl
@[simp] theorem State.rxPut_txOverrun (x : Byte) : (s.rxPut x).txOverrun = s.txOverrun := rfl
@[simp] theorem State.rxPut_rxPosted (x : Byte) : (s.rxPut x).rxPosted = s.rxPosted := rfl
@[simp] theorem State.rxPut_q (x : Byte) : (s.rxPut x).q = s.q := rfl
@[simp] theorem State.rxPut_wdog (x : Byte) : (s.rxPut x).wdog = s.wdog := rfl
@[simp] theorem State.rxPut_wdogN (x : Byte) : (s.rxPut x).wdogN = s.wdogN := rfl
@[simp] theorem State.rxPut_ctimer (x : Byte) : (s.rxPut x).ctimer = s.ctimer := rfl
@[simp] theorem State.rxPut_txInProgress (x : Byte) :
    (s.rxPut x).txInProgress = s.txInProgress := rfl
@[simp] theorem State.rxPut_txie (x : Byte) : (s.rxPut x).txie = s.txie := rfl
@[simp] theorem State.rxPut_lineMode (x : Byte) : (s.rxPut x).lineMode = s.lineMode := rfl
@[simp] theorem State.rxPut_slaveAddr (x : Byte) : (s.rxPut x).slaveAddr = s.slaveAddr := rfl
@[simp] theorem State.rxPut_faultCount (x : Byte) : (s.rxPut x).faultCount = s.faultCount := rfl
@[simp] theorem State.rxPut_crcFaultCount (x : Byte) :
    (s.rxPut x).crcFaultCount = s.crcFaultCount := rfl
@[simp] theorem State.rxPut_persistReq (x : Byte) : (s.rxPut x).persistReq = s.persistReq := rfl
@[simp] theorem State.rxPut_unlocked (x : Byte) : (s.rxPut x).unlocked = s.unlocked := rfl
@[simp] theorem State.rxPut_factoryUnlocked (x : Byte) :
    (s.rxPut x).factoryUnlocked = s.factoryUnlocked := rfl
@[simp] theorem State.rxPut_store (x : Byte) : (s.rxPut x).store = s.store := rfl
@[simp] theorem State.rxPut_out (x : Byte) : (s.rxPut x).out = s.out := rfl
@[simp] theorem State.rxPut_inputs (x : Byte) : (s.rxPut x).inputs = s.inputs := rfl
@[simp] theorem State.rxPut_waiting (x : Byte) : (s.rxPut x).waiting = s.waiting := rfl
@[simp] theorem State.rxPut_freeCount (x : Byte) : (s.rxPut x).freeCount = s.freeCount := rfl

@[simp] theorem State.rxRemove_cfg (m : Nat) : (s.rxRemove m).cfg = s.cfg := rfl
@[simp] theorem State.rxRemove_rx (m : Nat) :
    (s.rxRemove m).rx = s.rx.remove s.cfg.rxCap s.cfg.emptySentinel m := rfl
@[simp] theorem State.rxRemove_tx (m : Nat) : (s.rxRemove m).tx = s.tx := rfl
@[simp] theorem State.rxRemove_rxOverrun (m : Nat) : (s.rxRemove m).rxOverrun = s.rxOverrun := rfl
@[simp] theorem State.rxRemove_txOverrun (m : Nat) : (s.rxRemove m).txOverrun = s.txOverrun := rfl
@[simp] theorem State.rxRemove_rxPosted (m : Nat) : (s.rxRemove m).rxPosted = s.rxPosted := rfl
@[simp] theorem State.rxRemove_q (m : Nat) : (s.rxRemove m).q = s.q := rfl
@[simp] theorem State.rxRemove_wdog (m : Nat) : (s.rxRemove m).wdog = s.wdog := rfl
@[simp] theorem State.rxRemove_wdogN (m : Nat) : (s.rxRemove m).wdogN = s.wdogN := rfl
@[simp] theorem State.rxRemove_ctimer (m : Nat) : (s.rxRemove m).ctimer = s.ctimer := rfl
@[simp] theorem State.rxRemove_txInProgress (m : Nat) :
    (s.rxRemove m).txInProgress = s.txInProgress := rfl
@[simp] theorem State.rxRemove_txie (m : Nat) : (s.rxRemove m).txie = s.txie := rfl
@[simp] theorem State.rxRemove_lineMode (m : Nat) : (s.rxRemove m).lineMode = s.lineMode := rfl
@[simp] theorem State.rxRemove_slaveAddr (m : Nat) : (s.rxRemove m).slaveAddr = s.slaveAddr := rfl
@[simp] theorem State.rxRemove_faultCount (m : Nat) :
    (s.rxRemove m).faultCount = s.faultCount := rfl
@[simp] theorem State.rxRemove_crcFaultCount (m : Nat) :
    (s.rxRemove m).crcFaultCount = s.crcFaultCount := rfl
@[simp] theorem State.rxRemove_persistReq (m : Nat) :
    (s.rxRemove m).persistReq = s.persistReq := rfl
@[simp] theorem State.rxRemove_unlocked (m : Nat) : (s.rxRemove m).unlocked = s.unlocked := rfl
@[simp] theorem State.rxRemove_factoryUnlocked (m : Nat) :
    (s.rxRemove m).factoryUnlocked = s.factoryUnlocked := rfl
@[simp] theorem State.rxRemove_store (m : Nat) : (s.rxRemove m).store = s.store := rfl
@[simp] theorem State.rxRemove_out (m : Nat) : (s.rxRemove m).out = s.out := rfl
@[simp] theorem State.rxRemove_inputs (m : Nat) : (s.rxRemove m).inputs = s.inputs := rfl
@[simp] theorem State.rxRemove_waiting (m : Nat) : (s.rxRemove m).waiting = s.waiting := rfl
@[simp] theorem State.rxRemove_freeCount (m : Nat) : (s.rxRemove m).freeCount = s.freeCount := rfl

@[simp] theorem State.rxClear_cfg : (s.rxClear).cfg = s.cfg := rfl
@[simp] theorem State.rxClear_rx : (s.rxClear).rx = s.rx.clear := rfl
@[simp] theorem State.rxClear_tx : (s.rxClear).tx = s.tx := rfl
@[simp] theorem State.rxClear_rxOverrun : (s.rxClear).rxOverrun = s.rxOverrun := rfl
@[simp] theorem State.rxClear_txOverrun : (s.rxClear).txOverrun = s.txOverrun := rfl
@[simp] theorem State.rxClear_rxPosted : (s.rxClear).rxPosted = s.rxPosted := rfl
@[simp] theorem State.rxClear_q : (s.rxClear).q = s.q := rfl
@[simp] theorem State.rxClear_wdog : (s.rxClear).wdog = s.wdog := rfl
@[simp] theorem State.rxClear_wdogN : (s.rxClear).wdogN = s.wdogN := rfl
@[simp] theorem State.rxClear_ctimer : (s.rxClear).ctimer = s.ctimer := rfl
@[simp] theorem State.rxClear_txInProgress : (s.rxClear).txInProgress = s.txInProgress := rfl
@[simp] theorem State.rxClear_txie : (s.rxClear).txie = s.txie := rfl
@[simp] theorem State.rxClear_lineMode : (s.rxClear).lineMode = s.lineMode := rfl
@[simp] theorem State.rxClear_slaveAddr : (s.rxClear).slaveAddr = s.slaveAddr := rfl
@[simp] theorem State.rxClear_faultCount : (s.rxClear).faultCount = s.faultCount := rfl
@[simp] theorem State.rxClear_crcFaultCount : (s.rxClear).crcFaultCount = s.crcFaultCount := rfl
@[simp] theorem State.rxClear_persistReq : (s.rxClear).persistReq = s.persistReq := rfl
@[simp] theorem State.rxClear_unlocked : (s.rxClear).unlocked = s.unlocked := rfl
@[simp] theorem State.rxClear_factoryUnlocked :
    (s.rxClear).factoryUnlocked = s.factoryUnlocked := rfl
@[simp] theorem State.rxClear_store : (s.rxClear).store = s.store := rfl
@[simp] theorem State.rxClear_out : (s.rxClear).out = s.out := rfl
@[simp] theorem State.rxClear_inputs : (s.rxClear).inputs = s.inputs := rfl
@[simp] theorem State.rxClear_waiting : (s.rxClear).waiting = s.waiting := rfl
@[simp] theorem State.rxClear_freeCount : (s.rxClear).freeCount = s.freeCount := rfl

@[simp] theorem State.emit_cfg (x : Byte) : (s.emit x).cfg = s.cfg := rfl
@[simp] theorem State.emit_rx (x : Byte) : (s.emit x).rx = s.rx := rfl
@[simp] theorem State.emit_tx (x : Byte) :
    (s.emit x).tx = (s.tx.put s.cfg.txCap s.cfg.overwriteAdvancesTail x).1 := rfl
@[simp] theorem State.emit_rxOverrun (x : Byte) : (s.emit x).rxOverrun = s.rxOverrun := rfl
@[simp] theorem State.emit_txOverrun (x : Byte) :
    (s.emit x).txOverrun = (s.txOverrun || (s.tx.put s.cfg.txCap s.cfg.overwriteAdvancesTail x).2) := rfl
@[simp] theorem State.emit_rxPosted (x : Byte) : (s.emit x).rxPosted = s.rxPosted := rfl
@[simp] theorem State.emit_q (x : Byte) : (s.emit x).q = s.q := rfl
@[simp] theorem State.emit_wdog (x : Byte) : (s.emit x).wdog = s.wdog := rfl
@[simp] theorem State.emit_wdogN (x : Byte) : (s.emit x).wdogN = s.wdogN := rfl
@[simp] theorem State.emit_ctimer (x : Byte) : (s.emit x).ctimer = s.ctimer := rfl
@[simp] theorem State.emit_txInProgress (x : Byte) : (s.emit x).txInProgress = s.txInProgress := rfl
@[simp] theorem State.emit_txie (x : Byte) : (s.emit x).txie = s.txie := rfl
@[simp] theorem State.emit_lineMode (x : Byte) : (s.emit x).lineMode = s.lineMode := rfl
@[simp] theorem State.emit_slaveAddr (x : Byte) : (s.emit x).slaveAddr = s.slaveAddr := rfl
@[simp] theorem State.emit_faultCount (x : Byte) : (s.emit x).faultCount = s.faultCount := rfl
@[simp] theorem State.emit_crcFaultCount (x : Byte) :
    (s.emit x).crcFaultCount = s.crcFaultCount := rfl
@[simp] theorem State.emit_persistReq (x : Byte) : (s.emit x).persistReq = s.persistReq := rfl
@[simp] theorem State.emit_unlocked (x : Byte) : (s.emit x).unlocked = s.unlocked := rfl
@[simp] theorem State.emit_factoryUnlocked (x : Byte) :
    (s.emit x).factoryUnlocked = s.factoryUnlocked := rfl
@[simp] theorem State.emit_store (x : Byte) : (s.emit x).store = s.store := rfl
@[simp] theorem State.emit_out (x : Byte) : (s.emit x).out = s.out := rfl
@[simp] theorem State.emit_inputs (x : Byte) : (s.emit x).inputs = s.inputs := rfl
@[simp] theorem State.emit_waiting (x : Byte) : (s.emit x).waiting = s.waiting := rfl
@[simp] theorem State.emit_freeCount (x : Byte) : (s.emit x).freeCount = s.freeCount := rfl

@[simp] theorem State.txClear_cfg : (s.txClear).cfg = s.cfg := rfl
@[simp] theorem State.txClear_rx : (s.txClear).rx = s.rx := rfl
@[simp] theorem State.txClear_tx : (s.txClear).tx = s.tx.clear := rfl
@[simp] theorem State.txClear_rxOverrun : (s.txClear).rxOverrun = s.rxOverrun := rfl
@[simp] theorem State.txClear_txOverrun : (s.txClear).txOverrun = s.txOverrun := rfl
@[simp] theorem State.txClear_rxPosted : (s.txClear).rxPosted = s.rxPosted := rfl
@[simp] theorem State.txClear_q : (s.txClear).q = s.q := rfl
@[simp] theorem State.txClear_wdog : (s.txClear).wdog = s.wdog := rfl
@[simp] theorem State.txClear_wdogN : (s.txClear).wdogN = s.wdogN := rfl
@[simp] theorem State.txClear_ctimer : (s.txClear).ctimer = s.ctimer := rfl
@[simp] theorem State.txClear_txInProgress : (s.txClear).txInProgress = s.txInProgress := rfl
@[simp] theorem State.txClear_txie : (s.txClear).txie = s.txie := rfl
@[simp] theorem State.txClear_lineMode : (s.txClear).lineMode = s.lineMode := rfl
@[simp] theorem State.txClear_slaveAddr : (s.txClear).slaveAddr = s.slaveAddr := rfl
@[simp] theorem State.txClear_faultCount : (s.txClear).faultCount = s.faultCount := rfl
@[simp] theorem State.txClear_crcFaultCount : (s.txClear).crcFaultCount = s.crcFaultCount := rfl
@[simp] theorem State.txClear_persistReq : (s.txClear).persistReq = s.persistReq := rfl
@[simp] theorem State.txClear_unlocked : (s.txClear).unlocked = s.unlocked := rfl
@[simp] theorem State.txClear_factoryUnlocked :
    (s.txClear).factoryUnlocked = s.factoryUnlocked := rfl
@[simp] theorem State.txClear_store : (s.txClear).store = s.store := rfl
@[simp] theorem State.txClear_out : (s.txClear).out = s.out := rfl
@[simp] theorem State.txClear_inputs : (s.txClear).inputs = s.inputs := rfl
@[simp] theorem State.txClear_waiting : (s.txClear).waiting = s.waiting := rfl
@[simp] theorem State.txClear_freeCount : (s.txClear).freeCount = s.freeCount := rfl

@[simp] theorem State.txRollback_cfg (snap : Nat × Nat) : (s.txRollback snap).cfg = s.cfg := rfl
@[simp] theorem State.txRollback_rx (snap : Nat × Nat) : (s.txRollback snap).rx = s.rx := rfl
@[simp] theorem State.txRollback_tx (snap : Nat × Nat) :
    (s.txRollback snap).tx = s.tx.rollback snap := rfl
@[simp] theorem State.txRollback_rxOverrun (snap : Nat × Nat) :
    (s.txRollback snap).rxOverrun = s.rxOverrun := rfl
@[simp] theorem State.txRollback_txOverrun (snap : Nat × Nat) :
    (s.txRollback snap).txOverrun = s.txOverrun := rfl
@[simp] theorem State.txRollback_rxPosted (snap : Nat × Nat) :
    (s.txRollback snap).rxPosted = s.rxPosted := rfl
@[simp] theorem State.txRollback_q (snap : Nat × Nat) : (s.txRollback snap).q = s.q := rfl
@[simp] theorem State.txRollback_wdog (snap : Nat × Nat) : (s.txRollback snap).wdog = s.wdog := rfl
@[simp] theorem State.txRollback_wdogN (snap : Nat × Nat) :
    (s.txRollback snap).wdogN = s.wdogN := rfl
@[simp] theorem State.txRollback_ctimer (snap : Nat × Nat) :
    (s.txRollback snap).ctimer = s.ctimer := rfl
@[simp] theorem State.txRollback_txInProgress (snap : Nat × Nat) :
    (s.txRollback snap).txInProgress = s.txInProgress := rfl
@[simp] theorem State.txRollback_txie (snap : Nat × Nat) : (s.txRollback snap).txie = s.txie := rfl
@[simp] theorem State.txRollback_lineMode (snap : Nat × Nat) :
    (s.txRollback snap).lineMode = s.lineMode := rfl
@[simp] theorem State.txRollback_slaveAddr (snap : Nat × Nat) :
    (s.txRollback snap).slaveAddr = s.slaveAddr := rfl
@[simp] theorem State.txRollback_faultCount (snap : Nat × Nat) :
    (s.txRollback snap).faultCount = s.faultCount := rfl
@[simp] theorem State.txRollback_crcFaultCount (snap : Nat × Nat) :
    (s.txRollback snap).crcFaultCount = s.crcFaultCount := rfl
@[simp] theorem State.txRollback_persistReq (snap : Nat × Nat) :
    (s.txRollback snap).persistReq = s.persistReq := rfl
@[simp] theorem State.txRollback_unlocked (snap : Nat × Nat) :
    (s.txRollback snap).unlocked = s.unlocked := rfl
@[simp] theorem State.txRollback_factoryUnlocked (snap : Nat × Nat) :
    (s.txRollback snap).factoryUnlocked = s.factoryUnlocked := rfl
@[simp] theorem State.txRollback_store (snap : Nat × Nat) :
    (s.txRollback snap).store = s.store := rfl
@[simp] theorem State.txRollback_out (snap : Nat × Nat) : (s.txRollback snap).out = s.out := rfl
@[simp] theorem State.txRollback_inputs (snap : Nat × Nat) :
    (s.txRollback snap).inputs = s.inputs := rfl
@[simp] theorem State.txRollback_waiting (snap : Nat × Nat) :
    (s.txRollback snap).waiting = s.waiting := rfl
@[simp] theorem State.txRollback_freeCount (snap : Nat × Nat) :
    (s.txRollback snap).freeCount = s.freeCount := rfl

@[simp] theorem State.tickTimers_cfg : (s.tickTimers).cfg = s.cfg := rfl
@[simp] theorem State.tickTimers_rx : (s.tickTimers).rx = s.rx := rfl
@[simp] theorem State.tickTimers_tx : (s.tickTimers).tx = s.tx := rfl
@[simp] theorem State.tickTimers_rxOverrun : (s.tickTimers).rxOverrun = s.rxOverrun := rfl
@[simp] theorem State.tickTimers_txOverrun : (s.tickTimers).txOverrun = s.txOverrun := rfl
@[simp] theorem State.tickTimers_rxPosted : (s.tickTimers).rxPosted = s.rxPosted := rfl
@[simp] theorem State.tickTimers_q : (s.tickTimers).q = s.q := rfl
@[simp] theorem State.tickTimers_wdog : (s.tickTimers).wdog = timerTick s.wdog := rfl
@[simp] theorem State.tickTimers_wdogN : (s.tickTimers).wdogN = s.wdogN := rfl
@[simp] theorem State.tickTimers_ctimer :
    (s.tickTimers).ctimer = perClassMap timerTick s.ctimer := rfl
@[simp] theorem State.tickTimers_txInProgress : (s.tickTimers).txInProgress = s.txInProgress := rfl
@[simp] theorem State.tickTimers_txie : (s.tickTimers).txie = s.txie := rfl
@[simp] theorem State.tickTimers_lineMode : (s.tickTimers).lineMode = s.lineMode := rfl
@[simp] theorem State.tickTimers_slaveAddr : (s.tickTimers).slaveAddr = s.slaveAddr := rfl
@[simp] theorem State.tickTimers_faultCount : (s.tickTimers).faultCount = s.faultCount := rfl
@[simp] theorem State.tickTimers_crcFaultCount :
    (s.tickTimers).crcFaultCount = s.crcFaultCount := rfl
@[simp] theorem State.tickTimers_persistReq : (s.tickTimers).persistReq = s.persistReq := rfl
@[simp] theorem State.tickTimers_unlocked : (s.tickTimers).unlocked = s.unlocked := rfl
@[simp] theorem State.tickTimers_factoryUnlocked :
    (s.tickTimers).factoryUnlocked = s.factoryUnlocked := rfl
@[simp] theorem State.tickTimers_store : (s.tickTimers).store = s.store := rfl
@[simp] theorem State.tickTimers_out : (s.tickTimers).out = s.out := rfl
@[simp] theorem State.tickTimers_inputs : (s.tickTimers).inputs = s.inputs := rfl
@[simp] theorem State.tickTimers_waiting : (s.tickTimers).waiting = s.waiting := rfl
@[simp] theorem State.tickTimers_freeCount : (s.tickTimers).freeCount = s.freeCount := rfl

@[simp] theorem State.setClassTimer_cfg (k : RegClass) (t : Timer) :
    (s.setClassTimer k t).cfg = s.cfg := rfl
@[simp] theorem State.setClassTimer_rx (k : RegClass) (t : Timer) :
    (s.setClassTimer k t).rx = s.rx := rfl
@[simp] theorem State.setClassTimer_tx (k : RegClass) (t : Timer) :
    (s.setClassTimer k t).tx = s.tx := rfl
@[simp] theorem State.setClassTimer_rxOverrun (k : RegClass) (t : Timer) :
    (s.setClassTimer k t).rxOverrun = s.rxOverrun := rfl
@[simp] theorem State.setClassTimer_txOverrun (k : RegClass) (t : Timer) :
    (s.setClassTimer k t).txOverrun = s.txOverrun := rfl
@[simp] theorem State.setClassTimer_rxPosted (k : RegClass) (t : Timer) :
    (s.setClassTimer k t).rxPosted = s.rxPosted := rfl
@[simp] theorem State.setClassTimer_q (k : RegClass) (t : Timer) :
    (s.setClassTimer k t).q = s.q := rfl
@[simp] theorem State.setClassTimer_wdog (k : RegClass) (t : Timer) :
    (s.setClassTimer k t).wdog = s.wdog := rfl
@[simp] theorem State.setClassTimer_wdogN (k : RegClass) (t : Timer) :
    (s.setClassTimer k t).wdogN = s.wdogN := rfl
@[simp] theorem State.setClassTimer_ctimer (k : RegClass) (t : Timer) :
    (s.setClassTimer k t).ctimer = perClassSet s.ctimer k t := rfl
@[simp] theorem State.setClassTimer_txInProgress (k : RegClass) (t : Timer) :
    (s.setClassTimer k t).txInProgress = s.txInProgress := rfl
@[simp] theorem State.setClassTimer_txie (k : RegClass) (t : Timer) :
    (s.setClassTimer k t).txie = s.txie := rfl
@[simp] theorem State.setClassTimer_lineMode (k : RegClass) (t : Timer) :
    (s.setClassTimer k t).lineMode = s.lineMode := rfl
@[simp] theorem State.setClassTimer_slaveAddr (k : RegClass) (t : Timer) :
    (s.setClassTimer k t).slaveAddr = s.slaveAddr := rfl
@[simp] theorem State.setClassTimer_faultCount (k : RegClass) (t : Timer) :
    (s.setClassTimer k t).faultCount = s.faultCount := rfl
@[simp] theorem State.setClassTimer_crcFaultCount (k : RegClass) (t : Timer) :
    (s.setClassTimer k t).crcFaultCount = s.crcFaultCount := rfl
@[simp] theorem State.setClassTimer_persistReq (k : RegClass) (t : Timer) :
    (s.setClassTimer k t).persistReq = s.persistReq := rfl
@[simp] theorem State.setClassTimer_unlocked (k : RegClass) (t : Timer) :
    (s.setClassTimer k t).unlocked = s.unlocked := rfl
@[simp] theorem State.setClassTimer_factoryUnlocked (k : RegClass) (t : Timer) :
    (s.setClassTimer k t).factoryUnlocked = s.factoryUnlocked := rfl
@[simp] theorem State.setClassTimer_store (k : RegClass) (t : Timer) :
    (s.setClassTimer k t).store = s.store := rfl
@[simp] theorem State.setClassTimer_out (k : RegClass) (t : Timer) :
    (s.setClassTimer k t).out = s.out := rfl
@[simp] theorem State.setClassTimer_inputs (k : RegClass) (t : Timer) :
    (s.setClassTimer k t).inputs = s.inputs := rfl
@[simp] theorem State.setClassTimer_waiting (k : RegClass) (t : Timer) :
    (s.setClassTimer k t).waiting = s.waiting := rfl
@[simp] theorem State.setClassTimer_freeCount (k : RegClass) (t : Timer) :
    (s.setClassTimer k t).freeCount = s.freeCount := rfl

@[simp] theorem State.armClass_cfg (k : RegClass) (n : Nat) : (s.armClass k n).cfg = s.cfg := rfl
@[simp] theorem State.armClass_rx (k : RegClass) (n : Nat) : (s.armClass k n).rx = s.rx := rfl
@[simp] theorem State.armClass_tx (k : RegClass) (n : Nat) : (s.armClass k n).tx = s.tx := rfl
@[simp] theorem State.armClass_rxOverrun (k : RegClass) (n : Nat) :
    (s.armClass k n).rxOverrun = s.rxOverrun := rfl
@[simp] theorem State.armClass_txOverrun (k : RegClass) (n : Nat) :
    (s.armClass k n).txOverrun = s.txOverrun := rfl
@[simp] theorem State.armClass_rxPosted (k : RegClass) (n : Nat) :
    (s.armClass k n).rxPosted = s.rxPosted := rfl
@[simp] theorem State.armClass_q (k : RegClass) (n : Nat) : (s.armClass k n).q = s.q := rfl
@[simp] theorem State.armClass_wdog (k : RegClass) (n : Nat) : (s.armClass k n).wdog = s.wdog := rfl
@[simp] theorem State.armClass_wdogN (k : RegClass) (n : Nat) :
    (s.armClass k n).wdogN = s.wdogN := rfl
@[simp] theorem State.armClass_ctimer (k : RegClass) (n : Nat) :
    (s.armClass k n).ctimer = perClassSet s.ctimer k (.running n) := rfl
@[simp] theorem State.armClass_txInProgress (k : RegClass) (n : Nat) :
    (s.armClass k n).txInProgress = s.txInProgress := rfl
@[simp] theorem State.armClass_txie (k : RegClass) (n : Nat) : (s.armClass k n).txie = s.txie := rfl
@[simp] theorem State.armClass_lineMode (k : RegClass) (n : Nat) :
    (s.armClass k n).lineMode = s.lineMode := rfl
@[simp] theorem State.armClass_slaveAddr (k : RegClass) (n : Nat) :
    (s.armClass k n).slaveAddr = s.slaveAddr := rfl
@[simp] theorem State.armClass_faultCount (k : RegClass) (n : Nat) :
    (s.armClass k n).faultCount = s.faultCount := rfl
@[simp] theorem State.armClass_crcFaultCount (k : RegClass) (n : Nat) :
    (s.armClass k n).crcFaultCount = s.crcFaultCount := rfl
@[simp] theorem State.armClass_persistReq (k : RegClass) (n : Nat) :
    (s.armClass k n).persistReq = s.persistReq := rfl
@[simp] theorem State.armClass_unlocked (k : RegClass) (n : Nat) :
    (s.armClass k n).unlocked = s.unlocked := rfl
@[simp] theorem State.armClass_factoryUnlocked (k : RegClass) (n : Nat) :
    (s.armClass k n).factoryUnlocked = s.factoryUnlocked := rfl
@[simp] theorem State.armClass_store (k : RegClass) (n : Nat) :
    (s.armClass k n).store = s.store := rfl
@[simp] theorem State.armClass_out (k : RegClass) (n : Nat) : (s.armClass k n).out = s.out := rfl
@[simp] theorem State.armClass_inputs (k : RegClass) (n : Nat) :
    (s.armClass k n).inputs = s.inputs := rfl
@[simp] theorem State.armClass_waiting (k : RegClass) (n : Nat) :
    (s.armClass k n).waiting = s.waiting := rfl
@[simp] theorem State.armClass_freeCount (k : RegClass) (n : Nat) :
    (s.armClass k n).freeCount = s.freeCount := rfl

@[simp] theorem State.wdogArm_cfg (n : Nat) : (s.wdogArm n).cfg = s.cfg := rfl
@[simp] theorem State.wdogArm_rx (n : Nat) : (s.wdogArm n).rx = s.rx := rfl
@[simp] theorem State.wdogArm_tx (n : Nat) : (s.wdogArm n).tx = s.tx := rfl
@[simp] theorem State.wdogArm_rxOverrun (n : Nat) : (s.wdogArm n).rxOverrun = s.rxOverrun := rfl
@[simp] theorem State.wdogArm_txOverrun (n : Nat) : (s.wdogArm n).txOverrun = s.txOverrun := rfl
@[simp] theorem State.wdogArm_rxPosted (n : Nat) : (s.wdogArm n).rxPosted = s.rxPosted := rfl
@[simp] theorem State.wdogArm_q (n : Nat) : (s.wdogArm n).q = s.q := rfl
@[simp] theorem State.wdogArm_wdog (n : Nat) : (s.wdogArm n).wdog = .running s.cfg.tWdog := rfl
@[simp] theorem State.wdogArm_wdogN (n : Nat) : (s.wdogArm n).wdogN = n := rfl
@[simp] theorem State.wdogArm_ctimer (n : Nat) : (s.wdogArm n).ctimer = s.ctimer := rfl
@[simp] theorem State.wdogArm_txInProgress (n : Nat) :
    (s.wdogArm n).txInProgress = s.txInProgress := rfl
@[simp] theorem State.wdogArm_txie (n : Nat) : (s.wdogArm n).txie = s.txie := rfl
@[simp] theorem State.wdogArm_lineMode (n : Nat) : (s.wdogArm n).lineMode = s.lineMode := rfl
@[simp] theorem State.wdogArm_slaveAddr (n : Nat) : (s.wdogArm n).slaveAddr = s.slaveAddr := rfl
@[simp] theorem State.wdogArm_faultCount (n : Nat) : (s.wdogArm n).faultCount = s.faultCount := rfl
@[simp] theorem State.wdogArm_crcFaultCount (n : Nat) :
    (s.wdogArm n).crcFaultCount = s.crcFaultCount := rfl
@[simp] theorem State.wdogArm_persistReq (n : Nat) : (s.wdogArm n).persistReq = s.persistReq := rfl
@[simp] theorem State.wdogArm_unlocked (n : Nat) : (s.wdogArm n).unlocked = s.unlocked := rfl
@[simp] theorem State.wdogArm_factoryUnlocked (n : Nat) :
    (s.wdogArm n).factoryUnlocked = s.factoryUnlocked := rfl
@[simp] theorem State.wdogArm_store (n : Nat) : (s.wdogArm n).store = s.store := rfl
@[simp] theorem State.wdogArm_out (n : Nat) : (s.wdogArm n).out = s.out := rfl
@[simp] theorem State.wdogArm_inputs (n : Nat) : (s.wdogArm n).inputs = s.inputs := rfl
@[simp] theorem State.wdogArm_waiting (n : Nat) : (s.wdogArm n).waiting = s.waiting := rfl
@[simp] theorem State.wdogArm_freeCount (n : Nat) : (s.wdogArm n).freeCount = s.freeCount := rfl

@[simp] theorem State.wdogCancel_cfg : (s.wdogCancel).cfg = s.cfg := rfl
@[simp] theorem State.wdogCancel_rx : (s.wdogCancel).rx = s.rx := rfl
@[simp] theorem State.wdogCancel_tx : (s.wdogCancel).tx = s.tx := rfl
@[simp] theorem State.wdogCancel_rxOverrun : (s.wdogCancel).rxOverrun = s.rxOverrun := rfl
@[simp] theorem State.wdogCancel_txOverrun : (s.wdogCancel).txOverrun = s.txOverrun := rfl
@[simp] theorem State.wdogCancel_rxPosted : (s.wdogCancel).rxPosted = s.rxPosted := rfl
@[simp] theorem State.wdogCancel_q : (s.wdogCancel).q = s.q := rfl
@[simp] theorem State.wdogCancel_wdog : (s.wdogCancel).wdog = .off := rfl
@[simp] theorem State.wdogCancel_wdogN : (s.wdogCancel).wdogN = s.wdogN := rfl
@[simp] theorem State.wdogCancel_ctimer : (s.wdogCancel).ctimer = s.ctimer := rfl
@[simp] theorem State.wdogCancel_txInProgress : (s.wdogCancel).txInProgress = s.txInProgress := rfl
@[simp] theorem State.wdogCancel_txie : (s.wdogCancel).txie = s.txie := rfl
@[simp] theorem State.wdogCancel_lineMode : (s.wdogCancel).lineMode = s.lineMode := rfl
@[simp] theorem State.wdogCancel_slaveAddr : (s.wdogCancel).slaveAddr = s.slaveAddr := rfl
@[simp] theorem State.wdogCancel_faultCount : (s.wdogCancel).faultCount = s.faultCount := rfl
@[simp] theorem State.wdogCancel_crcFaultCount :
    (s.wdogCancel).crcFaultCount = s.crcFaultCount := rfl
@[simp] theorem State.wdogCancel_persistReq : (s.wdogCancel).persistReq = s.persistReq := rfl
@[simp] theorem State.wdogCancel_unlocked : (s.wdogCancel).unlocked = s.unlocked := rfl
@[simp] theorem State.wdogCancel_factoryUnlocked :
    (s.wdogCancel).factoryUnlocked = s.factoryUnlocked := rfl
@[simp] theorem State.wdogCancel_store : (s.wdogCancel).store = s.store := rfl
@[simp] theorem State.wdogCancel_out : (s.wdogCancel).out = s.out := rfl
@[simp] theorem State.wdogCancel_inputs : (s.wdogCancel).inputs = s.inputs := rfl
@[simp] theorem State.wdogCancel_waiting : (s.wdogCancel).waiting = s.waiting := rfl
@[simp] theorem State.wdogCancel_freeCount : (s.wdogCancel).freeCount = s.freeCount := rfl

@[simp] theorem State.discardHead_cfg : (s.discardHead).cfg = s.cfg := rfl
@[simp] theorem State.discardHead_rx : (s.discardHead).rx = s.rx := rfl
@[simp] theorem State.discardHead_tx : (s.discardHead).tx = s.tx := rfl
@[simp] theorem State.discardHead_rxOverrun : (s.discardHead).rxOverrun = s.rxOverrun := rfl
@[simp] theorem State.discardHead_txOverrun : (s.discardHead).txOverrun = s.txOverrun := rfl
@[simp] theorem State.discardHead_rxPosted : (s.discardHead).rxPosted = s.rxPosted := rfl
@[simp] theorem State.discardHead_q : (s.discardHead).q = s.q.discardHead s.cfg.qCap := rfl
@[simp] theorem State.discardHead_wdog : (s.discardHead).wdog = s.wdog := rfl
@[simp] theorem State.discardHead_wdogN : (s.discardHead).wdogN = s.wdogN := rfl
@[simp] theorem State.discardHead_ctimer : (s.discardHead).ctimer = s.ctimer := rfl
@[simp] theorem State.discardHead_txInProgress :
    (s.discardHead).txInProgress = s.txInProgress := rfl
@[simp] theorem State.discardHead_txie : (s.discardHead).txie = s.txie := rfl
@[simp] theorem State.discardHead_lineMode : (s.discardHead).lineMode = s.lineMode := rfl
@[simp] theorem State.discardHead_slaveAddr : (s.discardHead).slaveAddr = s.slaveAddr := rfl
@[simp] theorem State.discardHead_faultCount : (s.discardHead).faultCount = s.faultCount := rfl
@[simp] theorem State.discardHead_crcFaultCount :
    (s.discardHead).crcFaultCount = s.crcFaultCount := rfl
@[simp] theorem State.discardHead_persistReq : (s.discardHead).persistReq = s.persistReq := rfl
@[simp] theorem State.discardHead_unlocked : (s.discardHead).unlocked = s.unlocked := rfl
@[simp] theorem State.discardHead_factoryUnlocked :
    (s.discardHead).factoryUnlocked = s.factoryUnlocked := rfl
@[simp] theorem State.discardHead_store : (s.discardHead).store = s.store := rfl
@[simp] theorem State.discardHead_out : (s.discardHead).out = s.out := rfl
@[simp] theorem State.discardHead_inputs : (s.discardHead).inputs = s.inputs := rfl
@[simp] theorem State.discardHead_waiting : (s.discardHead).waiting = s.waiting := rfl
@[simp] theorem State.discardHead_freeCount : (s.discardHead).freeCount = s.freeCount := rfl

@[simp] theorem State.discardTail_cfg : (s.discardTail).cfg = s.cfg := rfl
@[simp] theorem State.discardTail_rx : (s.discardTail).rx = s.rx := rfl
@[simp] theorem State.discardTail_tx : (s.discardTail).tx = s.tx := rfl
@[simp] theorem State.discardTail_rxOverrun : (s.discardTail).rxOverrun = s.rxOverrun := rfl
@[simp] theorem State.discardTail_txOverrun : (s.discardTail).txOverrun = s.txOverrun := rfl
@[simp] theorem State.discardTail_rxPosted : (s.discardTail).rxPosted = s.rxPosted := rfl
@[simp] theorem State.discardTail_q : (s.discardTail).q = s.q.discardTail s.cfg.qCap := rfl
@[simp] theorem State.discardTail_wdog : (s.discardTail).wdog = s.wdog := rfl
@[simp] theorem State.discardTail_wdogN : (s.discardTail).wdogN = s.wdogN := rfl
@[simp] theorem State.discardTail_ctimer : (s.discardTail).ctimer = s.ctimer := rfl
@[simp] theorem State.discardTail_txInProgress :
    (s.discardTail).txInProgress = s.txInProgress := rfl
@[simp] theorem State.discardTail_txie : (s.discardTail).txie = s.txie := rfl
@[simp] theorem State.discardTail_lineMode : (s.discardTail).lineMode = s.lineMode := rfl
@[simp] theorem State.discardTail_slaveAddr : (s.discardTail).slaveAddr = s.slaveAddr := rfl
@[simp] theorem State.discardTail_faultCount : (s.discardTail).faultCount = s.faultCount := rfl
@[simp] theorem State.discardTail_crcFaultCount :
    (s.discardTail).crcFaultCount = s.crcFaultCount := rfl
@[simp] theorem State.discardTail_persistReq : (s.discardTail).persistReq = s.persistReq := rfl
@[simp] theorem State.discardTail_unlocked : (s.discardTail).unlocked = s.unlocked := rfl
@[simp] theorem State.discardTail_factoryUnlocked :
    (s.discardTail).factoryUnlocked = s.factoryUnlocked := rfl
@[simp] theorem State.discardTail_store : (s.discardTail).store = s.store := rfl
@[simp] theorem State.discardTail_out : (s.discardTail).out = s.out := rfl
@[simp] theorem State.discardTail_inputs : (s.discardTail).inputs = s.inputs := rfl
@[simp] theorem State.discardTail_waiting : (s.discardTail).waiting = s.waiting := rfl
@[simp] theorem State.discardTail_freeCount : (s.discardTail).freeCount = s.freeCount := rfl

@[simp] theorem State.output_cfg (e : OutEvent) : (s.output e).cfg = s.cfg := rfl
@[simp] theorem State.output_rx (e : OutEvent) : (s.output e).rx = s.rx := rfl
@[simp] theorem State.output_tx (e : OutEvent) : (s.output e).tx = s.tx := rfl
@[simp] theorem State.output_rxOverrun (e : OutEvent) : (s.output e).rxOverrun = s.rxOverrun := rfl
@[simp] theorem State.output_txOverrun (e : OutEvent) : (s.output e).txOverrun = s.txOverrun := rfl
@[simp] theorem State.output_rxPosted (e : OutEvent) : (s.output e).rxPosted = s.rxPosted := rfl
@[simp] theorem State.output_q (e : OutEvent) : (s.output e).q = s.q := rfl
@[simp] theorem State.output_wdog (e : OutEvent) : (s.output e).wdog = s.wdog := rfl
@[simp] theorem State.output_wdogN (e : OutEvent) : (s.output e).wdogN = s.wdogN := rfl
@[simp] theorem State.output_ctimer (e : OutEvent) : (s.output e).ctimer = s.ctimer := rfl
@[simp] theorem State.output_txInProgress (e : OutEvent) :
    (s.output e).txInProgress = s.txInProgress := rfl
@[simp] theorem State.output_txie (e : OutEvent) : (s.output e).txie = s.txie := rfl
@[simp] theorem State.output_lineMode (e : OutEvent) : (s.output e).lineMode = s.lineMode := rfl
@[simp] theorem State.output_slaveAddr (e : OutEvent) : (s.output e).slaveAddr = s.slaveAddr := rfl
@[simp] theorem State.output_faultCount (e : OutEvent) :
    (s.output e).faultCount = s.faultCount := rfl
@[simp] theorem State.output_crcFaultCount (e : OutEvent) :
    (s.output e).crcFaultCount = s.crcFaultCount := rfl
@[simp] theorem State.output_persistReq (e : OutEvent) :
    (s.output e).persistReq = s.persistReq := rfl
@[simp] theorem State.output_unlocked (e : OutEvent) : (s.output e).unlocked = s.unlocked := rfl
@[simp] theorem State.output_factoryUnlocked (e : OutEvent) :
    (s.output e).factoryUnlocked = s.factoryUnlocked := rfl
@[simp] theorem State.output_store (e : OutEvent) : (s.output e).store = s.store := rfl
@[simp] theorem State.output_out (e : OutEvent) : (s.output e).out = s.out ++ [e] := rfl
@[simp] theorem State.output_inputs (e : OutEvent) : (s.output e).inputs = s.inputs := rfl
@[simp] theorem State.output_waiting (e : OutEvent) : (s.output e).waiting = s.waiting := rfl
@[simp] theorem State.output_freeCount (e : OutEvent) : (s.output e).freeCount = s.freeCount := rfl

@[simp] theorem State.storeWrite_cfg (ref : StorageRef) (v : Value) :
    (s.storeWrite ref v).cfg = s.cfg := rfl
@[simp] theorem State.storeWrite_rx (ref : StorageRef) (v : Value) :
    (s.storeWrite ref v).rx = s.rx := rfl
@[simp] theorem State.storeWrite_tx (ref : StorageRef) (v : Value) :
    (s.storeWrite ref v).tx = s.tx := rfl
@[simp] theorem State.storeWrite_rxOverrun (ref : StorageRef) (v : Value) :
    (s.storeWrite ref v).rxOverrun = s.rxOverrun := rfl
@[simp] theorem State.storeWrite_txOverrun (ref : StorageRef) (v : Value) :
    (s.storeWrite ref v).txOverrun = s.txOverrun := rfl
@[simp] theorem State.storeWrite_rxPosted (ref : StorageRef) (v : Value) :
    (s.storeWrite ref v).rxPosted = s.rxPosted := rfl
@[simp] theorem State.storeWrite_q (ref : StorageRef) (v : Value) :
    (s.storeWrite ref v).q = s.q := rfl
@[simp] theorem State.storeWrite_wdog (ref : StorageRef) (v : Value) :
    (s.storeWrite ref v).wdog = s.wdog := rfl
@[simp] theorem State.storeWrite_wdogN (ref : StorageRef) (v : Value) :
    (s.storeWrite ref v).wdogN = s.wdogN := rfl
@[simp] theorem State.storeWrite_ctimer (ref : StorageRef) (v : Value) :
    (s.storeWrite ref v).ctimer = s.ctimer := rfl
@[simp] theorem State.storeWrite_txInProgress (ref : StorageRef) (v : Value) :
    (s.storeWrite ref v).txInProgress = s.txInProgress := rfl
@[simp] theorem State.storeWrite_txie (ref : StorageRef) (v : Value) :
    (s.storeWrite ref v).txie = s.txie := rfl
@[simp] theorem State.storeWrite_lineMode (ref : StorageRef) (v : Value) :
    (s.storeWrite ref v).lineMode = s.lineMode := rfl
@[simp] theorem State.storeWrite_slaveAddr (ref : StorageRef) (v : Value) :
    (s.storeWrite ref v).slaveAddr = s.slaveAddr := rfl
@[simp] theorem State.storeWrite_faultCount (ref : StorageRef) (v : Value) :
    (s.storeWrite ref v).faultCount = s.faultCount := rfl
@[simp] theorem State.storeWrite_crcFaultCount (ref : StorageRef) (v : Value) :
    (s.storeWrite ref v).crcFaultCount = s.crcFaultCount := rfl
@[simp] theorem State.storeWrite_persistReq (ref : StorageRef) (v : Value) :
    (s.storeWrite ref v).persistReq = s.persistReq := rfl
@[simp] theorem State.storeWrite_unlocked (ref : StorageRef) (v : Value) :
    (s.storeWrite ref v).unlocked = s.unlocked := rfl
@[simp] theorem State.storeWrite_factoryUnlocked (ref : StorageRef) (v : Value) :
    (s.storeWrite ref v).factoryUnlocked = s.factoryUnlocked := rfl
@[simp] theorem State.storeWrite_store (ref : StorageRef) (v : Value) :
    (s.storeWrite ref v).store = storePut s.store ref v := rfl
@[simp] theorem State.storeWrite_out (ref : StorageRef) (v : Value) :
    (s.storeWrite ref v).out = s.out := rfl
@[simp] theorem State.storeWrite_inputs (ref : StorageRef) (v : Value) :
    (s.storeWrite ref v).inputs = s.inputs := rfl
@[simp] theorem State.storeWrite_waiting (ref : StorageRef) (v : Value) :
    (s.storeWrite ref v).waiting = s.waiting := rfl
@[simp] theorem State.storeWrite_freeCount (ref : StorageRef) (v : Value) :
    (s.storeWrite ref v).freeCount = s.freeCount := rfl

@[simp] theorem State.commit_cfg (b : Binding) (v : Value) : (s.commit b v).cfg = s.cfg := rfl
@[simp] theorem State.commit_rx (b : Binding) (v : Value) : (s.commit b v).rx = s.rx := rfl
@[simp] theorem State.commit_tx (b : Binding) (v : Value) : (s.commit b v).tx = s.tx := rfl
@[simp] theorem State.commit_rxOverrun (b : Binding) (v : Value) :
    (s.commit b v).rxOverrun = s.rxOverrun := rfl
@[simp] theorem State.commit_txOverrun (b : Binding) (v : Value) :
    (s.commit b v).txOverrun = s.txOverrun := rfl
@[simp] theorem State.commit_rxPosted (b : Binding) (v : Value) :
    (s.commit b v).rxPosted = s.rxPosted := rfl
@[simp] theorem State.commit_q (b : Binding) (v : Value) : (s.commit b v).q = s.q := rfl
@[simp] theorem State.commit_wdog (b : Binding) (v : Value) : (s.commit b v).wdog = s.wdog := rfl
@[simp] theorem State.commit_wdogN (b : Binding) (v : Value) : (s.commit b v).wdogN = s.wdogN := rfl
@[simp] theorem State.commit_ctimer (b : Binding) (v : Value) :
    (s.commit b v).ctimer = s.ctimer := rfl
@[simp] theorem State.commit_txInProgress (b : Binding) (v : Value) :
    (s.commit b v).txInProgress = s.txInProgress := rfl
@[simp] theorem State.commit_txie (b : Binding) (v : Value) : (s.commit b v).txie = s.txie := rfl
@[simp] theorem State.commit_lineMode (b : Binding) (v : Value) :
    (s.commit b v).lineMode = s.lineMode := rfl
@[simp] theorem State.commit_slaveAddr (b : Binding) (v : Value) :
    (s.commit b v).slaveAddr = s.slaveAddr := rfl
@[simp] theorem State.commit_faultCount (b : Binding) (v : Value) :
    (s.commit b v).faultCount = s.faultCount := rfl
@[simp] theorem State.commit_crcFaultCount (b : Binding) (v : Value) :
    (s.commit b v).crcFaultCount = s.crcFaultCount := rfl
@[simp] theorem State.commit_persistReq (b : Binding) (v : Value) :
    (s.commit b v).persistReq = (s.persistReq || decide (b.perm ≠ .volatile)) := rfl
@[simp] theorem State.commit_unlocked (b : Binding) (v : Value) :
    (s.commit b v).unlocked = s.unlocked := rfl
@[simp] theorem State.commit_factoryUnlocked (b : Binding) (v : Value) :
    (s.commit b v).factoryUnlocked = s.factoryUnlocked := rfl
@[simp] theorem State.commit_store (b : Binding) (v : Value) :
    (s.commit b v).store = storePut s.store b.ref v := rfl
@[simp] theorem State.commit_out (b : Binding) (v : Value) :
    (s.commit b v).out = if b.kind = .annotated then s.out ++ [.sideEffect b.ref] else s.out := rfl
@[simp] theorem State.commit_inputs (b : Binding) (v : Value) :
    (s.commit b v).inputs = s.inputs := rfl
@[simp] theorem State.commit_waiting (b : Binding) (v : Value) :
    (s.commit b v).waiting = s.waiting := rfl
@[simp] theorem State.commit_freeCount (b : Binding) (v : Value) :
    (s.commit b v).freeCount = s.freeCount := rfl

@[simp] theorem State.setFree_cfg (n : Nat) : (s.setFree n).cfg = s.cfg := rfl
@[simp] theorem State.setFree_rx (n : Nat) : (s.setFree n).rx = s.rx := rfl
@[simp] theorem State.setFree_tx (n : Nat) : (s.setFree n).tx = s.tx := rfl
@[simp] theorem State.setFree_rxOverrun (n : Nat) : (s.setFree n).rxOverrun = s.rxOverrun := rfl
@[simp] theorem State.setFree_txOverrun (n : Nat) : (s.setFree n).txOverrun = s.txOverrun := rfl
@[simp] theorem State.setFree_rxPosted (n : Nat) : (s.setFree n).rxPosted = s.rxPosted := rfl
@[simp] theorem State.setFree_q (n : Nat) : (s.setFree n).q = s.q := rfl
@[simp] theorem State.setFree_wdog (n : Nat) : (s.setFree n).wdog = s.wdog := rfl
@[simp] theorem State.setFree_wdogN (n : Nat) : (s.setFree n).wdogN = s.wdogN := rfl
@[simp] theorem State.setFree_ctimer (n : Nat) : (s.setFree n).ctimer = s.ctimer := rfl
@[simp] theorem State.setFree_txInProgress (n : Nat) :
    (s.setFree n).txInProgress = s.txInProgress := rfl
@[simp] theorem State.setFree_txie (n : Nat) : (s.setFree n).txie = s.txie := rfl
@[simp] theorem State.setFree_lineMode (n : Nat) : (s.setFree n).lineMode = s.lineMode := rfl
@[simp] theorem State.setFree_slaveAddr (n : Nat) : (s.setFree n).slaveAddr = s.slaveAddr := rfl
@[simp] theorem State.setFree_faultCount (n : Nat) : (s.setFree n).faultCount = s.faultCount := rfl
@[simp] theorem State.setFree_crcFaultCount (n : Nat) :
    (s.setFree n).crcFaultCount = s.crcFaultCount := rfl
@[simp] theorem State.setFree_persistReq (n : Nat) : (s.setFree n).persistReq = s.persistReq := rfl
@[simp] theorem State.setFree_unlocked (n : Nat) : (s.setFree n).unlocked = s.unlocked := rfl
@[simp] theorem State.setFree_factoryUnlocked (n : Nat) :
    (s.setFree n).factoryUnlocked = s.factoryUnlocked := rfl
@[simp] theorem State.setFree_store (n : Nat) : (s.setFree n).store = s.store := rfl
@[simp] theorem State.setFree_out (n : Nat) : (s.setFree n).out = s.out := rfl
@[simp] theorem State.setFree_inputs (n : Nat) : (s.setFree n).inputs = s.inputs := rfl
@[simp] theorem State.setFree_waiting (n : Nat) : (s.setFree n).waiting = s.waiting := rfl
@[simp] theorem State.setFree_freeCount (n : Nat) : (s.setFree n).freeCount = n := rfl

@[simp] theorem State.acceptFrame_cfg (n : Nat) (k : RegClass) :
    (s.acceptFrame n k).cfg = s.cfg := rfl
@[simp] theorem State.acceptFrame_rx (n : Nat) (k : RegClass) :
    (s.acceptFrame n k).rx = s.rx.remove s.cfg.rxCap s.cfg.emptySentinel n := rfl
@[simp] theorem State.acceptFrame_tx (n : Nat) (k : RegClass) : (s.acceptFrame n k).tx = s.tx := rfl
@[simp] theorem State.acceptFrame_rxOverrun (n : Nat) (k : RegClass) :
    (s.acceptFrame n k).rxOverrun = s.rxOverrun := rfl
@[simp] theorem State.acceptFrame_txOverrun (n : Nat) (k : RegClass) :
    (s.acceptFrame n k).txOverrun = s.txOverrun := rfl
@[simp] theorem State.acceptFrame_rxPosted (n : Nat) (k : RegClass) :
    (s.acceptFrame n k).rxPosted = s.rxPosted := rfl
@[simp] theorem State.acceptFrame_q (n : Nat) (k : RegClass) : (s.acceptFrame n k).q = s.q := rfl
@[simp] theorem State.acceptFrame_wdog (n : Nat) (k : RegClass) :
    (s.acceptFrame n k).wdog = s.wdog := rfl
@[simp] theorem State.acceptFrame_wdogN (n : Nat) (k : RegClass) :
    (s.acceptFrame n k).wdogN = s.wdogN := rfl
@[simp] theorem State.acceptFrame_ctimer (n : Nat) (k : RegClass) :
    (s.acceptFrame n k).ctimer = perClassSet s.ctimer k (.running (perClassGet s.cfg.tClass k)) := rfl
@[simp] theorem State.acceptFrame_txInProgress (n : Nat) (k : RegClass) :
    (s.acceptFrame n k).txInProgress = s.txInProgress := rfl
@[simp] theorem State.acceptFrame_txie (n : Nat) (k : RegClass) :
    (s.acceptFrame n k).txie = s.txie := rfl
@[simp] theorem State.acceptFrame_lineMode (n : Nat) (k : RegClass) :
    (s.acceptFrame n k).lineMode = s.lineMode := rfl
@[simp] theorem State.acceptFrame_slaveAddr (n : Nat) (k : RegClass) :
    (s.acceptFrame n k).slaveAddr = s.slaveAddr := rfl
@[simp] theorem State.acceptFrame_faultCount (n : Nat) (k : RegClass) :
    (s.acceptFrame n k).faultCount = s.faultCount := rfl
@[simp] theorem State.acceptFrame_crcFaultCount (n : Nat) (k : RegClass) :
    (s.acceptFrame n k).crcFaultCount = s.crcFaultCount := rfl
@[simp] theorem State.acceptFrame_persistReq (n : Nat) (k : RegClass) :
    (s.acceptFrame n k).persistReq = s.persistReq := rfl
@[simp] theorem State.acceptFrame_unlocked (n : Nat) (k : RegClass) :
    (s.acceptFrame n k).unlocked = s.unlocked := rfl
@[simp] theorem State.acceptFrame_factoryUnlocked (n : Nat) (k : RegClass) :
    (s.acceptFrame n k).factoryUnlocked = s.factoryUnlocked := rfl
@[simp] theorem State.acceptFrame_store (n : Nat) (k : RegClass) :
    (s.acceptFrame n k).store = s.store := rfl
@[simp] theorem State.acceptFrame_out (n : Nat) (k : RegClass) :
    (s.acceptFrame n k).out = s.out := rfl
@[simp] theorem State.acceptFrame_inputs (n : Nat) (k : RegClass) :
    (s.acceptFrame n k).inputs = s.inputs := rfl
@[simp] theorem State.acceptFrame_waiting (n : Nat) (k : RegClass) :
    (s.acceptFrame n k).waiting = s.waiting := rfl
@[simp] theorem State.acceptFrame_freeCount (n : Nat) (k : RegClass) :
    (s.acceptFrame n k).freeCount = s.freeCount := rfl

end Sys2Proof.Machine
end

