-- ==== Sys2Proof/Laws/Ops.lean ====
section
/-! SUPPORT. What the shared operations over several fields do: emission, the drop action, the
exception path. -/

namespace Sys2Proof.Machine

variable (s : State)

/-! ## Class-indexed values -/

@[simp] theorem perClassGet_set {α : Type} (p : PerClass α) (k j : RegClass) (x : α) :
    perClassGet (perClassSet p k x) j = if j = k then x else perClassGet p j := by
  cases k <;> cases j <;> simp [perClassGet, perClassSet]

@[simp] theorem perClassGet_map {α β : Type} (f : α → β) (p : PerClass α) (k : RegClass) :
    perClassGet (perClassMap f p) k = f (perClassGet p k) := by cases k <;> rfl

@[simp] theorem perClassGet_all {α : Type} (x : α) (k : RegClass) :
    perClassGet (PerClass.all x) k = x := by cases k <;> rfl

/-! ## Emission -/

/-- Emission changes TX and its overrun bit, nothing else. -/
theorem State.emitAll_eq (xs : List Byte) :
    s.emitAll xs = { s with tx := (s.emitAll xs).tx, txOverrun := (s.emitAll xs).txOverrun } := by
  induction xs generalizing s with
  | nil => rfl
  | cons x xs ih =>
    rw [State.emitAll, ih (s.emit x)]
    rfl

@[simp] theorem State.emitAll_cfg (xs : List Byte) : (s.emitAll xs).cfg = s.cfg := by
  rw [s.emitAll_eq xs]
@[simp] theorem State.emitAll_rx (xs : List Byte) : (s.emitAll xs).rx = s.rx := by
  rw [s.emitAll_eq xs]
@[simp] theorem State.emitAll_rxOverrun (xs : List Byte) : (s.emitAll xs).rxOverrun = s.rxOverrun := by
  rw [s.emitAll_eq xs]
@[simp] theorem State.emitAll_rxPosted (xs : List Byte) : (s.emitAll xs).rxPosted = s.rxPosted := by
  rw [s.emitAll_eq xs]
@[simp] theorem State.emitAll_q (xs : List Byte) : (s.emitAll xs).q = s.q := by
  rw [s.emitAll_eq xs]
@[simp] theorem State.emitAll_wdog (xs : List Byte) : (s.emitAll xs).wdog = s.wdog := by
  rw [s.emitAll_eq xs]
@[simp] theorem State.emitAll_wdogN (xs : List Byte) : (s.emitAll xs).wdogN = s.wdogN := by
  rw [s.emitAll_eq xs]
@[simp] theorem State.emitAll_ctimer (xs : List Byte) : (s.emitAll xs).ctimer = s.ctimer := by
  rw [s.emitAll_eq xs]
@[simp] theorem State.emitAll_txInProgress (xs : List Byte) : (s.emitAll xs).txInProgress = s.txInProgress := by
  rw [s.emitAll_eq xs]
@[simp] theorem State.emitAll_txie (xs : List Byte) : (s.emitAll xs).txie = s.txie := by
  rw [s.emitAll_eq xs]
@[simp] theorem State.emitAll_lineMode (xs : List Byte) : (s.emitAll xs).lineMode = s.lineMode := by
  rw [s.emitAll_eq xs]
@[simp] theorem State.emitAll_slaveAddr (xs : List Byte) : (s.emitAll xs).slaveAddr = s.slaveAddr := by
  rw [s.emitAll_eq xs]
@[simp] theorem State.emitAll_faultCount (xs : List Byte) : (s.emitAll xs).faultCount = s.faultCount := by
  rw [s.emitAll_eq xs]
@[simp] theorem State.emitAll_crcFaultCount (xs : List Byte) : (s.emitAll xs).crcFaultCount = s.crcFaultCount := by
  rw [s.emitAll_eq xs]
@[simp] theorem State.emitAll_persistReq (xs : List Byte) : (s.emitAll xs).persistReq = s.persistReq := by
  rw [s.emitAll_eq xs]
@[simp] theorem State.emitAll_unlocked (xs : List Byte) : (s.emitAll xs).unlocked = s.unlocked := by
  rw [s.emitAll_eq xs]
@[simp] theorem State.emitAll_factoryUnlocked (xs : List Byte) : (s.emitAll xs).factoryUnlocked = s.factoryUnlocked := by
  rw [s.emitAll_eq xs]
@[simp] theorem State.emitAll_store (xs : List Byte) : (s.emitAll xs).store = s.store := by
  rw [s.emitAll_eq xs]
@[simp] theorem State.emitAll_out (xs : List Byte) : (s.emitAll xs).out = s.out := by
  rw [s.emitAll_eq xs]
@[simp] theorem State.emitAll_inputs (xs : List Byte) : (s.emitAll xs).inputs = s.inputs := by
  rw [s.emitAll_eq xs]
@[simp] theorem State.emitAll_waiting (xs : List Byte) : (s.emitAll xs).waiting = s.waiting := by
  rw [s.emitAll_eq xs]
@[simp] theorem State.emitAll_freeCount (xs : List Byte) : (s.emitAll xs).freeCount = s.freeCount := by
  rw [s.emitAll_eq xs]

theorem State.emitAll_append (xs ys : List Byte) :
    s.emitAll (xs ++ ys) = (s.emitAll xs).emitAll ys := by
  induction xs generalizing s with
  | nil => rfl
  | cons x xs ih => exact ih (s.emit x)

variable {s} in
/-- Emission keeps the ring invariant of TX. -/
theorem RingOk.emitAll (h : RingOk s.cfg s.cfg.txCap s.tx) (xs : List Byte) :
    RingOk s.cfg s.cfg.txCap (s.emitAll xs).tx := by
  induction xs generalizing s with
  | nil => exact h
  | cons x xs ih => exact ih (s := s.emit x) (h.put x)

/-- Emission does not move TX's head. -/
@[simp] theorem State.emitAll_tx_head (xs : List Byte) : (s.emitAll xs).tx.head = s.tx.head := by
  induction xs generalizing s with
  | nil => rfl
  | cons x xs ih =>
    rw [State.emitAll, ih]
    simp

/-- Emission keeps the canonical form of TX's array. -/
theorem State.emitAll_cells {s : State} (hb : cellsWf s.cfg.txCap s.tx.buf = true)
    (htl : s.tx.tail < s.cfg.txCap) (xs : List Byte) :
    cellsWf s.cfg.txCap (s.emitAll xs).tx.buf = true := by
  induction xs generalizing s with
  | nil => exact hb
  | cons x xs ih =>
    have hcap : 0 < s.cfg.txCap := by omega
    refine ih (s := s.emit x) ?_ ?_
    · rw [State.emit_tx, Ring.put_buf]
      exact cellsWf_write hb htl x
    · rw [State.emit_tx, State.emit_cfg]
      by_cases hlt : s.tx.count < s.cfg.txCap
      · rw [Ring.put_of_lt _ x hlt]
        exact Nat.mod_lt _ hcap
      · rw [Ring.put_of_full _ x hlt]
        by_cases ha : s.cfg.overwriteAdvancesTail
        · simpa [ha] using Nat.mod_lt _ hcap
        · simpa [ha] using htl

/-- What emission of bytes that fit does: they are appended, nothing is overwritten (R69, R112). -/
theorem State.emitAll_fits {s : State} (hb : cellsWf s.cfg.txCap s.tx.buf = true)
    (htl : s.tx.tail < s.cfg.txCap) (ht : s.tx.tail = (s.tx.head + s.tx.count) % s.cfg.txCap)
    (xs : List Byte) (hfit : s.tx.count + xs.length ≤ s.cfg.txCap) :
    (s.emitAll xs).txBytes = s.txBytes ++ xs ∧ (s.emitAll xs).tx.count = s.tx.count + xs.length ∧
      (s.emitAll xs).tx.tail =
        ((s.emitAll xs).tx.head + (s.emitAll xs).tx.count) % s.cfg.txCap ∧
      (s.emitAll xs).txOverrun = s.txOverrun := by
  induction xs generalizing s with
  | nil => exact ⟨by simp [State.emitAll], rfl, ht, rfl⟩
  | cons x xs ih =>
    rw [List.length_cons] at hfit
    have hlt : s.tx.count < s.cfg.txCap := by omega
    have hcap : 0 < s.cfg.txCap := by omega
    have hput := Ring.put_of_lt (r := s.tx) s.cfg.overwriteAdvancesTail x hlt
    obtain ⟨h1, h2, h3, h4⟩ := ih (s := s.emit x)
      (by rw [State.emit_cfg, State.emit_tx, hput]; exact cellsWf_write hb htl x)
      (by rw [State.emit_cfg, State.emit_tx, hput]; exact Nat.mod_lt _ hcap)
      (by rw [State.emit_cfg, State.emit_tx, hput]; simp only [ht, Nat.mod_add_mod]; congr 1)
      (by rw [State.emit_cfg, State.emit_tx, hput]; simp only; omega)
    rw [State.emit_cfg] at h3
    refine ⟨?_, ?_, h3, ?_⟩
    · rw [State.emitAll, h1, State.txBytes, State.emit_cfg, State.emit_tx, Ring.bytes_put hb ht hlt]
      simp [State.txBytes]
    · rw [State.emitAll, h2, State.emit_tx, hput]
      simp only [List.length_cons]
      omega
    · rw [State.emitAll, h4, State.emit_txOverrun, hput, Bool.or_false]

@[simp] theorem State.appendCrc_cfg (i m : Nat) : (s.appendCrc i m).cfg = s.cfg :=
  s.emitAll_cfg _
@[simp] theorem State.appendCrc_rx (i m : Nat) : (s.appendCrc i m).rx = s.rx :=
  s.emitAll_rx _
@[simp] theorem State.appendCrc_rxOverrun (i m : Nat) : (s.appendCrc i m).rxOverrun = s.rxOverrun :=
  s.emitAll_rxOverrun _
@[simp] theorem State.appendCrc_rxPosted (i m : Nat) : (s.appendCrc i m).rxPosted = s.rxPosted :=
  s.emitAll_rxPosted _
@[simp] theorem State.appendCrc_q (i m : Nat) : (s.appendCrc i m).q = s.q :=
  s.emitAll_q _
@[simp] theorem State.appendCrc_wdog (i m : Nat) : (s.appendCrc i m).wdog = s.wdog :=
  s.emitAll_wdog _
@[simp] theorem State.appendCrc_wdogN (i m : Nat) : (s.appendCrc i m).wdogN = s.wdogN :=
  s.emitAll_wdogN _
@[simp] theorem State.appendCrc_ctimer (i m : Nat) : (s.appendCrc i m).ctimer = s.ctimer :=
  s.emitAll_ctimer _
@[simp] theorem State.appendCrc_txInProgress (i m : Nat) : (s.appendCrc i m).txInProgress = s.txInProgress :=
  s.emitAll_txInProgress _
@[simp] theorem State.appendCrc_txie (i m : Nat) : (s.appendCrc i m).txie = s.txie :=
  s.emitAll_txie _
@[simp] theorem State.appendCrc_lineMode (i m : Nat) : (s.appendCrc i m).lineMode = s.lineMode :=
  s.emitAll_lineMode _
@[simp] theorem State.appendCrc_slaveAddr (i m : Nat) : (s.appendCrc i m).slaveAddr = s.slaveAddr :=
  s.emitAll_slaveAddr _
@[simp] theorem State.appendCrc_faultCount (i m : Nat) : (s.appendCrc i m).faultCount = s.faultCount :=
  s.emitAll_faultCount _
@[simp] theorem State.appendCrc_crcFaultCount (i m : Nat) : (s.appendCrc i m).crcFaultCount = s.crcFaultCount :=
  s.emitAll_crcFaultCount _
@[simp] theorem State.appendCrc_persistReq (i m : Nat) : (s.appendCrc i m).persistReq = s.persistReq :=
  s.emitAll_persistReq _
@[simp] theorem State.appendCrc_unlocked (i m : Nat) : (s.appendCrc i m).unlocked = s.unlocked :=
  s.emitAll_unlocked _
@[simp] theorem State.appendCrc_factoryUnlocked (i m : Nat) : (s.appendCrc i m).factoryUnlocked = s.factoryUnlocked :=
  s.emitAll_factoryUnlocked _
@[simp] theorem State.appendCrc_store (i m : Nat) : (s.appendCrc i m).store = s.store :=
  s.emitAll_store _
@[simp] theorem State.appendCrc_out (i m : Nat) : (s.appendCrc i m).out = s.out :=
  s.emitAll_out _
@[simp] theorem State.appendCrc_inputs (i m : Nat) : (s.appendCrc i m).inputs = s.inputs :=
  s.emitAll_inputs _
@[simp] theorem State.appendCrc_waiting (i m : Nat) : (s.appendCrc i m).waiting = s.waiting :=
  s.emitAll_waiting _
@[simp] theorem State.appendCrc_freeCount (i m : Nat) : (s.appendCrc i m).freeCount = s.freeCount :=
  s.emitAll_freeCount _

@[simp] theorem State.emitPrefix_cfg (d : PendingRequest) : (s.emitPrefix d).cfg = s.cfg :=
  s.emitAll_cfg _
@[simp] theorem State.emitPrefix_rx (d : PendingRequest) : (s.emitPrefix d).rx = s.rx :=
  s.emitAll_rx _
@[simp] theorem State.emitPrefix_rxOverrun (d : PendingRequest) : (s.emitPrefix d).rxOverrun = s.rxOverrun :=
  s.emitAll_rxOverrun _
@[simp] theorem State.emitPrefix_rxPosted (d : PendingRequest) : (s.emitPrefix d).rxPosted = s.rxPosted :=
  s.emitAll_rxPosted _
@[simp] theorem State.emitPrefix_q (d : PendingRequest) : (s.emitPrefix d).q = s.q :=
  s.emitAll_q _
@[simp] theorem State.emitPrefix_wdog (d : PendingRequest) : (s.emitPrefix d).wdog = s.wdog :=
  s.emitAll_wdog _
@[simp] theorem State.emitPrefix_wdogN (d : PendingRequest) : (s.emitPrefix d).wdogN = s.wdogN :=
  s.emitAll_wdogN _
@[simp] theorem State.emitPrefix_ctimer (d : PendingRequest) : (s.emitPrefix d).ctimer = s.ctimer :=
  s.emitAll_ctimer _
@[simp] theorem State.emitPrefix_txInProgress (d : PendingRequest) : (s.emitPrefix d).txInProgress = s.txInProgress :=
  s.emitAll_txInProgress _
@[simp] theorem State.emitPrefix_txie (d : PendingRequest) : (s.emitPrefix d).txie = s.txie :=
  s.emitAll_txie _
@[simp] theorem State.emitPrefix_lineMode (d : PendingRequest) : (s.emitPrefix d).lineMode = s.lineMode :=
  s.emitAll_lineMode _
@[simp] theorem State.emitPrefix_slaveAddr (d : PendingRequest) : (s.emitPrefix d).slaveAddr = s.slaveAddr :=
  s.emitAll_slaveAddr _
@[simp] theorem State.emitPrefix_faultCount (d : PendingRequest) : (s.emitPrefix d).faultCount = s.faultCount :=
  s.emitAll_faultCount _
@[simp] theorem State.emitPrefix_crcFaultCount (d : PendingRequest) : (s.emitPrefix d).crcFaultCount = s.crcFaultCount :=
  s.emitAll_crcFaultCount _
@[simp] theorem State.emitPrefix_persistReq (d : PendingRequest) : (s.emitPrefix d).persistReq = s.persistReq :=
  s.emitAll_persistReq _
@[simp] theorem State.emitPrefix_unlocked (d : PendingRequest) : (s.emitPrefix d).unlocked = s.unlocked :=
  s.emitAll_unlocked _
@[simp] theorem State.emitPrefix_factoryUnlocked (d : PendingRequest) : (s.emitPrefix d).factoryUnlocked = s.factoryUnlocked :=
  s.emitAll_factoryUnlocked _
@[simp] theorem State.emitPrefix_store (d : PendingRequest) : (s.emitPrefix d).store = s.store :=
  s.emitAll_store _
@[simp] theorem State.emitPrefix_out (d : PendingRequest) : (s.emitPrefix d).out = s.out :=
  s.emitAll_out _
@[simp] theorem State.emitPrefix_inputs (d : PendingRequest) : (s.emitPrefix d).inputs = s.inputs :=
  s.emitAll_inputs _
@[simp] theorem State.emitPrefix_waiting (d : PendingRequest) : (s.emitPrefix d).waiting = s.waiting :=
  s.emitAll_waiting _
@[simp] theorem State.emitPrefix_freeCount (d : PendingRequest) : (s.emitPrefix d).freeCount = s.freeCount :=
  s.emitAll_freeCount _

/-- `appendCrc` over all of TX puts the CRC of the buffered bytes behind them (R115). -/
theorem State.appendCrc_fits {s : State} (hb : cellsWf s.cfg.txCap s.tx.buf = true)
    (htl : s.tx.tail < s.cfg.txCap) (ht : s.tx.tail = (s.tx.head + s.tx.count) % s.cfg.txCap)
    (hfit : s.tx.count + 2 ≤ s.cfg.txCap) {i : Nat} (hi : i = s.tx.head) :
    (s.appendCrc i s.tx.count).txBytes = withCrc s.txBytes ∧
      (s.appendCrc i s.tx.count).tx.count = s.tx.count + 2 ∧
      (s.appendCrc i s.tx.count).tx.tail = ((s.appendCrc i s.tx.count).tx.head +
        (s.appendCrc i s.tx.count).tx.count) % s.cfg.txCap ∧
      (s.appendCrc i s.tx.count).txOverrun = s.txOverrun := by
  subst hi
  exact State.emitAll_fits hb htl ht _ hfit

/-! ## The drop action -/

@[simp] theorem State.dropFrame_cfg (b : Bool) (r : DropReason) :
    (s.dropFrame b r).cfg = s.cfg := by cases b <;> cases r <;> rfl
@[simp] theorem State.dropFrame_tx (b : Bool) (r : DropReason) :
    (s.dropFrame b r).tx = s.tx := by cases b <;> cases r <;> rfl
@[simp] theorem State.dropFrame_rxOverrun (b : Bool) (r : DropReason) :
    (s.dropFrame b r).rxOverrun = s.rxOverrun := by cases b <;> cases r <;> rfl
@[simp] theorem State.dropFrame_txOverrun (b : Bool) (r : DropReason) :
    (s.dropFrame b r).txOverrun = s.txOverrun := by cases b <;> cases r <;> rfl
@[simp] theorem State.dropFrame_rxPosted (b : Bool) (r : DropReason) :
    (s.dropFrame b r).rxPosted = s.rxPosted := by cases b <;> cases r <;> rfl
@[simp] theorem State.dropFrame_wdog (b : Bool) (r : DropReason) :
    (s.dropFrame b r).wdog = s.wdog := by cases b <;> cases r <;> rfl
@[simp] theorem State.dropFrame_wdogN (b : Bool) (r : DropReason) :
    (s.dropFrame b r).wdogN = s.wdogN := by cases b <;> cases r <;> rfl
@[simp] theorem State.dropFrame_ctimer (b : Bool) (r : DropReason) :
    (s.dropFrame b r).ctimer = s.ctimer := by cases b <;> cases r <;> rfl
@[simp] theorem State.dropFrame_txInProgress (b : Bool) (r : DropReason) :
    (s.dropFrame b r).txInProgress = s.txInProgress := by cases b <;> cases r <;> rfl
@[simp] theorem State.dropFrame_txie (b : Bool) (r : DropReason) :
    (s.dropFrame b r).txie = s.txie := by cases b <;> cases r <;> rfl
@[simp] theorem State.dropFrame_lineMode (b : Bool) (r : DropReason) :
    (s.dropFrame b r).lineMode = s.lineMode := by cases b <;> cases r <;> rfl
@[simp] theorem State.dropFrame_slaveAddr (b : Bool) (r : DropReason) :
    (s.dropFrame b r).slaveAddr = s.slaveAddr := by cases b <;> cases r <;> rfl
@[simp] theorem State.dropFrame_persistReq (b : Bool) (r : DropReason) :
    (s.dropFrame b r).persistReq = s.persistReq := by cases b <;> cases r <;> rfl
@[simp] theorem State.dropFrame_unlocked (b : Bool) (r : DropReason) :
    (s.dropFrame b r).unlocked = s.unlocked := by cases b <;> cases r <;> rfl
@[simp] theorem State.dropFrame_factoryUnlocked (b : Bool) (r : DropReason) :
    (s.dropFrame b r).factoryUnlocked = s.factoryUnlocked := by cases b <;> cases r <;> rfl
@[simp] theorem State.dropFrame_store (b : Bool) (r : DropReason) :
    (s.dropFrame b r).store = s.store := by cases b <;> cases r <;> rfl
@[simp] theorem State.dropFrame_out (b : Bool) (r : DropReason) :
    (s.dropFrame b r).out = s.out := by cases b <;> cases r <;> rfl
@[simp] theorem State.dropFrame_inputs (b : Bool) (r : DropReason) :
    (s.dropFrame b r).inputs = s.inputs := by cases b <;> cases r <;> rfl
@[simp] theorem State.dropFrame_waiting (b : Bool) (r : DropReason) :
    (s.dropFrame b r).waiting = s.waiting := by cases b <;> cases r <;> rfl
@[simp] theorem State.dropFrame_freeCount (b : Bool) (r : DropReason) :
    (s.dropFrame b r).freeCount = s.freeCount := by cases b <;> cases r <;> rfl

theorem State.dropFrame_rx (b : Bool) (r : DropReason) : (s.dropFrame b r).rx = s.rx.clear := by
  cases b <;> cases r <;> rfl

theorem State.dropFrame_q (b : Bool) (r : DropReason) :
    (s.dropFrame b r).q = if b then s.q.discardTail s.cfg.qCap else s.q := by
  cases b <;> cases r <;> rfl

theorem State.dropFrame_faultCount (b : Bool) (r : DropReason) :
    (s.dropFrame b r).faultCount =
      if r = .crcMismatch ∨ r = .unknownFunction then s.faultCount + 1 else s.faultCount := by
  cases b <;> cases r <;> rfl

theorem State.dropFrame_crcFaultCount (b : Bool) (r : DropReason) :
    (s.dropFrame b r).crcFaultCount =
      if r = .crcMismatch then s.crcFaultCount + 1 else s.crcFaultCount := by
  cases b <;> cases r <;> rfl

/-! ## The exception path -/

@[simp] theorem State.sendException_cfg (fc : Byte) (code : ExcCode) :
    (s.sendException fc code).cfg = s.cfg := by cases code <;> simp [State.sendException, State.exceptionFrame, excNumber]
@[simp] theorem State.sendException_rx (fc : Byte) (code : ExcCode) :
    (s.sendException fc code).rx = s.rx := by cases code <;> simp [State.sendException, State.exceptionFrame, excNumber]
@[simp] theorem State.sendException_rxOverrun (fc : Byte) (code : ExcCode) :
    (s.sendException fc code).rxOverrun = s.rxOverrun := by cases code <;> simp [State.sendException, State.exceptionFrame, excNumber]
@[simp] theorem State.sendException_rxPosted (fc : Byte) (code : ExcCode) :
    (s.sendException fc code).rxPosted = s.rxPosted := by cases code <;> simp [State.sendException, State.exceptionFrame, excNumber]
@[simp] theorem State.sendException_q (fc : Byte) (code : ExcCode) :
    (s.sendException fc code).q = s.q := by cases code <;> simp [State.sendException, State.exceptionFrame, excNumber]
@[simp] theorem State.sendException_wdog (fc : Byte) (code : ExcCode) :
    (s.sendException fc code).wdog = s.wdog := by cases code <;> simp [State.sendException, State.exceptionFrame, excNumber]
@[simp] theorem State.sendException_wdogN (fc : Byte) (code : ExcCode) :
    (s.sendException fc code).wdogN = s.wdogN := by cases code <;> simp [State.sendException, State.exceptionFrame, excNumber]
@[simp] theorem State.sendException_ctimer (fc : Byte) (code : ExcCode) :
    (s.sendException fc code).ctimer = s.ctimer := by cases code <;> simp [State.sendException, State.exceptionFrame, excNumber]
@[simp] theorem State.sendException_slaveAddr (fc : Byte) (code : ExcCode) :
    (s.sendException fc code).slaveAddr = s.slaveAddr := by cases code <;> simp [State.sendException, State.exceptionFrame, excNumber]
@[simp] theorem State.sendException_faultCount (fc : Byte) (code : ExcCode) :
    (s.sendException fc code).faultCount = s.faultCount := by cases code <;> simp [State.sendException, State.exceptionFrame, excNumber]
@[simp] theorem State.sendException_crcFaultCount (fc : Byte) (code : ExcCode) :
    (s.sendException fc code).crcFaultCount = s.crcFaultCount := by cases code <;> simp [State.sendException, State.exceptionFrame, excNumber]
@[simp] theorem State.sendException_persistReq (fc : Byte) (code : ExcCode) :
    (s.sendException fc code).persistReq = s.persistReq := by cases code <;> simp [State.sendException, State.exceptionFrame, excNumber]
@[simp] theorem State.sendException_unlocked (fc : Byte) (code : ExcCode) :
    (s.sendException fc code).unlocked = s.unlocked := by cases code <;> simp [State.sendException, State.exceptionFrame, excNumber]
@[simp] theorem State.sendException_factoryUnlocked (fc : Byte) (code : ExcCode) :
    (s.sendException fc code).factoryUnlocked = s.factoryUnlocked := by cases code <;> simp [State.sendException, State.exceptionFrame, excNumber]
@[simp] theorem State.sendException_store (fc : Byte) (code : ExcCode) :
    (s.sendException fc code).store = s.store := by cases code <;> simp [State.sendException, State.exceptionFrame, excNumber]
@[simp] theorem State.sendException_out (fc : Byte) (code : ExcCode) :
    (s.sendException fc code).out = s.out := by cases code <;> simp [State.sendException, State.exceptionFrame, excNumber]
@[simp] theorem State.sendException_inputs (fc : Byte) (code : ExcCode) :
    (s.sendException fc code).inputs = s.inputs := by cases code <;> simp [State.sendException, State.exceptionFrame, excNumber]
@[simp] theorem State.sendException_waiting (fc : Byte) (code : ExcCode) :
    (s.sendException fc code).waiting = s.waiting := by cases code <;> simp [State.sendException, State.exceptionFrame, excNumber]
@[simp] theorem State.sendException_freeCount (fc : Byte) (code : ExcCode) :
    (s.sendException fc code).freeCount = s.freeCount := by cases code <;> simp [State.sendException, State.exceptionFrame, excNumber]

@[simp] theorem State.sendException_txInProgress (fc : Byte) (code : ExcCode) :
    (s.sendException fc code).txInProgress = true := rfl
@[simp] theorem State.sendException_txie (fc : Byte) (code : ExcCode) :
    (s.sendException fc code).txie = true := rfl
@[simp] theorem State.sendException_lineMode (fc : Byte) (code : ExcCode) :
    (s.sendException fc code).lineMode = .transmit := rfl

/-- The 5-byte exception frame (30_encoding.md R61). -/
def exceptionBytes (slave fc : Byte) (code : ExcCode) : List Byte :=
  withCrc [slave, fc ||| 0x80, BitVec.ofNat 8 (excNumber code)]

/-- What sending an exception leaves in TX (R142). -/
theorem State.sendException_tx {s : State} (hb : cellsWf s.cfg.txCap s.tx.buf = true)
    (hcap : 5 ≤ s.cfg.txCap) (fc : Byte) (code : ExcCode) :
    (s.sendException fc code).txBytes = exceptionBytes s.slaveAddr fc code ∧
      (s.sendException fc code).tx.head = 0 ∧ (s.sendException fc code).tx.count = 5 ∧
      (s.sendException fc code).tx.tail = 5 % s.cfg.txCap ∧
      (s.sendException fc code).txOverrun = s.txOverrun := by
  have hcode : 1 ≤ excNumber code ∧ excNumber code ≤ 4 := by cases code <;> decide
  have hlen : ∀ a b c : Byte, s.txClear.tx.count + [a, b, c].length ≤ s.txClear.cfg.txCap := by
    intro a b c
    simp only [State.txClear_tx, State.txClear_cfg, Ring.clear, List.length_cons, List.length_nil]
    omega
  obtain ⟨h1, h2, h3, h4⟩ := State.emitAll_fits (s := s.txClear) (by simpa [Ring.clear] using hb)
    (by simp only [State.txClear_tx, State.txClear_cfg, Ring.clear]; omega)
    (by simp [Ring.clear]) [s.slaveAddr, fc ||| 0x80, BitVec.ofNat 8 (excNumber code)]
    (hlen _ _ _)
  have hhead := State.emitAll_tx_head s.txClear
    [s.slaveAddr, fc ||| 0x80, BitVec.ofNat 8 (excNumber code)]
  generalize hu : s.txClear.emitAll [s.slaveAddr, fc ||| 0x80, BitVec.ofNat 8 (excNumber code)] = u
    at h1 h2 h3 h4 hhead
  have hcfg : u.cfg = s.cfg := by simp [← hu]
  have hbu : cellsWf u.cfg.txCap u.tx.buf = true := by
    rw [hcfg, ← hu]
    exact State.emitAll_cells (s := s.txClear) (by simpa [Ring.clear] using hb)
      (by simp only [State.txClear_tx, State.txClear_cfg, Ring.clear]; omega) _
  have hcount : u.tx.count = 3 := by simpa [Ring.clear] using h2
  have hhead0 : u.tx.head = 0 := by simpa [Ring.clear] using hhead
  have htail : u.tx.tail = (u.tx.head + u.tx.count) % u.cfg.txCap := by rw [hcfg]; exact h3
  obtain ⟨k1, k2, k3, k4⟩ := State.appendCrc_fits (s := u) (i := 0) hbu
    (by rw [htail, hcfg]; exact Nat.mod_lt _ (by omega)) htail (by rw [hcount, hcfg]; omega)
    hhead0.symm
  have hsend : s.sendException fc code = (u.appendCrc 0 3).txStart := by
    rw [State.sendException, State.exceptionFrame, if_pos hcode, ← hu]
  rw [hcount] at k1 k2 k3 k4
  have hhead3 : (u.appendCrc 0 3).tx.head = 0 := by rw [State.appendCrc, State.emitAll_tx_head, hhead0]
  rw [hhead3, k2, hcfg] at k3
  rw [hsend]
  refine ⟨?_, hhead3, k2, by simpa using k3, ?_⟩
  · show (u.appendCrc 0 3).txBytes = _
    rw [k1, h1]
    rfl
  · show (u.appendCrc 0 3).txOverrun = _
    rw [k4, h4]
    rfl

@[simp] theorem State.encException_cfg (d : PendingRequest) (snap : Nat × Nat) (code : ExcCode) :
    (s.encException d snap code).cfg = s.cfg := by
  by_cases h : d.bcast <;> simp [State.encException, h]
@[simp] theorem State.encException_rx (d : PendingRequest) (snap : Nat × Nat) (code : ExcCode) :
    (s.encException d snap code).rx = s.rx := by
  by_cases h : d.bcast <;> simp [State.encException, h]
@[simp] theorem State.encException_rxOverrun (d : PendingRequest) (snap : Nat × Nat) (code : ExcCode) :
    (s.encException d snap code).rxOverrun = s.rxOverrun := by
  by_cases h : d.bcast <;> simp [State.encException, h]
@[simp] theorem State.encException_rxPosted (d : PendingRequest) (snap : Nat × Nat) (code : ExcCode) :
    (s.encException d snap code).rxPosted = s.rxPosted := by
  by_cases h : d.bcast <;> simp [State.encException, h]
@[simp] theorem State.encException_q (d : PendingRequest) (snap : Nat × Nat) (code : ExcCode) :
    (s.encException d snap code).q = s.q := by
  by_cases h : d.bcast <;> simp [State.encException, h]
@[simp] theorem State.encException_wdog (d : PendingRequest) (snap : Nat × Nat) (code : ExcCode) :
    (s.encException d snap code).wdog = s.wdog := by
  by_cases h : d.bcast <;> simp [State.encException, h]
@[simp] theorem State.encException_wdogN (d : PendingRequest) (snap : Nat × Nat) (code : ExcCode) :
    (s.encException d snap code).wdogN = s.wdogN := by
  by_cases h : d.bcast <;> simp [State.encException, h]
@[simp] theorem State.encException_ctimer (d : PendingRequest) (snap : Nat × Nat) (code : ExcCode) :
    (s.encException d snap code).ctimer = s.ctimer := by
  by_cases h : d.bcast <;> simp [State.encException, h]
@[simp] theorem State.encException_slaveAddr (d : PendingRequest) (snap : Nat × Nat) (code : ExcCode) :
    (s.encException d snap code).slaveAddr = s.slaveAddr := by
  by_cases h : d.bcast <;> simp [State.encException, h]
@[simp] theorem State.encException_faultCount (d : PendingRequest) (snap : Nat × Nat) (code : ExcCode) :
    (s.encException d snap code).faultCount = s.faultCount := by
  by_cases h : d.bcast <;> simp [State.encException, h]
@[simp] theorem State.encException_crcFaultCount (d : PendingRequest) (snap : Nat × Nat) (code : ExcCode) :
    (s.encException d snap code).crcFaultCount = s.crcFaultCount := by
  by_cases h : d.bcast <;> simp [State.encException, h]
@[simp] theorem State.encException_persistReq (d : PendingRequest) (snap : Nat × Nat) (code : ExcCode) :
    (s.encException d snap code).persistReq = s.persistReq := by
  by_cases h : d.bcast <;> simp [State.encException, h]
@[simp] theorem State.encException_unlocked (d : PendingRequest) (snap : Nat × Nat) (code : ExcCode) :
    (s.encException d snap code).unlocked = s.unlocked := by
  by_cases h : d.bcast <;> simp [State.encException, h]
@[simp] theorem State.encException_factoryUnlocked (d : PendingRequest) (snap : Nat × Nat) (code : ExcCode) :
    (s.encException d snap code).factoryUnlocked = s.factoryUnlocked := by
  by_cases h : d.bcast <;> simp [State.encException, h]
@[simp] theorem State.encException_store (d : PendingRequest) (snap : Nat × Nat) (code : ExcCode) :
    (s.encException d snap code).store = s.store := by
  by_cases h : d.bcast <;> simp [State.encException, h]
@[simp] theorem State.encException_out (d : PendingRequest) (snap : Nat × Nat) (code : ExcCode) :
    (s.encException d snap code).out = s.out := by
  by_cases h : d.bcast <;> simp [State.encException, h]
@[simp] theorem State.encException_inputs (d : PendingRequest) (snap : Nat × Nat) (code : ExcCode) :
    (s.encException d snap code).inputs = s.inputs := by
  by_cases h : d.bcast <;> simp [State.encException, h]
@[simp] theorem State.encException_waiting (d : PendingRequest) (snap : Nat × Nat) (code : ExcCode) :
    (s.encException d snap code).waiting = s.waiting := by
  by_cases h : d.bcast <;> simp [State.encException, h]
@[simp] theorem State.encException_freeCount (d : PendingRequest) (snap : Nat × Nat) (code : ExcCode) :
    (s.encException d snap code).freeCount = s.freeCount := by
  by_cases h : d.bcast <;> simp [State.encException, h]

@[simp] theorem State.finishFrame_cfg (snap : Nat × Nat) : (s.finishFrame snap).cfg = s.cfg := by
  simp [State.finishFrame]
@[simp] theorem State.finishFrame_rx (snap : Nat × Nat) : (s.finishFrame snap).rx = s.rx := by
  simp [State.finishFrame]
@[simp] theorem State.finishFrame_rxOverrun (snap : Nat × Nat) : (s.finishFrame snap).rxOverrun = s.rxOverrun := by
  simp [State.finishFrame]
@[simp] theorem State.finishFrame_rxPosted (snap : Nat × Nat) : (s.finishFrame snap).rxPosted = s.rxPosted := by
  simp [State.finishFrame]
@[simp] theorem State.finishFrame_q (snap : Nat × Nat) : (s.finishFrame snap).q = s.q := by
  simp [State.finishFrame]
@[simp] theorem State.finishFrame_wdog (snap : Nat × Nat) : (s.finishFrame snap).wdog = s.wdog := by
  simp [State.finishFrame]
@[simp] theorem State.finishFrame_wdogN (snap : Nat × Nat) : (s.finishFrame snap).wdogN = s.wdogN := by
  simp [State.finishFrame]
@[simp] theorem State.finishFrame_ctimer (snap : Nat × Nat) : (s.finishFrame snap).ctimer = s.ctimer := by
  simp [State.finishFrame]
@[simp] theorem State.finishFrame_slaveAddr (snap : Nat × Nat) : (s.finishFrame snap).slaveAddr = s.slaveAddr := by
  simp [State.finishFrame]
@[simp] theorem State.finishFrame_faultCount (snap : Nat × Nat) : (s.finishFrame snap).faultCount = s.faultCount := by
  simp [State.finishFrame]
@[simp] theorem State.finishFrame_crcFaultCount (snap : Nat × Nat) : (s.finishFrame snap).crcFaultCount = s.crcFaultCount := by
  simp [State.finishFrame]
@[simp] theorem State.finishFrame_persistReq (snap : Nat × Nat) : (s.finishFrame snap).persistReq = s.persistReq := by
  simp [State.finishFrame]
@[simp] theorem State.finishFrame_unlocked (snap : Nat × Nat) : (s.finishFrame snap).unlocked = s.unlocked := by
  simp [State.finishFrame]
@[simp] theorem State.finishFrame_factoryUnlocked (snap : Nat × Nat) : (s.finishFrame snap).factoryUnlocked = s.factoryUnlocked := by
  simp [State.finishFrame]
@[simp] theorem State.finishFrame_store (snap : Nat × Nat) : (s.finishFrame snap).store = s.store := by
  simp [State.finishFrame]
@[simp] theorem State.finishFrame_out (snap : Nat × Nat) : (s.finishFrame snap).out = s.out := by
  simp [State.finishFrame]
@[simp] theorem State.finishFrame_inputs (snap : Nat × Nat) : (s.finishFrame snap).inputs = s.inputs := by
  simp [State.finishFrame]
@[simp] theorem State.finishFrame_waiting (snap : Nat × Nat) : (s.finishFrame snap).waiting = s.waiting := by
  simp [State.finishFrame]
@[simp] theorem State.finishFrame_freeCount (snap : Nat × Nat) : (s.finishFrame snap).freeCount = s.freeCount := by
  simp [State.finishFrame]

end Sys2Proof.Machine
end

