-- ==== Sys2Proof/Laws/Bodies.lean ====
section
/-! SUPPORT. What the parts of an encoder body can do: the read loop, the write phase, and a whole
body, each said once. -/

namespace Sys2Proof.Machine

variable (s : State) (d : PendingRequest)

/-! ## Effects that commute with emission -/

theorem State.emitAll_setFree (xs : List Byte) (n : Nat) :
    (s.emitAll xs).setFree n = (s.setFree n).emitAll xs := by
  induction xs generalizing s with
  | nil => rfl
  | cons x xs ih => exact ih (s.emit x)

theorem State.emitAll_commit (xs : List Byte) (bnd : Binding) (v : Value) :
    (s.emitAll xs).commit bnd v = (s.commit bnd v).emitAll xs := by
  induction xs generalizing s with
  | nil => rfl
  | cons x xs ih => exact ih (s.emit x)

theorem State.emitAll_commitAll (xs : List Byte) (vs : List (Binding × Value)) :
    (s.emitAll xs).commitAll vs = (s.commitAll vs).emitAll xs := by
  induction vs generalizing s with
  | nil => rfl
  | cons v vs ih => rw [State.commitAll, State.emitAll_commit, ih]; rfl

/-- Committing values changes the store, the outputs and the persistence request, nothing else. -/
theorem State.commitAll_eq (vs : List (Binding × Value)) :
    s.commitAll vs = { s with
      store := (s.commitAll vs).store
      out := (s.commitAll vs).out
      persistReq := (s.commitAll vs).persistReq } := by
  induction vs generalizing s with
  | nil => rfl
  | cons v vs ih =>
    rw [State.commitAll, ih]
    rfl

theorem State.setFree_commitAll (n : Nat) (vs : List (Binding × Value)) :
    (s.setFree n).commitAll vs = (s.commitAll vs).setFree n := by
  induction vs generalizing s with
  | nil => rfl
  | cons v vs ih => exact ih (s.commit v.1 v.2)

theorem State.commitAll_append (vs ws : List (Binding × Value)) :
    s.commitAll (vs ++ ws) = (s.commitAll vs).commitAll ws := by
  induction vs generalizing s with
  | nil => rfl
  | cons v vs ih => exact ih _

theorem State.check_congr {s t : State} (hc : t.cfg = s.cfg) (hu : t.unlocked = s.unlocked)
    (hf : t.factoryUnlocked = s.factoryUnlocked) (a : Nat) (dir : Dir) :
    t.check d a dir = s.check d a dir := by
  simp only [State.check, hc, hu, hf]

/-! ## The check -/

/-- A read check fails exactly as `readFailure` says, up to the kind of the value. -/
theorem State.check_read (a : Nat) :
    s.check d a .read =
      match lookupFor s.cfg d.cls d.ext a with
      | none => .error .badAddress
      | some bnd => if bnd.perm = .writeOnly then .error .badValue else .ok bnd := by
  unfold State.check
  cases lookupFor s.cfg d.cls d.ext a with
  | none => rfl
  | some bnd => cases h : bnd.perm <;> simp [noPermission, h]

/-! ## The read loop -/

/-- The bytes a read loop emits, the draws it has made, and the code it raises. -/
def readScan (s : State) (d : PendingRequest) (coerce : Value → Nat → Option (List Byte × Nat)) :
    List Nat → Nat → List Byte × Nat × Option ExcCode
  | [], n => ([], n, none)
  | a :: as, n =>
    match s.check d a .read with
    | .error code => ([], n, some code)
    | .ok bnd =>
      match coerce (storeGet s.store bnd.ref) n with
      | none => ([], n, some .slaveFail)
      | some (bytes, n') =>
        (bytes ++ (readScan s d coerce as n').1, (readScan s d coerce as n').2)

theorem readScan_congr {s t : State} (hc : t.cfg = s.cfg) (hu : t.unlocked = s.unlocked)
    (hf : t.factoryUnlocked = s.factoryUnlocked) (hs : t.store = s.store)
    (coerce : Value → Nat → Option (List Byte × Nat)) (as : List Nat) (n : Nat) :
    readScan t d coerce as n = readScan s d coerce as n := by
  induction as generalizing n with
  | nil => rfl
  | cons a as ih => simp only [readScan, State.check_congr d hc hu hf, hs, ih]

/-- What a read loop does: it emits the bytes of the values up to the first that fails. -/
theorem readLoop_eq (coerce : Value → Nat → Option (List Byte × Nat)) (as : List Nat) :
    readLoop d coerce as s =
      match readScan s d coerce as s.freeCount with
      | (bytes, n, none) => .ok ((s.setFree n).emitAll bytes)
      | (bytes, n, some code) => .exc code ((s.setFree n).emitAll bytes) := by
  induction as generalizing s with
  | nil => rfl
  | cons a as ih =>
    rw [readLoop, readScan]
    cases s.check d a .read with
    | error code => rfl
    | ok bnd =>
      cases hc : coerce (storeGet s.store bnd.ref) s.freeCount with
      | none => simp only [hc]; rfl
      | some r =>
        simp only [hc]
        rw [ih]
        rw [readScan_congr (s := s) d (by simp) (by simp) (by simp) (by simp)]
        simp only [State.emitAll_freeCount, State.setFree_freeCount]
        generalize readScan s d coerce as r.2 = w
        obtain ⟨bytes, n, code⟩ := w
        cases code <;>
          simp only [State.emitAll_append, State.emitAll_setFree] <;> rfl

/-! ## The write phase -/

/-- The writes of a request's items up to the first that fails, the draws, and the code raised. -/
def writeScan {ω : Type} (s : State) (d : PendingRequest)
    (coerce : ω → Kind → Nat → Option (Value × Nat)) :
    List (Nat × ω) → Nat → List (Binding × Value) × Nat × Option ExcCode
  | [], n => ([], n, none)
  | (a, w) :: items, n =>
    match s.check d a .write with
    | .error code => ([], n, some code)
    | .ok bnd =>
      match coerce w bnd.kind n with
      | none => ([], n, some .slaveFail)
      | some (v, n') =>
        ((bnd, v) :: (writeScan s d coerce items n').1, (writeScan s d coerce items n').2)

variable {ω : Type} (coerce : ω → Kind → Nat → Option (Value × Nat))

theorem writeScan_congr {s t : State} (hc : t.cfg = s.cfg) (hu : t.unlocked = s.unlocked)
    (hf : t.factoryUnlocked = s.factoryUnlocked) (items : List (Nat × ω)) (n : Nat) :
    writeScan t d coerce items n = writeScan s d coerce items n := by
  induction items generalizing n with
  | nil => rfl
  | cons item items ih => simp only [writeScan, State.check_congr d hc hu hf, ih]

theorem writePlan_eq (items : List (Nat × ω)) (n : Nat) :
    writePlan s d coerce items n =
      match writeScan s d coerce items n with
      | (vs, n', none) => .ok (vs, n')
      | (_, _, some code) => .error code := by
  induction items generalizing n with
  | nil => rfl
  | cons item items ih =>
    obtain ⟨a, w⟩ := item
    rw [writePlan, writeScan]
    cases s.check d a .write with
    | error code => rfl
    | ok bnd =>
      cases hc : coerce w bnd.kind n with
      | none => simp only [hc]
      | some r =>
        simp only [hc]
        rw [ih]
        generalize writeScan s d coerce items r.2 = w
        obtain ⟨vs, n', code⟩ := w
        cases code <;> rfl

theorem writePartial_eq (items : List (Nat × ω)) :
    writePartial d coerce items s =
      match writeScan s d coerce items s.freeCount with
      | (vs, n, none) => .ok ((s.setFree n).commitAll vs)
      | (vs, n, some code) => .exc code ((s.setFree n).commitAll vs) := by
  induction items generalizing s with
  | nil => rfl
  | cons item items ih =>
    obtain ⟨a, w⟩ := item
    rw [writePartial, writeScan]
    cases s.check d a .write with
    | error code => rfl
    | ok bnd =>
      cases hc : coerce w bnd.kind s.freeCount with
      | none => simp only [hc]; rfl
      | some r =>
        simp only [hc]
        rw [ih]
        rw [writeScan_congr (s := s) d coerce (by simp) (by simp) (by simp)]
        simp only [State.commit_freeCount, State.setFree_freeCount]
        generalize writeScan s d coerce items r.2 = w
        obtain ⟨vs, n', code⟩ := w
        cases code <;> rfl

/-- What the write phase does (R141): every value is committed, or it raises; then under PARTIAL the
values before the failing one are committed, under ATOMIC none. -/
theorem writePhase_eq (items : List (Nat × ω)) :
    writePhase d coerce items s =
      match writeScan s d coerce items s.freeCount with
      | (vs, n, none) => .ok ((s.setFree n).commitAll vs)
      | (vs, n, some code) =>
        match s.cfg.writePolicy with
        | .partialWrites => .exc code ((s.setFree n).commitAll vs)
        | .atomicWrites => .exc code s := by
  rw [writePhase]
  cases hp : s.cfg.writePolicy with
  | partialWrites => exact writePartial_eq s d coerce items
  | atomicWrites =>
    simp only [writePlan_eq]
    generalize writeScan s d coerce items s.freeCount = w
    obtain ⟨vs, n', code⟩ := w
    cases code <;> rfl

/-- The write phase with bytes already emitted. -/
theorem writePhase_emitAll (items : List (Nat × ω)) (xs : List Byte) :
    writePhase d coerce items (s.emitAll xs) =
      match writeScan s d coerce items s.freeCount with
      | (vs, n, none) => .ok (((s.setFree n).commitAll vs).emitAll xs)
      | (vs, n, some code) =>
        match s.cfg.writePolicy with
        | .partialWrites => .exc code (((s.setFree n).commitAll vs).emitAll xs)
        | .atomicWrites => .exc code (s.emitAll xs) := by
  rw [writePhase_eq, writeScan_congr (s := s) d coerce (by simp) (by simp) (by simp),
    State.emitAll_freeCount, State.emitAll_cfg]
  generalize writeScan s d coerce items s.freeCount = w
  obtain ⟨vs, n, code⟩ := w
  cases code <;> simp only [State.emitAll_setFree, State.emitAll_commitAll]

/-- The read loop with bytes already emitted. -/
theorem readLoop_emitAll (coerce : Value → Nat → Option (List Byte × Nat)) (as : List Nat)
    (xs : List Byte) :
    readLoop d coerce as (s.emitAll xs) =
      match readScan s d coerce as s.freeCount with
      | (bytes, n, none) => .ok ((s.setFree n).emitAll (xs ++ bytes))
      | (bytes, n, some code) => .exc code ((s.setFree n).emitAll (xs ++ bytes)) := by
  rw [readLoop_eq, readScan_congr (s := s) d (by simp) (by simp) (by simp) (by simp),
    State.emitAll_freeCount]
  generalize readScan s d coerce as s.freeCount = w
  obtain ⟨bytes, n, code⟩ := w
  cases code <;> simp only [State.emitAll_setFree, State.emitAll_append]

/-- A read loop emits at most `w` bytes a value. -/
theorem readScan_length {w : Nat} {coerce : Value → Nat → Option (List Byte × Nat)}
    (hw : ∀ v n r, coerce v n = some r → r.1.length = w) (as : List Nat) (n : Nat) :
    (readScan s d coerce as n).1.length ≤ w * as.length := by
  induction as generalizing n with
  | nil => simp [readScan]
  | cons a as ih =>
    rw [readScan]
    cases s.check d a .read with
    | error code => simp
    | ok bnd =>
      cases hc : coerce (storeGet s.store bnd.ref) n with
      | none => simp [hc]
      | some r =>
        have := ih r.2
        simp only [hc, List.length_append, hw _ _ _ hc, List.length_cons, Nat.mul_succ]
        omega

/-! ## A whole body -/

/-- `t` is `s` with the writes of a body and then the bytes of its frame emitted. -/
def BodyEffect (s t : State) : Prop :=
  ∃ (u : State) (bytes : List Byte), t = u.emitAll bytes ∧ bytes.length ≤ maxBody ∧
    u = { s with
      store := u.store
      out := u.out
      persistReq := u.persistReq
      freeCount := u.freeCount
      slaveAddr := u.slaveAddr } ∧
    (storeWf s.store = true → storeWf u.store = true) ∧
    ((1 ≤ s.slaveAddr.toNat ∧ s.slaveAddr.toNat ≤ 247) →
      1 ≤ u.slaveAddr.toNat ∧ u.slaveAddr.toNat ≤ 247)

variable {s}

theorem BodyEffect.of_emitAll {bytes : List Byte} (h : bytes.length ≤ maxBody) (n : Nat) :
    BodyEffect s ((s.setFree n).emitAll bytes) :=
  ⟨s.setFree n, bytes, rfl, h, rfl, id, id⟩

theorem BodyEffect.refl : BodyEffect s s := BodyEffect.of_emitAll (bytes := []) (by simp) s.freeCount

theorem storeWf_commitAll {s : State} (h : storeWf s.store = true) (vs : List (Binding × Value)) :
    storeWf (s.commitAll vs).store = true := by
  induction vs generalizing s with
  | nil => exact h
  | cons v vs ih => exact ih (s := s.commit v.1 v.2) (storeWf_put h v.1.ref v.2)

theorem State.responsePrefix_length (s : State) (mode : Mode) :
    (s.responsePrefix mode).length ≤ 5 := by
  cases mode <;> simp [State.responsePrefix, bytes32]

/-- How a body may end: OK or an exception, having done what `BodyEffect` says. -/
def BodyOk (s : State) : BodyResult → Prop
  | .ok t => BodyEffect s t
  | .exc _ t => BodyEffect s t ∧ t.slaveAddr = s.slaveAddr
  | .neverQueued => False

theorem BodyOk.writes {ω : Type} {s : State} {d : PendingRequest}
    {coerce : ω → Kind → Nat → Option (Value × Nat)} {items : List (Nat × ω)} {xs ys : List Byte}
    (h : (xs ++ ys).length ≤ maxBody) :
    BodyOk s ((writePhase d coerce items (s.emitAll xs)).andThen fun t => .ok (t.emitAll ys)) := by
  have hu : ∀ vs n zs, zs.length ≤ maxBody →
      BodyEffect s (((s.setFree n).commitAll vs).emitAll zs) := fun vs n zs hz =>
    ⟨(s.setFree n).commitAll vs, zs, rfl, hz, by
        rw [State.setFree_commitAll, State.commitAll_eq]; rfl,
      fun hs => storeWf_commitAll (s := s.setFree n) hs vs, by
        rw [State.commitAll_eq]; exact id⟩
  have hx : xs.length ≤ maxBody := by
    rw [List.length_append] at h
    omega
  rw [writePhase_emitAll]
  generalize writeScan s d coerce items s.freeCount = w
  obtain ⟨vs, n, code⟩ := w
  cases code with
  | none =>
    simp only [BodyResult.andThen, BodyOk, ← State.emitAll_append]
    exact hu vs n _ h
  | some code =>
    cases hp : s.cfg.writePolicy with
    | partialWrites =>
      simp only [BodyResult.andThen, BodyOk]
      refine ⟨hu vs n _ hx, ?_⟩
      rw [State.emitAll_slaveAddr, State.commitAll_eq]
      rfl
    | atomicWrites =>
      simp only [BodyResult.andThen, BodyOk]
      exact ⟨BodyEffect.of_emitAll hx s.freeCount, by simp⟩

theorem BodyOk.reads {s : State} {d : PendingRequest} {w : Nat}
    {coerce : Value → Nat → Option (List Byte × Nat)} {as : List Nat} {xs : List Byte}
    (hw : ∀ v n r, coerce v n = some r → r.1.length = w)
    (h : xs.length + w * as.length ≤ maxBody) :
    BodyOk s (readLoop d coerce as (s.emitAll xs)) := by
  have hl := readScan_length s d hw as s.freeCount
  rw [readLoop_emitAll]
  generalize readScan s d coerce as s.freeCount = r at hl
  obtain ⟨bytes, n, code⟩ := r
  have hb : (xs ++ bytes).length ≤ maxBody := by
    simp only [List.length_append] at hl ⊢
    omega
  cases code with
  | none => exact BodyEffect.of_emitAll hb n
  | some code => exact ⟨BodyEffect.of_emitAll hb n, by simp⟩

theorem BodyOk.exc {s : State} (code : ExcCode) : BodyOk s (.exc code s) := ⟨BodyEffect.refl, rfl⟩

theorem readBits_length {s : State} {d : PendingRequest} {as : List Nat} {bits : List Bool}
    (h : readBits d s as = .ok bits) : bits.length = as.length := by
  induction as generalizing bits with
  | nil =>
    cases h
    rfl
  | cons a as ih =>
    rw [readBits] at h
    cases hc : s.check d a .read with
    | error code => simp [hc] at h
    | ok bnd =>
      cases hb : rdBool (storeGet s.store bnd.ref) with
      | none => simp [hc, hb] at h
      | some b =>
        cases hr : readBits d s as with
        | error code => simp [hc, hb, hr] at h
        | ok bs =>
          simp [hc, hb, hr] at h
          simp [← h, ih hr]

@[simp] theorem packCoils_length (n : Nat) (bits : List Bool) :
    (packCoils n bits).length = (n + 7) / 8 := by simp [packCoils]

/-- The coil read body. -/
theorem BodyOk.coilRead (s : State) (d : PendingRequest) : BodyOk s (coilReadBody d s) := by
  rw [coilReadBody]
  split
  · rename_i h
    cases readBits d s (valueAddrs d.start 1 d.count.toNat) with
    | error code => exact BodyOk.exc code
    | ok bits =>
      simp only [BodyOk, State.emitPrefix, ← State.emitAll_append]
      refine BodyEffect.of_emitAll (n := s.freeCount) ?_
      have := s.responsePrefix_length d.mode
      simp only [List.length_append, List.length_cons, packCoils_length, maxBody]
      omega
  · exact BodyOk.exc _

theorem BodyOk.intRead (s : State) (d : PendingRequest) : BodyOk s (intReadBody d s) := by
  rw [intReadBody]
  split
  · rename_i h
    rw [State.emitPrefix, ← State.emitAll_append]
    refine BodyOk.reads (w := 2) ?_ ?_
    · intro v n r hr
      simp only [Option.map_eq_some_iff] at hr
      obtain ⟨x, -, rfl⟩ := hr
      rfl
    · have := s.responsePrefix_length d.mode
      simp only [List.length_append, List.length_cons, List.length_nil, valueAddrs, List.length_map,
        List.length_range, maxBody]
      omega
  · exact BodyOk.exc _

theorem orderedBytes_length (o : ByteOrder) (u : U32) : (orderedBytes o u).length = 4 := by
  cases o <;> rfl

theorem BodyOk.read32 (s : State) (d : PendingRequest) (coerce : Value → Nat → Option (U32 × Nat))
    (h : d.countEff ≤ 62) : BodyOk s (read32 d coerce s) := by
  rw [Machine.read32, State.emitPrefix, ← State.emitAll_append]
  refine BodyOk.reads (w := 4) ?_ ?_
  · intro v n r hr
    simp only [Option.map_eq_some_iff] at hr
    obtain ⟨x, -, rfl⟩ := hr
    exact orderedBytes_length _ _
  · have := s.responsePrefix_length d.mode
    simp only [List.length_append, List.length_cons, List.length_nil, valueAddrs, List.length_map,
      List.length_range, maxBody]
    omega

theorem BodyOk.longRead (s : State) (d : PendingRequest) (h : d.countEff = d.count.toNat / 2) :
    BodyOk s (longReadBody d s) := by
  rw [longReadBody]
  split
  · exact BodyOk.read32 s d _ (by omega)
  · exact BodyOk.exc _

theorem BodyOk.floatRead (s : State) (d : PendingRequest) (h : d.countEff = d.count.toNat / 2) :
    BodyOk s (floatReadBody d s) := by
  rw [floatReadBody]
  split
  · split
    · exact BodyOk.exc _
    · exact BodyOk.read32 s d _ (by omega)
  · exact BodyOk.exc _

theorem BodyOk.intWrite (s : State) (d : PendingRequest) : BodyOk s (intWriteBody d s) := by
  have := s.responsePrefix_length d.mode
  exact BodyOk.writes (by
    simp only [List.length_append, singleEcho, bytes16, List.length_cons, List.length_nil, maxBody]
    omega)

theorem multiEcho_fits (s : State) (d : PendingRequest) :
    (s.responsePrefix d.mode ++ multiEcho d).length ≤ maxBody := by
  have := s.responsePrefix_length d.mode
  simp only [List.length_append, multiEcho, bytes16, List.length_cons, List.length_nil, maxBody]
  omega

theorem BodyOk.intMulti (s : State) (d : PendingRequest) : BodyOk s (intMultiBody d s) :=
  BodyOk.writes (multiEcho_fits s d)

theorem BodyOk.longMulti (s : State) (d : PendingRequest) : BodyOk s (longMultiBody d s) := by
  rw [longMultiBody]
  split
  · exact BodyOk.writes (multiEcho_fits s d)
  · exact BodyOk.exc _

theorem BodyOk.floatMulti (s : State) (d : PendingRequest) : BodyOk s (floatMultiBody d s) := by
  rw [floatMultiBody]
  split
  · split
    · exact BodyOk.exc _
    · exact BodyOk.writes (multiEcho_fits s d)
  · exact BodyOk.exc _

@[simp] theorem diagBytes_length (store : List (Nat × Value)) (tune : U16) :
    (diagBytes store tune).length = 68 := by
  have h : ∀ l : List Nat,
      (l.flatMap fun j => bytes16 (Config.diagSnapshot store tune j)).length = 2 * l.length := by
    intro l
    induction l with
    | nil => rfl
    | cons a l ih =>
      rw [List.flatMap_cons, List.length_append, ih, List.length_cons]
      simp only [bytes16, List.length_cons, List.length_nil]
      omega
  rw [diagBytes, h, List.length_range]

theorem classify_cls (n : Nat) :
    (classify n).cls = .int ∨ (classify n).cls = .long ∨ (classify n).cls = .float := by
  simp only [classify]
  split
  · exact .inl rfl
  · split
    · exact .inr (.inl rfl)
    · right
      right
      repeat' split
      all_goals rfl

/-- What the body of any request can do (R112, R116): it ends, its frame fits, and only FORCE_ADDR
changes the slave address. -/
theorem bodyOf_ok (s : State) (i : Instr) : BodyOk s (bodyOf (requestOf i) s) := by
  cases i with
  | rdCoils p start count => exact BodyOk.coilRead _ _
  | rdDiscretes p start count => exact BodyOk.coilRead _ _
  | rdHolding p start count =>
    show BodyOk s (respondRdHolding (requestOf (.rdHolding p start count)) s)
    rw [respondRdHolding]
    have hcls : (requestOf (.rdHolding p start count)).cls = (classify (regNumber start)).cls := rfl
    have heff : (requestOf (.rdHolding p start count)).countEff =
      effectiveCount (classify (regNumber start)).cls count := rfl
    rcases classify_cls (regNumber start) with h | h | h <;> rw [hcls, h] <;> dsimp only
    · exact BodyOk.intRead _ _
    · exact BodyOk.longRead _ _ (by rw [heff, h]; rfl)
    · exact BodyOk.floatRead _ _ (by rw [heff, h]; rfl)
  | rdInput p start count =>
    show BodyOk s (respondRdInput (requestOf (.rdInput p start count)) s)
    rw [respondRdInput]
    have hcls : (requestOf (.rdInput p start count)).cls = (classify (regNumber start)).cls := rfl
    have heff : (requestOf (.rdInput p start count)).countEff =
      effectiveCount (classify (regNumber start)).cls count := rfl
    rcases classify_cls (regNumber start) with h | h | h <;> rw [hcls, h] <;> dsimp only
    · exact BodyOk.intRead _ _
    · exact BodyOk.longRead _ _ (by rw [heff, h]; rfl)
    · exact BodyOk.floatRead _ _ (by rw [heff, h]; rfl)
  | wrCoil p addr value =>
    have := s.responsePrefix_length (requestOf (.wrCoil p addr value)).mode
    exact BodyOk.writes (by
      simp only [List.length_append, singleEcho, bytes16, List.length_cons, List.length_nil, maxBody]
      omega)
  | wrReg p addr value =>
    show BodyOk s (respondWrReg (requestOf (.wrReg p addr value)) s)
    rw [respondWrReg]
    have hcls : (requestOf (.wrReg p addr value)).cls = (classify (regNumber addr)).cls := rfl
    rcases classify_cls (regNumber addr) with h | h | h <;> rw [hcls, h] <;> dsimp only
    · exact BodyOk.intWrite _ _
    · exact BodyOk.exc _
    · exact BodyOk.exc _
  | wrMulti p start count data =>
    show BodyOk s (respondWrMulti (requestOf (.wrMulti p start count data)) s)
    rw [respondWrMulti]
    have hcls : (requestOf (.wrMulti p start count data)).cls = (classify (regNumber start)).cls := rfl
    rcases classify_cls (regNumber start) with h | h | h <;> rw [hcls, h] <;> dsimp only
    · exact BodyOk.intMulti _ _
    · exact BodyOk.longMulti _ _
    · exact BodyOk.floatMulti _ _
  | diagSample p field tune =>
    show BodyOk s (.ok ((s.emitPrefix _).emitAll _))
    simp only [BodyOk, State.emitPrefix, ← State.emitAll_append]
    refine BodyEffect.of_emitAll (n := s.freeCount) ?_
    have := s.responsePrefix_length (requestOf (.diagSample p field tune)).mode
    simp only [List.length_append, List.length_cons, diagBytes_length, maxBody]
    omega
  | forceAddr p serial newAddr =>
    show BodyOk s (respondForceAddr (requestOf (.forceAddr p serial newAddr)) s)
    show BodyOk s (if newAddr.toNat < 1 ∨ 247 < newAddr.toNat then .exc .badValue s else _)
    split
    · exact BodyOk.exc _
    · rename_i h
      simp only [BodyOk, State.emitPrefix, ← State.emitAll_append]
      refine ⟨{ s with slaveAddr := newAddr }, _, rfl, ?_, rfl, id, fun _ => by
        show 1 ≤ newAddr.toNat ∧ newAddr.toNat ≤ 247
        omega⟩
      have := State.responsePrefix_length { s with slaveAddr := newAddr }
        (requestOf (.forceAddr p serial newAddr)).mode
      simp only [List.length_append, List.length_cons, List.length_nil, bytes32, maxBody]
      simp only [payloadByte, requestOf, forceRequest] at this ⊢
      simp only [List.getD_cons_zero] at this ⊢
      omega

end Sys2Proof.Machine
end

