-- ==== Sys2Proof/Laws/Answer.lean ====
section
/-! SUPPORT. How a CLASS_FIRE that answers a request ends, from how its body ends. -/

namespace Sys2Proof.Machine

/-- An offered event is the next one handled. -/
theorem step_offer {s : State} (h : configOk s.cfg = true) (e : Event) :
    step (s.offer e) = handle e s := by
  rw [step, if_pos (show configOk (s.offer e).cfg = true from h)]
  rfl

theorem configOk_txCap {c : Config} (h : configOk c = true) : 259 ≤ c.txCap := by
  simp only [configOk, Bool.and_eq_true, decide_eq_true_eq] at h
  exact h.1.1.1.1.1.2

theorem configOk_rxCap {c : Config} (h : configOk c = true) : 268 ≤ c.rxCap := by
  simp only [configOk, Bool.and_eq_true, decide_eq_true_eq] at h
  exact h.1.1.1.1.1.1

theorem configOk_qCap {c : Config} (h : configOk c = true) : 2 ≤ c.qCap := by
  simp only [configOk, Bool.and_eq_true, decide_eq_true_eq] at h
  exact h.1.1.1.1.2

/-- A due request is answered (R111). -/
theorem Due.fire {d : PendingRequest} {s : State} (h : Due d s) :
    s.fire d.cls = answer d (s.setClassTimer d.cls .off) := by
  have hidle : s.txIdle = true := by
    rw [State.txIdle, h.idle, h.inv.txGate h.idle]
    rfl
  rw [State.fire, step_offer h.inv.config, handle, enabled, h.expired]
  simp [classFire, h.first, hidle]

theorem Due.request {d : PendingRequest} {s : State} (h : Due d s) : RequestOk s.cfg d :=
  h.inv.queue.first_made h.first

/-- TX after emission into an empty TX (R69). -/
theorem State.emitAll_slots {s : State} (hb : cellsWf s.cfg.txCap s.tx.buf = true)
    (htl : s.tx.tail < s.cfg.txCap) (xs : List Byte) (hfit : s.tx.count + xs.length ≤ s.cfg.txCap)
    {j : Nat} (hj : ∀ m < xs.length, j ≠ (s.tx.tail + m) % s.cfg.txCap) :
    cellRead (s.emitAll xs).tx.buf j = cellRead s.tx.buf j := by
  induction xs generalizing s with
  | nil => rfl
  | cons x xs ih =>
    rw [List.length_cons] at hfit
    have hlt : s.tx.count < s.cfg.txCap := by omega
    have hput := Ring.put_of_lt (r := s.tx) s.cfg.overwriteAdvancesTail x hlt
    rw [State.emitAll, ih (s := s.emit x)]
    · rw [State.emit_tx, hput]
      simp only
      rw [cellRead_write hb, if_neg]
      have := hj 0 (by simp)
      rwa [Nat.add_zero, Nat.mod_eq_of_lt htl] at this
    · rw [State.emit_cfg, State.emit_tx, hput]
      exact cellsWf_write hb htl x
    · rw [State.emit_cfg, State.emit_tx, hput]
      exact Nat.mod_lt _ (by omega)
    · rw [State.emit_cfg, State.emit_tx, hput]
      simp only
      omega
    · intro m hm
      rw [State.emit_cfg, State.emit_tx, hput]
      simp only [Nat.mod_add_mod]
      have := hj (m + 1) (by simp; omega)
      rwa [show s.tx.tail + 1 + m = s.tx.tail + (m + 1) by omega]

/-- What the answer of a due request starts from: TX empty and canonical. -/
structure TxReady (s : State) : Prop where
  cap : 259 ≤ s.cfg.txCap
  cells : cellsWf s.cfg.txCap s.tx.buf = true
  tail_lt : s.tx.tail < s.cfg.txCap
  empty : s.tx.count = 0
  head : s.tx.head = s.tx.tail

theorem Due.txReady {d : PendingRequest} {s : State} (h : Due d s) : TxReady s := by
  have hc := h.inv.txGate h.idle
  have ht := h.inv.txTail
  rw [hc, Nat.add_zero, Nat.mod_eq_of_lt h.inv.tx.head_lt] at ht
  exact ⟨configOk_txCap h.inv.config, h.inv.tx.cells, h.inv.tx.tail_lt, hc, ht.symm⟩

theorem TxReady.fits {s : State} (h : TxReady s) (xs : List Byte) (hl : xs.length ≤ maxBody) :
    (s.emitAll xs).txBytes = xs ∧ (s.emitAll xs).tx.count = xs.length ∧
      (s.emitAll xs).tx.tail = (s.tx.tail + xs.length) % s.cfg.txCap ∧
      (s.emitAll xs).txOverrun = s.txOverrun := by
  have hcap := h.cap
  have he := h.empty
  have ht : s.tx.tail = (s.tx.head + s.tx.count) % s.cfg.txCap := by
    rw [h.empty, h.head, Nat.add_zero, Nat.mod_eq_of_lt h.tail_lt]
  obtain ⟨h1, h2, h3, h4⟩ := State.emitAll_fits h.cells h.tail_lt ht xs (by
    rw [he]
    simp only [maxBody] at hl
    omega)
  have hb : s.txBytes = [] := by simp [State.txBytes, Ring.bytes, Ring.memRead, he]
  refine ⟨by rw [h1, hb]; rfl, by rw [h2, he]; omega, ?_, h4⟩
  rw [h3, h2, he, State.emitAll_tx_head, h.head]
  congr 1
  omega

/-- What a finished frame leaves (R111, R115). -/
theorem TxReady.finish {s : State} (h : TxReady s) (xs : List Byte) (hl : xs.length ≤ maxBody) :
    ((s.emitAll xs).finishFrame s.tx.snapshot).txBytes = withCrc xs ∧
      ((s.emitAll xs).finishFrame s.tx.snapshot).txOverrun = s.txOverrun ∧
      ((s.emitAll xs).finishFrame s.tx.snapshot).tx.count = xs.length + 2 ∧
      ((s.emitAll xs).finishFrame s.tx.snapshot).tx.head = s.tx.head ∧
      ((s.emitAll xs).finishFrame s.tx.snapshot).tx.tail =
        (s.tx.head + (xs.length + 2)) % s.cfg.txCap ∧
      ∀ j, (∀ m < (withCrc xs).length, j ≠ (s.tx.tail + m) % s.cfg.txCap) →
        cellRead ((s.emitAll xs).finishFrame s.tx.snapshot).tx.buf j = cellRead s.tx.buf j := by
  have hcap := h.cap
  obtain ⟨h1, h2, h3, h4⟩ := h.fits xs hl
  simp only [maxBody] at hl
  have hcells := State.emitAll_cells h.cells h.tail_lt xs
  have htl : (s.emitAll xs).tx.tail < (s.emitAll xs).cfg.txCap := by
    rw [h3, State.emitAll_cfg]
    exact Nat.mod_lt _ (by omega)
  have ht : (s.emitAll xs).tx.tail =
      ((s.emitAll xs).tx.head + (s.emitAll xs).tx.count) % (s.emitAll xs).cfg.txCap := by
    rw [h3, h2, State.emitAll_tx_head, h.head, State.emitAll_cfg]
  have hfin : (s.emitAll xs).finishFrame s.tx.snapshot =
      ((s.emitAll xs).appendCrc s.tx.tail (s.emitAll xs).tx.count).txStart := by
    simp only [State.finishFrame, Ring.snapshot, h.empty, Nat.sub_zero]
  obtain ⟨k1, k2, k3, k4⟩ := State.appendCrc_fits (s := s.emitAll xs) (i := s.tx.tail)
    (by rw [State.emitAll_cfg]; exact hcells) htl ht (by rw [h2, State.emitAll_cfg]; omega)
    (by rw [State.emitAll_tx_head, h.head])
  have hhead : ((s.emitAll xs).appendCrc s.tx.tail (s.emitAll xs).tx.count).tx.head = s.tx.head := by
    rw [State.appendCrc, State.emitAll_tx_head, State.emitAll_tx_head]
  rw [hfin]
  refine ⟨?_, ?_, ?_, ?_, ?_, ?_⟩
  · exact k1.trans (by rw [h1])
  · exact k4.trans h4
  · exact k2.trans (by rw [h2])
  · exact hhead
  · refine k3.trans ?_
    rw [k2, hhead, h2, State.emitAll_cfg]
  · intro j hj
    have hwl : (withCrc xs).length = xs.length + 2 := by simp [withCrc, crcBytes]
    rw [hwl] at hj
    refine Eq.trans (State.emitAll_slots (s := s.emitAll xs)
      (by rw [State.emitAll_cfg]; exact hcells) htl _ ?_ ?_) ?_
    · rw [h2, State.emitAll_cfg]
      simp only [crcBytes, List.length_cons, List.length_nil]
      omega
    · intro m hm
      have := hj (xs.length + m) (by simp only [crcBytes, List.length_cons, List.length_nil] at hm; omega)
      rw [State.emitAll_cfg, h3, Nat.mod_add_mod, Nat.add_assoc]
      exact this
    · exact State.emitAll_slots h.cells h.tail_lt xs (by rw [h.empty]; omega) fun m hm =>
        hj m (by omega)

/-- What rolling back an unsent body leaves: TX as it was, but for array slots behind it (R74). -/
theorem TxReady.rollback {s : State} (h : TxReady s) (xs : List Byte) (hl : xs.length ≤ maxBody) :
    ((s.emitAll xs).txRollback s.tx.snapshot).tx = { s.tx with buf := (s.emitAll xs).tx.buf } ∧
      (s.emitAll xs).txOverrun = s.txOverrun ∧
      ∀ j, (∀ m < xs.length, j ≠ (s.tx.tail + m) % s.cfg.txCap) →
        cellRead (s.emitAll xs).tx.buf j = cellRead s.tx.buf j := by
  refine ⟨?_, (h.fits xs hl).2.2.2, fun j hj => ?_⟩
  · rw [State.txRollback_tx, Ring.rollback, Ring.snapshot]
    have := State.emitAll_tx_head s xs
    cases hx : (s.emitAll xs).tx
    rw [hx] at this
    simp only at this
    subst this
    rfl
  · have hcap := h.cap
    simp only [maxBody] at hl
    exact State.emitAll_slots h.cells h.tail_lt xs (by rw [h.empty]; omega) hj

/-- `u` is `s` with what a body may write besides TX. -/
def BodyWrote (s u : State) : Prop :=
  u = { s with
    store := u.store
    out := u.out
    persistReq := u.persistReq
    freeCount := u.freeCount
    slaveAddr := u.slaveAddr }

theorem BodyWrote.refl (s : State) : BodyWrote s s := rfl

theorem BodyWrote.commitAll (s : State) (vs : List (Binding × Value)) :
    BodyWrote s (s.commitAll vs) := by
  rw [BodyWrote, State.commitAll_eq]

theorem TxReady.of_wrote {s u : State} (h : TxReady s) (hu : BodyWrote s u) : TxReady u := by
  rw [hu]
  exact ⟨h.cap, h.cells, h.tail_lt, h.empty, h.head⟩

/-- A body that ends OK: the request is answered. `n` is the count of draws after it. -/
theorem Due.answered {d : PendingRequest} {s u : State} {n : Nat} {body : List Byte} (h : Due d s)
    (hu : BodyWrote s u)
    (hb : bodyOf d (s.setClassTimer d.cls .off) =
      .ok (((u.setClassTimer d.cls .off).setFree n).emitAll (u.responsePrefix d.mode ++ body)))
    (hl : (u.responsePrefix d.mode ++ body).length ≤ maxBody) :
    ∃ t, s.fire d.cls = .next t ∧ Answered d u body t := by
  have hq : u.q = s.q := by rw [hu]
  have hcfg : u.cfg = s.cfg := by rw [hu]
  have htx : u.tx = s.tx := by rw [hu]
  have hr : TxReady ((u.setClassTimer d.cls .off).setFree n) := by
    have := h.txReady.of_wrote hu
    exact ⟨this.cap, this.cells, this.tail_lt, this.empty, this.head⟩
  rw [h.fire, answer, hb]
  dsimp only
  simp only [Answered]
  generalize hxs : u.responsePrefix d.mode ++ body = xs at hl ⊢
  have hsnap : (s.setClassTimer d.cls .off).tx.snapshot =
      ((u.setClassTimer d.cls .off).setFree n).tx.snapshot := by
    show s.tx.snapshot = u.tx.snapshot
    rw [htx]
  rw [hsnap]
  generalize hw : (u.setClassTimer d.cls .off).setFree n = w at hr ⊢
  by_cases hbc : d.bcast
  · obtain ⟨k1, k2, k3⟩ := hr.rollback xs hl
    simp only [hbc, if_true]
    refine ⟨_, rfl, ?_, ?_⟩
    · rw [Unsent]
      have htx' : ({ u.tx with buf := (((w.emitAll xs).txRollback w.tx.snapshot).discardHead).tx.buf }
          : Ring) = ((w.emitAll xs).txRollback w.tx.snapshot).tx := by
        rw [k1, ← hw]
        rfl
      rw [htx', State.discardHead, State.txRollback, State.emitAll_eq, k2, ← hw]
      rfl
    · intro j _ hj
      subst hw
      exact k3 j hj
  · obtain ⟨k1, k2, k3, k4, k5, k6⟩ := hr.finish xs hl
    simp only [hbc]
    refine ⟨_, rfl, ⟨?_, k1⟩, ?_⟩
    · rw [State.finishFrame] at k2
      have k2' : (((w.emitAll xs).appendCrc w.tx.snapshot.1
          ((w.emitAll xs).tx.count - w.tx.snapshot.2))).txOverrun = u.txOverrun :=
        k2.trans (by rw [← hw]; rfl)
      rw [State.discardHead, State.finishFrame, State.txStart, State.appendCrc]
      rw [State.appendCrc] at k2'
      rw [State.emitAll_eq, k2', State.emitAll_eq]
      subst hw
      rfl
    · intro j _ hj
      subst hw
      exact k6 j hj

/-- Sending an exception writes slots 0 to 4 of TX only (R142). -/
theorem State.sendException_slots {s : State} (hb : cellsWf s.cfg.txCap s.tx.buf = true)
    (hcap : 5 ≤ s.cfg.txCap) (fc : Byte) (code : ExcCode) {j : Nat} (hj : 5 ≤ j) :
    cellRead (s.sendException fc code).tx.buf j = cellRead s.tx.buf j := by
  have hcode : 1 ≤ excNumber code ∧ excNumber code ≤ 4 := by cases code <;> decide
  have hc : (s.txClear).cfg = s.cfg := rfl
  have hsend : s.sendException fc code =
      (s.txClear.emitAll ([s.slaveAddr, fc ||| 0x80, BitVec.ofNat 8 (excNumber code)] ++
        crcBytes ((s.txClear.emitAll [s.slaveAddr, fc ||| 0x80, BitVec.ofNat 8 (excNumber code)]).tx.crc
          s.cfg.txCap 0 3))).txStart := by
    rw [State.sendException, State.exceptionFrame, if_pos hcode, State.emitAll_append,
      State.appendCrc, State.emitAll_cfg]
    rfl
  rw [hsend]
  refine State.emitAll_slots (s := s.txClear) (by simpa [Ring.clear] using hb)
    (by simp only [State.txClear_tx, State.txClear_cfg, Ring.clear]; omega) _ ?_ ?_
  · simp only [State.txClear_tx, State.txClear_cfg, Ring.clear, crcBytes, List.length_append,
      List.length_cons, List.length_nil]
    omega
  · intro m hm
    simp only [crcBytes, List.length_append, List.length_cons, List.length_nil] at hm
    simp only [State.txClear_tx, State.txClear_cfg, Ring.clear]
    rw [Nat.mod_eq_of_lt (by omega)]
    omega

/-- Sending an exception changes TX and the transmit flags, nothing else. -/
theorem State.sendException_eq {s : State} (hb : cellsWf s.cfg.txCap s.tx.buf = true)
    (hcap : 5 ≤ s.cfg.txCap) (fc : Byte) (code : ExcCode) :
    s.sendException fc code = { s with
      tx := (s.sendException fc code).tx
      txInProgress := true
      txie := true
      lineMode := .transmit } := by
  have h := (State.sendException_tx hb hcap fc code).2.2.2.2
  have hcode : 1 ≤ excNumber code ∧ excNumber code ≤ 4 := by cases code <;> decide
  rw [State.sendException, State.exceptionFrame, if_pos hcode] at h ⊢
  simp only [State.appendCrc] at h ⊢
  rw [← State.emitAll_append] at h ⊢
  have h' : ∀ xs, (s.txClear.emitAll xs).txOverrun = s.txOverrun →
      (s.txClear.emitAll xs).txStart = { s with
        tx := (s.txClear.emitAll xs).tx
        txInProgress := true
        txie := true
        lineMode := .transmit } := by
    intro xs hx
    rw [State.txStart, State.emitAll_eq, hx]
    rfl
  exact h' _ h

/-- A body that raises: its exception is taken (R114, R160). -/
theorem Due.excepted {d : PendingRequest} {s u : State} {n : Nat} {xs : List Byte} {code : ExcCode}
    (h : Due d s) (hu : BodyWrote s u)
    (hb : bodyOf d (s.setClassTimer d.cls .off) =
      .exc code (((u.setClassTimer d.cls .off).setFree n).emitAll xs))
    (hl : xs.length ≤ maxBody) :
    ∃ t, s.fire d.cls = .next t ∧ Excepted d u code t := by
  have hq : u.q = s.q := by rw [hu]
  have htx : u.tx = s.tx := by rw [hu]
  have hr : TxReady ((u.setClassTimer d.cls .off).setFree n) := by
    have := h.txReady.of_wrote hu
    exact ⟨this.cap, this.cells, this.tail_lt, this.empty, this.head⟩
  rw [h.fire, answer, hb]
  simp only [Excepted]
  have hsnap : (s.setClassTimer d.cls .off).tx.snapshot =
      ((u.setClassTimer d.cls .off).setFree n).tx.snapshot := by
    show s.tx.snapshot = u.tx.snapshot
    rw [htx]
  rw [hsnap]
  generalize hw : (u.setClassTimer d.cls .off).setFree n = w at hr ⊢
  obtain ⟨k1, k2, k3⟩ := hr.rollback xs hl
  have hroll : (w.emitAll xs).txRollback w.tx.snapshot =
      { w with tx := { w.tx with buf := (w.emitAll xs).tx.buf } } := by
    rw [← k1]
    rw [State.txRollback, State.emitAll_eq, k2]
  simp only [State.encException, hroll]
  by_cases hbc : d.bcast
  · simp only [hbc, if_true]
    refine ⟨_, rfl, ?_, ?_⟩
    · subst hw
      rfl
    · intro j _ hj
      subst hw
      exact k3 j fun m hm => hj m (by omega)
  · simp only [hbc]
    have hcells : cellsWf w.cfg.txCap (w.emitAll xs).tx.buf = true :=
      State.emitAll_cells hr.cells hr.tail_lt xs
    have hcap := hr.cap
    have hbw : cellsWf w.cfg.txCap
      ({ w with tx := { w.tx with buf := (w.emitAll xs).tx.buf } } : State).tx.buf = true := hcells
    have hs := State.sendException_tx (s := { w with tx := { w.tx with buf := (w.emitAll xs).tx.buf } })
      hbw (by show 5 ≤ w.cfg.txCap; omega) d.fc code
    have he := State.sendException_eq (s := { w with tx := { w.tx with buf := (w.emitAll xs).tx.buf } })
      hbw (by show 5 ≤ w.cfg.txCap; omega) d.fc code
    have hsl := fun j hj => State.sendException_slots
      (s := { w with tx := { w.tx with buf := (w.emitAll xs).tx.buf } })
      hbw (by show 5 ≤ w.cfg.txCap; omega) d.fc code (j := j) hj
    refine ⟨_, rfl, ⟨?_, ?_⟩, hs.2.1, ?_⟩
    · rw [he, State.discardHead]
      subst hw
      rfl
    · refine hs.1.trans ?_
      subst hw
      rfl
    · intro j hj hj'
      refine (hsl j hj).trans ?_
      subst hw
      exact k3 j fun m hm => hj' m (by omega)

end Sys2Proof.Machine
end

