-- ==== Sys2Proof/Laws/Exec.lean ====
section
/-! SUPPORT. What the nine instructions do in RECV, said once: each queues its request, and then
accepts the frame, drops it or answers it. -/

namespace Sys2Proof.Machine

/-- The fields of a ring after some of its bytes are removed (R72). -/
theorem Ring.remove_eq {cap : Nat} {r : Ring} {sentinel : Byte} {m : Nat} (h0 : 0 < m)
    (hm : m ≤ r.count) :
    r.remove cap sentinel m = ⟨r.buf, (r.head + m) % cap, r.tail, r.count - m⟩ := by
  induction m generalizing r with
  | zero => omega
  | succ m ih =>
    rw [Ring.remove, Ring.get_of_pos sentinel (by omega)]
    by_cases h : m = 0
    · subst h
      rfl
    · rw [ih (by omega) (by simp only; omega)]
      simp only [Nat.mod_add_mod, Ring.mk.injEq, true_and]
      refine ⟨?_, by omega⟩
      congr 1
      omega

/-- The length of an instruction's frame by its function and prefix (R58). -/
theorem frameLength_eq (i : Instr) : frameLength i =
    match i with
    | .rdCoils p _ _ | .rdDiscretes p _ _ | .rdHolding p _ _ | .rdInput p _ _ | .wrCoil p _ _
    | .wrReg p _ _ | .diagSample p _ _ => 8 + prefixOffset p
    | .forceAddr p _ _ => 9 + prefixOffset p
    | .wrMulti p _ _ data => 9 + prefixOffset p + data.length := by
  cases i with
  | wrMulti p _ _ data =>
    cases p <;>
      simp [frameLength, encode, withCrc, addressBytes, instrAddress, operandBytes, bytes16, bytes32,
        crcBytes, prefixOffset] <;> omega
  | rdCoils p => cases p <;> rfl
  | rdDiscretes p => cases p <;> rfl
  | rdHolding p => cases p <;> rfl
  | rdInput p => cases p <;> rfl
  | wrCoil p => cases p <;> rfl
  | wrReg p => cases p <;> rfl
  | diagSample p => cases p <;> rfl
  | forceAddr p => cases p <;> rfl

theorem frameLength_pos (i : Instr) : 0 < frameLength i := by
  rw [frameLength_eq]
  cases i <;> simp only <;> omega

variable {s : State}

theorem Queue.create_of_hasRoom (h : s.hasRoom) (d : PendingRequest) :
    s.q.create s.cfg.qCap d =
      some ⟨s.q.slot.set s.q.tail (some d), s.q.head, (s.q.tail + 1) % s.cfg.qCap, s.q.count + 1⟩ := by
  rw [Queue.create_eq, if_neg h]

/-- Accepting a frame whose request is queued (R88). -/
theorem State.acceptFrame_queued {d : PendingRequest} {len : Nat} {k : RegClass} (hk : d.cls = k)
    (h0 : 0 < len) (hl : len ≤ s.rx.count) :
    ({ s with q := ⟨s.q.slot.set s.q.tail (some d), s.q.head, (s.q.tail + 1) % s.cfg.qCap,
        s.q.count + 1⟩ } : State).acceptFrame len k = s.queued d len := by
  subst hk
  simp only [State.acceptFrame, State.rxRemove, Ring.remove_eq h0 hl]
  rfl

/-- What an instruction can do once its request is queued. -/
inductive Finish (s : State) (i : Instr) : (State → State) → Prop where
  /-- Its value check passes: the frame is accepted. -/
  | accept (h : valueChecked s.cfg i) :
    Finish s i fun t => t.acceptFrame (frameLength i) (requestOf i).cls
  /-- WR_COIL or FORCE_ADDR: the frame is dropped. -/
  | drop (h : ¬ valueChecked s.cfg i) (r : DropReason) (hr : r = .malformedCoil ∨ r = .serialMismatch)
      (hf : instrFn i ≠ .wrMulti) : Finish s i fun t => t.dropFrame true r
  /-- WR_MULTI: the byte count is answered. -/
  | answer (h : ¬ valueChecked s.cfg i) (hf : instrFn i = .wrMulti) :
    Finish s i fun t => t.badByteCount (frameLength i) (addressBcast (instrAddress i))

/-- Every instruction queues its request and finishes in one of three ways (R87, R88, R89, R95); with
the queue full its frame is dropped. -/
theorem exec_cases (i : Instr) (s : State) :
    ∃ k, Finish s i k ∧
      exec i s = match s.q.create s.cfg.qCap (requestOf i) with
        | none => .next (s.dropFrame false .queueFull)
        | some q => .next (k { s with q := q }) := by
  cases i with
  | wrCoil p addr value =>
    by_cases h : value ≠ 0xFF00 ∧ value ≠ 0x0000
    · exact ⟨_, .drop (by simpa [valueChecked] using h) .malformedCoil (.inl rfl) (by intro h; cases h), by
        simp only [exec, execWrCoil, State.enqueue, if_pos h]
        all_goals cases s.q.create s.cfg.qCap _ <;> rfl⟩
    · exact ⟨_, .accept (show value = 0xFF00 ∨ value = 0x0000 by tauto), by
        simp only [exec, execWrCoil, State.enqueue, if_neg h]
        all_goals cases s.q.create s.cfg.qCap _ <;> rfl⟩
  | wrMulti p start count data =>
    by_cases h : data.length = 2 * count.toNat ∧ 0 < data.length ∧ data.length ≤ 255
    · exact ⟨_, .accept h, by
        simp only [exec, execWrMulti, State.enqueue, if_pos h]
        all_goals cases s.q.create s.cfg.qCap _ <;> rfl⟩
    · exact ⟨_, .answer h rfl, by
        simp only [exec, execWrMulti, State.enqueue, if_neg h]
        all_goals cases s.q.create s.cfg.qCap _ <;> rfl⟩
  | forceAddr p serial newAddr =>
    by_cases h : serial ≠ s.cfg.pipeSerial
    · exact ⟨_, .drop (i := .forceAddr p serial newAddr) (s := s) h .serialMismatch (.inr rfl) (by intro h; cases h), by
        simp only [exec, execForceAddr, State.enqueue, if_pos h]
        all_goals cases s.q.create s.cfg.qCap _ <;> rfl⟩
    · exact ⟨_, .accept (show serial = s.cfg.pipeSerial by tauto), by
        simp only [exec, execForceAddr, State.enqueue, if_neg h]
        all_goals cases s.q.create s.cfg.qCap _ <;> rfl⟩
  | _ => exact ⟨_, .accept trivial, rfl⟩

/-- An instruction that passes its value check is queued and accepted, when there is room (R87, R88). -/
theorem exec_queued {i : Instr} (hv : valueChecked s.cfg i) (hr : s.hasRoom)
    (hl : frameLength i ≤ s.rx.count) : exec i s = .next (s.queued (requestOf i) (frameLength i)) := by
  obtain ⟨k, hk, he⟩ := exec_cases i s
  rw [he, Queue.create_of_hasRoom hr]
  cases hk with
  | accept _ =>
    simp only
    rw [State.acceptFrame_queued rfl (frameLength_pos i) hl]
  | drop h => exact absurd hv h
  | answer h => exact absurd hv h

end Sys2Proof.Machine
end

