-- ==== Sys2Proof/Laws/PerInstr.lean ====
section
/-! SUPPORT. Per-instruction lemmas. Family FrameLength: the encoder's frame has the length that
FrameLength (30_encoding.md R58, 42_frame_receiver.md R84) computes from its own bytes. -/

namespace Sys2Proof.Laws.FrameLength

open Sys2Proof Sys2Proof.Machine

/-- The encoded frame of a well-formed instruction has the length of R58, at most 268 bytes (R7). -/
def Statement (i : Instr) : Prop :=
  i.wellFormed = true →
    frameLength i = frameLengthOf (instrFn i) (addressOffset (encode i))
        ((encode i).getD (addressOffset (encode i) + 6) 0) ∧
      8 + addressOffset (encode i) ≤ frameLength i ∧ frameLength i ≤ 268

theorem rdCoils (p : Address) (a b : U16) : Statement (.rdCoils p a b) := by
  intro h
  cases p <;>
    simp_all [Instr.wellFormed, Address.wellFormed, frameLength, encode, withCrc, addressBytes,
      instrAddress, instrFn, operandBytes, bytes16, bytes32, crcBytes, frameLengthOf, addressOffset]

theorem rdDiscretes (p : Address) (a b : U16) : Statement (.rdDiscretes p a b) := by
  intro h
  cases p <;>
    simp_all [Instr.wellFormed, Address.wellFormed, frameLength, encode, withCrc, addressBytes,
      instrAddress, instrFn, operandBytes, bytes16, bytes32, crcBytes, frameLengthOf, addressOffset]

theorem rdHolding (p : Address) (a b : U16) : Statement (.rdHolding p a b) := by
  intro h
  cases p <;>
    simp_all [Instr.wellFormed, Address.wellFormed, frameLength, encode, withCrc, addressBytes,
      instrAddress, instrFn, operandBytes, bytes16, bytes32, crcBytes, frameLengthOf, addressOffset]

theorem rdInput (p : Address) (a b : U16) : Statement (.rdInput p a b) := by
  intro h
  cases p <;>
    simp_all [Instr.wellFormed, Address.wellFormed, frameLength, encode, withCrc, addressBytes,
      instrAddress, instrFn, operandBytes, bytes16, bytes32, crcBytes, frameLengthOf, addressOffset]

theorem wrCoil (p : Address) (a b : U16) : Statement (.wrCoil p a b) := by
  intro h
  cases p <;>
    simp_all [Instr.wellFormed, Address.wellFormed, frameLength, encode, withCrc, addressBytes,
      instrAddress, instrFn, operandBytes, bytes16, bytes32, crcBytes, frameLengthOf, addressOffset]

theorem wrReg (p : Address) (a b : U16) : Statement (.wrReg p a b) := by
  intro h
  cases p <;>
    simp_all [Instr.wellFormed, Address.wellFormed, frameLength, encode, withCrc, addressBytes,
      instrAddress, instrFn, operandBytes, bytes16, bytes32, crcBytes, frameLengthOf, addressOffset]

theorem wrMulti (p : Address) (a b : U16) (data : List Byte) : Statement (.wrMulti p a b data) := by
  intro h
  have hlen : data.length ≤ 255 := by
    simp only [Instr.wellFormed, Bool.and_eq_true, decide_eq_true_eq] at h
    exact h.2
  have hmod : data.length % 256 = data.length := Nat.mod_eq_of_lt (by omega)
  cases p <;>
    simp_all [Instr.wellFormed, Address.wellFormed, frameLength, encode, withCrc, addressBytes,
      instrAddress, instrFn, operandBytes, bytes16, bytes32, crcBytes, frameLengthOf, addressOffset,
      Nat.add_comm] <;>
    omega

theorem diagSample (p : Address) (a b : U16) : Statement (.diagSample p a b) := by
  intro h
  cases p <;>
    simp_all [Instr.wellFormed, Address.wellFormed, frameLength, encode, withCrc, addressBytes,
      instrAddress, instrFn, operandBytes, bytes16, bytes32, crcBytes, frameLengthOf, addressOffset]

theorem forceAddr (p : Address) (serial : U32) (a : Byte) : Statement (.forceAddr p serial a) := by
  intro h
  cases p <;>
    simp_all [Instr.wellFormed, Address.wellFormed, frameLength, encode, withCrc, addressBytes,
      instrAddress, instrFn, operandBytes, bytes32, crcBytes, frameLengthOf, addressOffset]

end Sys2Proof.Laws.FrameLength
end

