-- ==== Sys2Proof/Laws/Scans.lean ====
section
/-! SUPPORT. What a read loop answers and which writes a write phase makes, in the terms claims use:
`readFailure`, `writeFailure` and the relations between values and wire words. -/

namespace Sys2Proof.Machine

variable (s : State) (d : PendingRequest)

/-! ## Reads -/

/-- The code a read loop raises is that of the first register that cannot be read (R118). -/
theorem readScan_code {coerce : Value → Nat → Option (List Byte × Nat)}
    (hc : ∀ v n, coerce v n = none ↔ kindFits d (valueKind v) = false) (as : List Nat) (n : Nat) :
    (readScan s d coerce as n).2.2 = as.findSome? (s.readFailure d) := by
  induction as generalizing n with
  | nil => rfl
  | cons a as ih =>
    rw [readScan, State.check_read, List.findSome?_cons, State.readFailure]
    cases lookupFor s.cfg d.cls d.ext a with
    | none => rfl
    | some bnd =>
      by_cases hp : bnd.perm = .writeOnly
      · simp [hp]
      · simp only [hp, if_false]
        cases hv : coerce (storeGet s.store bnd.ref) n with
        | none =>
          rw [(hc _ _).1 hv]
          rfl
        | some r =>
          have hf : kindFits d (valueKind (storeGet s.store bnd.ref)) = true := by
            cases hk : kindFits d (valueKind (storeGet s.store bnd.ref)) with
            | true => rfl
            | false => rw [(hc _ n).2 hk] at hv; cases hv
          simp only [hf, if_true]
          exact ih r.2

/-- A register that can be read passes the check, and its value fits. -/
theorem State.check_of_readable {a : Nat} (h : s.readFailure d a = none) :
    ∃ bnd, s.check d a .read = .ok bnd ∧ storeGet s.store bnd.ref = s.valueAt d a ∧
      kindFits d (valueKind (s.valueAt d a)) = true := by
  rw [State.check_read]
  rw [State.readFailure] at h
  rw [State.valueAt]
  cases hb : lookupFor s.cfg d.cls d.ext a with
  | none => simp [hb] at h
  | some bnd =>
    simp only [hb] at h ⊢
    split at h
    · cases h
    · rename_i hp
      split at h
      · rename_i hk
        exact ⟨bnd, by rw [if_neg hp], rfl, hk⟩
      · cases h

/-- The words a read loop answers when every register can be read. -/
theorem readScan_words {ω : Type} {rd : Value → Nat → Option (ω × Nat)} {enc : ω → List Byte}
    {Reads : Value → ω → Prop}
    (hrd : ∀ v n, kindFits d (valueKind v) = true → ∃ r, rd v n = some r ∧ Reads v r.1)
    (as : List Nat) (n : Nat) (h : ∀ a ∈ as, s.readFailure d a = none) :
    ∃ words n', List.Forall₂ (fun a w => Reads (s.valueAt d a) w) as words ∧
      readScan s d (fun v n => (rd v n).map fun r => (enc r.1, r.2)) as n =
        (words.flatMap enc, n', none) := by
  induction as generalizing n with
  | nil => exact ⟨[], n, .nil, rfl⟩
  | cons a as ih =>
    obtain ⟨bnd, hb, hv, hk⟩ := s.check_of_readable d (h a (by simp))
    obtain ⟨r, hr, hrel⟩ := hrd _ n hk
    obtain ⟨words, n', hw, hs⟩ := ih r.2 fun x hx => h x (by simp [hx])
    refine ⟨r.1 :: words, n', .cons hrel hw, ?_⟩
    rw [readScan, hb]
    simp only [hv, hr, Option.map_some, hs]
    rfl

/-! ## Writes -/

variable {ω : Type} {coerce : ω → Kind → Nat → Option (Value × Nat)}

theorem State.check_write (a : Nat) :
    s.check d a .write =
      match lookupFor s.cfg d.cls d.ext a with
      | none => .error .badAddress
      | some bnd =>
        if noPermission s.unlocked s.factoryUnlocked bnd.perm .write then .error .badValue
        else .ok bnd := rfl

/-- The code a write phase raises is that of the first register that cannot be written, and the
writes before it are those of its predecessors (R118, R141). -/
theorem writeScan_spec {Writes : Nat → Kind → Value → Prop}
    (hc : ∀ w k n, coerce w k n = none ↔ kindFits d k = false) (items : List (Nat × ω)) (n j0 : Nat)
    (hw : ∀ j w, (items.map (·.2))[j]? = some w → ∀ k n r, coerce w k n = some r →
      Writes (j0 + j) k r.1) :
    (writeScan s d coerce items n).2.2 = (items.map (·.1)).findSome? (s.writeFailure d) ∧
    ((writeScan s d coerce items n).2.2 = none →
      (writeScan s d coerce items n).1.length = items.length) ∧
    (∀ k code, (∀ a ∈ (items.map (·.1)).take k, s.writeFailure d a = none) →
      (items.map (·.1))[k]?.bind (s.writeFailure d) = some code →
      (writeScan s d coerce items n).1.length = k ∧
        (writeScan s d coerce items n).2.2 = some code) ∧
    ∀ j, (h : j < (writeScan s d coerce items n).1.length) → ∃ a bnd,
      (items.map (·.1))[j]? = some a ∧ lookupFor s.cfg d.cls d.ext a = some bnd ∧
        (writeScan s d coerce items n).1[j].1 = bnd ∧
        Writes (j0 + j) bnd.kind (writeScan s d coerce items n).1[j].2 := by
  induction items generalizing n j0 with
  | nil => simp [writeScan]
  | cons item items ih =>
    obtain ⟨a, w⟩ := item
    have hfail : ∀ code, s.writeFailure d a = some code →
        writeScan s d coerce ((a, w) :: items) n = ([], n, some code) := by
      intro code h
      rw [writeScan, State.check_write]
      rw [State.writeFailure] at h
      cases hb : lookupFor s.cfg d.cls d.ext a with
      | none =>
        simp only [hb, Option.some.injEq] at h
        simp only [h]
      | some bnd =>
        simp only [hb] at h ⊢
        split at h
        · rename_i hp
          simp only [Option.some.injEq] at h
          simp only [hp, if_true, h]
        · rename_i hp
          split at h
          · cases h
          · rename_i hk
            simp only [Option.some.injEq] at h
            simp only [Bool.not_eq_true] at hp hk
            simp only [hp, Bool.false_eq_true, if_false]
            rw [(hc w bnd.kind n).2 hk]
            simp [h]
    cases hf : s.writeFailure d a with
    | some code =>
      rw [hfail code hf]
      refine ⟨by simp [hf], by simp, ?_, by simp⟩
      intro k code' h1 h2
      cases k with
      | zero =>
        simp only [List.map_cons, List.getElem?_cons_zero, Option.bind_some, hf] at h2
        exact ⟨rfl, h2⟩
      | succ k =>
        have := h1 a (by simp)
        rw [hf] at this
        cases this
    | none =>
      obtain ⟨bnd, hb, hk, hck⟩ : ∃ bnd, lookupFor s.cfg d.cls d.ext a = some bnd ∧
          kindFits d bnd.kind = true ∧ s.check d a .write = .ok bnd := by
        rw [State.check_write]
        rw [State.writeFailure] at hf
        cases hb : lookupFor s.cfg d.cls d.ext a with
        | none => simp [hb] at hf
        | some bnd =>
          simp only [hb] at hf ⊢
          split at hf
          · cases hf
          · rename_i hp
            split at hf
            · rename_i hk
              exact ⟨bnd, rfl, hk, by rw [if_neg hp]⟩
            · cases hf
      cases hco : coerce w bnd.kind n with
      | none =>
        rw [(hc _ _ _).1 hco] at hk
        cases hk
      | some r =>
        have hs : writeScan s d coerce ((a, w) :: items) n =
            ((bnd, r.1) :: (writeScan s d coerce items r.2).1, (writeScan s d coerce items r.2).2) := by
          rw [writeScan, hck]
          simp only [hco]
        obtain ⟨i1, i2, i3, i4⟩ := ih r.2 (j0 + 1) (by
          intro j w' hw' k n r hr
          have := hw (j + 1) w' (by simpa using hw') k n r hr
          rwa [show j0 + 1 + j = j0 + (j + 1) by omega])
        rw [hs]
        refine ⟨?_, ?_, ?_, ?_⟩
        · simp only [List.map_cons, List.findSome?_cons, hf]
          exact i1
        · intro h
          simp only [List.length_cons]
          rw [i2 h]
        · intro k code h1 h2
          cases k with
          | zero =>
            simp only [List.map_cons, List.getElem?_cons_zero, Option.bind_some, hf] at h2
            cases h2
          | succ k =>
            obtain ⟨q1, q2⟩ := i3 k code (fun x hx => h1 x (by simp [hx])) (by simpa using h2)
            exact ⟨by simp only [List.length_cons, q1], q2⟩
        · intro j hj
          cases j with
          | zero => exact ⟨a, bnd, rfl, hb, rfl, hw 0 w rfl _ _ _ hco⟩
          | succ j =>
            obtain ⟨a', bnd', h1, h2, h3, h4⟩ := i4 j (by simpa using hj)
            exact ⟨a', bnd', by simpa using h1, h2, h3, by rwa [show j0 + 1 + j = j0 + (j + 1) by omega] at h4⟩

end Sys2Proof.Machine
end

