-- ==== Sys2Proof/Laws/Steps.lean ====
section
/-! SUPPORT. What a handler can do, said once (30_encoding.md R65): the cases an invariant's proof
splits into, and how an answer ends. -/

namespace Sys2Proof.Machine

/-- What the handler of an event makes of a state. -/
inductive Handled (s : State) : Event → State → Prop where
  | rxByte (x : Byte) : Handled s (.rxByte x) (handleRxByte x s)
  | txReady : Handled s .txReady (handleTxReady s)
  | tick : Handled s .tick s.tickTimers
  /-- RECV waits for more bytes (42_frame_receiver.md R81, R82, R84). -/
  | wait (hp : s.rxPosted = true) :
    Handled s .recv { s with rxPosted := false, wdog := .running s.cfg.tWdog, wdogN := s.rx.count }
  /-- RECV drops a frame before it decodes (R82, R83, R85, R86). -/
  | drop (hp : s.rxPosted = true) (n m : U16) (h : n = 1 ∧ (m = 0 ∨ m = 1) ∨ n = 0 ∧ m = 0) :
    Handled s .recv (s.dropped n m)
  /-- RECV executes an instruction (R87). -/
  | run (hp : s.rxPosted = true) (i : Instr) (t : State)
      (he : exec i { s with rxPosted := false, wdog := .off } = .next t) : Handled s .recv t
  | wdogFire (hw : s.wdog = .expired) : Handled s .wdogFire (handleWdogFire s)
  /-- CLASS_FIRE with an empty queue (45_encoders.md R111). -/
  | classIdle (k : RegClass) (hk : perClassGet s.ctimer k = .expired) (hq : s.q.first = none) :
    Handled s (.classFire k) (s.setClassTimer k .off)
  /-- CLASS_FIRE that cannot answer yet (R111). -/
  | classBusy (k : RegClass) (hk : perClassGet s.ctimer k = .expired) :
    Handled s (.classFire k) (s.armClass k (perClassGet s.cfg.tRetry k))
  /-- CLASS_FIRE that answers the request at the head. -/
  | answer (d : PendingRequest) (hq : s.q.first = some d) (hk : perClassGet s.ctimer d.cls = .expired)
      (hi : s.txIdle = true) (t : State) (ha : answer d (s.setClassTimer d.cls .off) = .next t) :
    Handled s (.classFire d.cls) t
  | hostWrite (r : HostReg) (v : U16) : Handled s (.hostWrite r v) (s.hostWrite r v)
  | hostStore (ref : StorageRef) (v : Value) (h : storeKindOk s.cfg ref v = true) :
    Handled s (.hostStore ref v) (s.storeWrite ref v)

/-- A frame dropped before its request is queued (R89). -/
theorem State.dropFrame_false (s : State) (r : DropReason) :
    ∃ n m : U16, (n = 1 ∧ (m = 0 ∨ m = 1) ∨ n = 0 ∧ m = 0) ∧
      ((s.setPosted false).wdogCancel).dropFrame false r = s.dropped n m := by
  cases r
  case crcMismatch => exact ⟨1, 1, by simp, rfl⟩
  case unknownFunction =>
    exact ⟨1, 0, by simp, by
      simp [State.dropped, State.dropFrame, State.countDrop, State.countUnknownFunction,
        State.rxClear, Ring.clear, State.setPosted, State.wdogCancel]⟩
  all_goals
    exact ⟨0, 0, by simp, by
      simp [State.dropped, State.dropFrame, State.countDrop, State.rxClear, Ring.clear,
        State.setPosted, State.wdogCancel]⟩

/-- RECV waits, drops the frame or executes an instruction; it never reads past the count (R71). -/
theorem handleRecv_cases (s : State) (hp : s.rxPosted = true) :
    (∃ t, handleRecv s = .next t ∧ Handled s .recv t) ∨
      ∃ i, handleRecv s = exec i { s with rxPosted := false, wdog := .off } := by
  rw [handleRecv, fetch, Ring.peekAll_count]
  simp only
  split
  · rename_i t h
    left
    refine ⟨t, rfl, ?_⟩
    split at h
    · cases h
      exact .wait hp
    · have hlen : (s.rx.bytes s.cfg.rxCap).length = s.rx.count := Ring.length_bytes
      have hw : ((s.setPosted false).wdogCancel).wdogArm (s.rx.bytes s.cfg.rxCap).length =
          { s with rxPosted := false, wdog := .running s.cfg.tWdog, wdogN := s.rx.count } := by
        rw [hlen]
        rfl
      have hd : ∀ r, Handled s .recv (((s.setPosted false).wdogCancel).dropFrame false r) := by
        intro r
        obtain ⟨n, m, hnm, he⟩ := s.dropFrame_false r
        rw [he]
        exact .drop hp n m hnm
      rw [fetchFrame] at h
      split at h
      · cases h
        rw [hw]
        exact .wait hp
      · cases h
        exact hd _
      · split at h
        · cases h
          exact hd _
        · split at h
          · cases h
            rw [hw]
            exact .wait hp
          · split at h
            · cases h
              exact hd _
            · split at h
              · cases h
                exact hd _
              · cases h
  · rename_i i t h
    right
    refine ⟨i, ?_⟩
    have : t = { s with rxPosted := false, wdog := .off } := by
      split at h
      · cases h
      · rw [fetchFrame] at h
        repeat' split at h
        all_goals first | (cases h; done) | (cases h; rfl)
    rw [this]
  · rename_i h
    split at h
    · cases h
    · rw [fetchFrame] at h
      repeat' split at h
      all_goals cases h

/-- A handler that ends in a next state did one of these. -/
theorem handle_cases {e : Event} {s t : State} (h : handle e s = .next t) : Handled s e t := by
  rw [handle.eq_def] at h
  split at h
  · rename_i hen
    cases e with
    | rxByte x => cases h; exact .rxByte x
    | txReady => cases h; exact .txReady
    | tick => cases h; exact .tick
    | recv =>
      rcases handleRecv_cases s hen with ⟨t', ht, hH⟩ | ⟨i, hi⟩
      · simp only [ht, Host.Outcome.next.injEq] at h
        rwa [← h]
      · simp only [hi] at h
        exact .run hen i t h
    | wdogFire =>
      cases h
      exact .wdogFire (by simpa [enabled] using hen)
    | classFire k =>
      have hk : perClassGet s.ctimer k = .expired := by simpa [enabled] using hen
      simp only [classFire] at h
      split at h
      · rename_i hq
        cases h
        exact .classIdle k hk hq
      · rename_i d hq
        split at h
        · cases h
          exact .classBusy k hk
        · rename_i hb
          simp only [ne_eq, not_or, Decidable.not_not, Bool.not_eq_false] at hb
          obtain ⟨rfl, hi⟩ := hb
          exact .answer d hq hk hi t h
    | hostWrite r v => cases h; exact .hostWrite r v
    | hostStore ref v =>
      simp only at h
      split at h
      · rename_i hs
        cases h
        exact .hostStore ref v hs
      · cases h
  · cases h

/-- An event fairness promises is enabled, and is none of the environment's but TX_READY and TICK
(70_reset_and_hazards.md R183). -/
theorem promisedEvents_mem {s : State} {e : Event} (h : e ∈ promisedEvents s) :
    enabled e s = true ∧
      (e = .recv ∨ e = .wdogFire ∨ (∃ k, e = .classFire k) ∨ e = .txReady ∨ e = .tick) := by
  simp only [promisedEvents, List.mem_append, List.mem_map, List.mem_filter] at h
  rcases h with (((h | h) | ⟨k, ⟨-, hk⟩, rfl⟩) | h) | h
  · split at h
    · rename_i hp
      rw [List.mem_singleton] at h
      subst h
      exact ⟨hp, by simp⟩
    · cases h
  · split at h
    · rename_i hp
      rw [List.mem_singleton] at h
      subst h
      exact ⟨by simp [enabled, hp], by simp⟩
    · cases h
  · exact ⟨hk, by simp⟩
  · split at h
    · rw [List.mem_singleton] at h
      subst h
      exact ⟨rfl, by simp⟩
    · cases h
  · split at h
    · rw [List.mem_singleton] at h
      subst h
      exact ⟨rfl, by simp⟩
    · cases h

theorem beginWaiting_fst (n : Nat) (es : List Event) : (beginWaiting n es).map Prod.fst = es := by
  induction es generalizing n with
  | nil => rfl
  | cons e es ih => simp [beginWaiting, ih]

/-- The events that wait are those promised (R183). -/
theorem State.mem_promises {s : State} {e : Event} :
    e ∈ s.promises.map Prod.fst ↔ e ∈ promisedEvents s := by
  simp only [State.promises, List.map_append, List.mem_append, beginWaiting_fst, List.mem_filter,
    decide_eq_true_eq, List.mem_map]
  constructor
  · rintro (⟨w, ⟨-, hw⟩, rfl⟩ | h)
    · exact hw
    · exact h.1
  · intro h
    by_cases hw : ∃ w ∈ s.waiting, w.1 = e
    · obtain ⟨w, hw, rfl⟩ := hw
      exact .inl ⟨w, ⟨hw, h⟩, rfl⟩
    · exact .inr ⟨h, by simpa using hw⟩

/-- The entry that is due first is a minimal one, and every earlier one may be put off longer. -/
theorem firstDue_eq_some {ws : List (Event × Nat)} {v : Event × Nat} (h : firstDue ws = some v) :
    ∃ before after, ws = before ++ v :: after ∧ (∀ w ∈ before, v.2 < w.2) ∧ ∀ w ∈ after, v.2 ≤ w.2 := by
  induction ws generalizing v with
  | nil => cases h
  | cons w ws ih =>
    rw [firstDue] at h
    split at h
    · rename_i hn
      cases h
      have : ws = [] := by
        cases ws with
        | nil => rfl
        | cons x xs =>
          rw [firstDue] at hn
          split at hn
          · cases hn
          · split at hn <;> cases hn
      exact ⟨[], ws, rfl, by simp, by simp [this]⟩
    · rename_i u hu
      obtain ⟨before, after, rfl, hb, ha⟩ := ih hu
      split at h
      · rename_i hle
        cases h
        refine ⟨[], _, rfl, by simp, ?_⟩
        intro x hx
        simp only [List.mem_append, List.mem_cons] at hx
        rcases hx with hx | rfl | hx
        · exact Nat.le_trans hle (Nat.le_of_lt (hb x hx))
        · exact hle
        · exact Nat.le_trans hle (ha x hx)
      · rename_i hlt
        cases h
        refine ⟨w :: before, after, rfl, ?_, ha⟩
        intro x hx
        rcases List.mem_cons.1 hx with rfl | hx
        · omega
        · exact hb x hx

theorem firstDue_eq_none {ws : List (Event × Nat)} (h : firstDue ws = none) : ws = [] := by
  cases ws with
  | nil => rfl
  | cons w ws =>
    rw [firstDue] at h
    split at h
    · cases h
    · split at h <;> cases h

/-- The event that comes next is the script's or a promised one. -/
theorem nextEvent_cases {s : State} {e : Event} (h : nextEvent s = some e) :
    (∃ rest, s.inputs = e :: rest ∧ s.takeEvent e = { s with inputs := rest }) ∨
      (s.inputs = [] ∧ e ∈ promisedEvents s ∧ ∃ waiting n,
        s.takeEvent e = { s with waiting := waiting, freeCount := n }) := by
  rw [nextEvent] at h
  cases hin : s.inputs with
  | cons e' rest =>
    rw [hin] at h
    cases h
    exact .inl ⟨rest, rfl, by rw [State.takeEvent, hin]⟩
  | nil =>
    rw [hin] at h
    refine .inr ⟨rfl, ?_, _, _, by rw [State.takeEvent, hin]⟩
    simp only [Option.map_eq_some_iff] at h
    obtain ⟨v, hv, rfl⟩ := h
    obtain ⟨before, after, hws, -, -⟩ := firstDue_eq_some hv
    exact State.mem_promises.1 (by rw [hws]; simp)

/-- Taking an event changes the script, the waiting events and the count of draws only. -/
theorem State.takeEvent_eq (s : State) (e : Event) : s.takeEvent e = { s with
    inputs := (s.takeEvent e).inputs
    waiting := (s.takeEvent e).waiting
    freeCount := (s.takeEvent e).freeCount } := by
  rw [State.takeEvent]
  cases s.inputs <;> rfl

@[simp] theorem State.takeEvent_cfg (s : State) (e : Event) : (s.takeEvent e).cfg = s.cfg := by
  rw [State.takeEvent_eq]
@[simp] theorem State.takeEvent_rx (s : State) (e : Event) : (s.takeEvent e).rx = s.rx := by
  rw [State.takeEvent_eq]
@[simp] theorem State.takeEvent_tx (s : State) (e : Event) : (s.takeEvent e).tx = s.tx := by
  rw [State.takeEvent_eq]
@[simp] theorem State.takeEvent_rxOverrun (s : State) (e : Event) : (s.takeEvent e).rxOverrun = s.rxOverrun := by
  rw [State.takeEvent_eq]
@[simp] theorem State.takeEvent_txOverrun (s : State) (e : Event) : (s.takeEvent e).txOverrun = s.txOverrun := by
  rw [State.takeEvent_eq]
@[simp] theorem State.takeEvent_rxPosted (s : State) (e : Event) : (s.takeEvent e).rxPosted = s.rxPosted := by
  rw [State.takeEvent_eq]
@[simp] theorem State.takeEvent_q (s : State) (e : Event) : (s.takeEvent e).q = s.q := by
  rw [State.takeEvent_eq]
@[simp] theorem State.takeEvent_wdog (s : State) (e : Event) : (s.takeEvent e).wdog = s.wdog := by
  rw [State.takeEvent_eq]
@[simp] theorem State.takeEvent_wdogN (s : State) (e : Event) : (s.takeEvent e).wdogN = s.wdogN := by
  rw [State.takeEvent_eq]
@[simp] theorem State.takeEvent_ctimer (s : State) (e : Event) : (s.takeEvent e).ctimer = s.ctimer := by
  rw [State.takeEvent_eq]
@[simp] theorem State.takeEvent_txInProgress (s : State) (e : Event) : (s.takeEvent e).txInProgress = s.txInProgress := by
  rw [State.takeEvent_eq]
@[simp] theorem State.takeEvent_txie (s : State) (e : Event) : (s.takeEvent e).txie = s.txie := by
  rw [State.takeEvent_eq]
@[simp] theorem State.takeEvent_lineMode (s : State) (e : Event) : (s.takeEvent e).lineMode = s.lineMode := by
  rw [State.takeEvent_eq]
@[simp] theorem State.takeEvent_slaveAddr (s : State) (e : Event) : (s.takeEvent e).slaveAddr = s.slaveAddr := by
  rw [State.takeEvent_eq]
@[simp] theorem State.takeEvent_faultCount (s : State) (e : Event) : (s.takeEvent e).faultCount = s.faultCount := by
  rw [State.takeEvent_eq]
@[simp] theorem State.takeEvent_crcFaultCount (s : State) (e : Event) : (s.takeEvent e).crcFaultCount = s.crcFaultCount := by
  rw [State.takeEvent_eq]
@[simp] theorem State.takeEvent_persistReq (s : State) (e : Event) : (s.takeEvent e).persistReq = s.persistReq := by
  rw [State.takeEvent_eq]
@[simp] theorem State.takeEvent_unlocked (s : State) (e : Event) : (s.takeEvent e).unlocked = s.unlocked := by
  rw [State.takeEvent_eq]
@[simp] theorem State.takeEvent_factoryUnlocked (s : State) (e : Event) : (s.takeEvent e).factoryUnlocked = s.factoryUnlocked := by
  rw [State.takeEvent_eq]
@[simp] theorem State.takeEvent_store (s : State) (e : Event) : (s.takeEvent e).store = s.store := by
  rw [State.takeEvent_eq]
@[simp] theorem State.takeEvent_out (s : State) (e : Event) : (s.takeEvent e).out = s.out := by
  rw [State.takeEvent_eq]

/-- The invariant says nothing of the script and of the waiting events. -/
theorem Inv.takeEvent {s : State} (h : Inv s) (e : Event) : Inv (s.takeEvent e) := by
  rw [State.takeEvent_eq]
  exact ⟨h.config, h.rx, h.tx, h.txTail, h.queue, h.wdog, h.wdogN, h.ctimer, h.txGate, h.txie, h.line,
    h.slave, h.store⟩

/-- A step handles the event that comes next, or waits (log 7). -/
theorem step_cases {s t : State} (h : step s = .next t) :
    (∃ e, nextEvent s = some e ∧ Handled (s.takeEvent e) e t) ∨ nextEvent s = none ∧ t = s := by
  rw [step] at h
  split at h
  · split at h
    · rename_i e he
      exact .inl ⟨e, he, handle_cases h⟩
    · rename_i hn
      cases h
      exact .inr ⟨hn, rfl⟩
  · cases h

/-! ## An answer -/

theorem State.commitAll_out (s : State) (vs : List (Binding × Value)) :
    (∃ es, (s.commitAll vs).out = s.out ++ es) ∧
      (s.persistReq = true → (s.commitAll vs).persistReq = true) := by
  induction vs generalizing s with
  | nil => exact ⟨⟨[], by simp [State.commitAll]⟩, id⟩
  | cons v vs ih =>
    obtain ⟨⟨es, he⟩, hp⟩ := ih (s.commit v.1 v.2)
    refine ⟨?_, fun h => hp (by simp [State.commit, h])⟩
    rw [State.commitAll, he, State.commit]
    by_cases hk : v.1.kind = .annotated <;> simp [hk]

/-- What a body leaves alone, by its function code: only the three writes touch the store, only
FORCE_ADDR the slave address. -/
structure BodyFrame (d : PendingRequest) (s t : State) : Prop where
  store : d.fc ∉ ([0x05, 0x06, 0x10] : List Byte) → t.store = s.store
  slave : t.slaveAddr = s.slaveAddr ∨ d.fc = 0x44 ∧ t.slaveAddr = d.payload.getD 0 0
  out : ∃ es, t.out = s.out ++ es
  persist : s.persistReq = true → t.persistReq = true
  overrun : s.txOverrun = true → t.txOverrun = true
  rest : t = { s with
    tx := t.tx
    txOverrun := t.txOverrun
    store := t.store
    out := t.out
    persistReq := t.persistReq
    freeCount := t.freeCount
    slaveAddr := t.slaveAddr }

theorem State.emitAll_overrun {s : State} (h : s.txOverrun = true) (xs : List Byte) :
    (s.emitAll xs).txOverrun = true := by
  induction xs generalizing s with
  | nil => exact h
  | cons x xs ih => exact ih (by simp [State.emit, State.noteTxOverrun, h])

theorem BodyFrame.emitAll {d : PendingRequest} {s u : State} (h : BodyFrame d s u) (xs : List Byte) :
    BodyFrame d s (u.emitAll xs) := by
  obtain ⟨h1, h2, h3, h4, h5, h6⟩ := h
  refine ⟨by simpa using h1, by simpa using h2, by simpa using h3, by simpa using h4,
    fun h => State.emitAll_overrun (h5 h) xs, ?_⟩
  rw [State.emitAll_eq, h6]

/-- A body ends with its frame kept, if it ends. -/
def BodyResult.Framed (d : PendingRequest) (s : State) : BodyResult → Prop
  | .ok t | .exc _ t => BodyFrame d s t
  | .neverQueued => True

theorem BodyFrame.same {d : PendingRequest} {s : State} (n : Nat) (xs : List Byte) :
    BodyFrame d s ((s.setFree n).emitAll xs) :=
  BodyFrame.emitAll (s := s) (u := s.setFree n)
    ⟨fun _ => rfl, .inl rfl, ⟨[], by simp⟩, id, id, rfl⟩ xs

theorem BodyFrame.self {d : PendingRequest} {s : State} : BodyFrame d s s :=
  ⟨fun _ => rfl, .inl rfl, ⟨[], by simp⟩, id, id, rfl⟩

theorem Framed.reads {d : PendingRequest} {s : State}
    (coerce : Value → Nat → Option (List Byte × Nat)) (as : List Nat) (xs : List Byte) :
    (readLoop d coerce as (s.emitAll xs)).Framed d s := by
  rw [readLoop_emitAll]
  generalize readScan s d coerce as s.freeCount = r
  obtain ⟨bytes, n, code⟩ := r
  cases code <;> exact BodyFrame.same _ _

theorem Framed.writes {ω : Type} {d : PendingRequest} {s : State}
    (hfc : d.fc ∈ ([0x05, 0x06, 0x10] : List Byte))
    (coerce : ω → Kind → Nat → Option (Value × Nat)) (items : List (Nat × ω)) (xs ys : List Byte) :
    ((writePhase d coerce items (s.emitAll xs)).andThen fun t => .ok (t.emitAll ys)).Framed d s := by
  have hu : ∀ vs n zs, BodyFrame d s (((s.setFree n).commitAll vs).emitAll zs) := by
    intro vs n zs
    obtain ⟨ho, hp⟩ := (s.setFree n).commitAll_out vs
    refine BodyFrame.emitAll (s := s) ⟨fun h => absurd hfc h, .inl ?_, ho, hp, ?_, ?_⟩ zs
    · rw [State.commitAll_eq]
      rfl
    · rw [State.commitAll_eq]
      exact id
    · rw [State.setFree_commitAll, State.commitAll_eq]
      rfl
  rw [writePhase_emitAll]
  generalize writeScan s d coerce items s.freeCount = w
  obtain ⟨vs, n, code⟩ := w
  cases code with
  | none =>
    simp only [BodyResult.andThen, BodyResult.Framed, ← State.emitAll_append]
    exact hu vs n _
  | some code =>
    cases s.cfg.writePolicy with
    | partialWrites => exact hu vs n _
    | atomicWrites => exact BodyFrame.same s.freeCount _

/-- The frame of a body. -/
theorem bodyOf_framed (d : PendingRequest) (s : State) : (bodyOf d s).Framed d s := by
  have hcoil : (coilReadBody d s).Framed d s := by
    rw [coilReadBody]
    split
    · split
      · exact BodyFrame.self
      · rw [State.emitPrefix, ← State.emitAll_append]
        exact BodyFrame.same s.freeCount _
    · exact BodyFrame.self
  have h32 : ∀ coerce, (read32 d coerce s).Framed d s := by
    intro coerce
    rw [read32, State.emitPrefix, ← State.emitAll_append]
    exact Framed.reads _ _ _
  have hint : (intReadBody d s).Framed d s := by
    rw [intReadBody]
    split
    · rw [State.emitPrefix, ← State.emitAll_append]
      exact Framed.reads _ _ _
    · exact BodyFrame.self
  have hlong : (longReadBody d s).Framed d s := by
    rw [longReadBody]
    split
    · exact h32 _
    · exact BodyFrame.self
  have hfloat : (floatReadBody d s).Framed d s := by
    rw [floatReadBody]
    split
    · split
      · exact BodyFrame.self
      · exact h32 _
    · exact BodyFrame.self
  have hcode : ∀ b : Byte, (fnOfCode b = some .wrCoil → b = 0x05) ∧
      (fnOfCode b = some .wrReg → b = 0x06) ∧ (fnOfCode b = some .wrMulti → b = 0x10) ∧
      (fnOfCode b = some .forceAddr → b = 0x44) := by
    decide +kernel
  rw [bodyOf]
  split
  · rw [respondRdCoils]
    split
    · exact hcoil
    all_goals exact trivial
  · rw [respondRdDiscretes]
    split
    · exact hcoil
    all_goals exact trivial
  · rw [respondRdHolding]
    split
    · exact hint
    · exact hlong
    · exact hfloat
    all_goals exact trivial
  · rw [respondRdInput]
    split
    · exact hint
    · exact hlong
    · exact hfloat
    all_goals exact trivial
  · rename_i h
    have hfc := (hcode _).1 h
    rw [respondWrCoil]
    split
    · exact Framed.writes (by simp [hfc]) _ _ _ _
    all_goals exact trivial
  · rename_i h
    have hfc := (hcode _).2.1 h
    rw [respondWrReg]
    split
    · exact Framed.writes (by simp [hfc]) _ _ _ _
    · exact BodyFrame.self
    · exact BodyFrame.self
    all_goals exact trivial
  · rename_i h
    have hfc : d.fc ∈ ([0x05, 0x06, 0x10] : List Byte) := by simp [(hcode _).2.2.1 h]
    rw [respondWrMulti]
    split
    · exact Framed.writes hfc _ _ _ _
    · rw [longMultiBody]
      split
      · exact Framed.writes hfc _ _ _ _
      · exact BodyFrame.self
    · rw [floatMultiBody]
      split
      · split
        · exact BodyFrame.self
        · exact Framed.writes hfc _ _ _ _
      · exact BodyFrame.self
    all_goals exact trivial
  · rw [respondDiagSample]
    split
    · rw [State.emitPrefix, ← State.emitAll_append]
      exact BodyFrame.same s.freeCount _
    all_goals exact trivial
  · rename_i h
    have hfc := (hcode _).2.2.2 h
    rw [respondForceAddr]
    split
    · split
      · exact BodyFrame.self
      · rw [State.emitPrefix, ← State.emitAll_append]
        exact BodyFrame.emitAll (s := s) (u := { s with slaveAddr := payloadByte d 0 })
          ⟨fun _ => rfl, .inr ⟨hfc, rfl⟩, ⟨[], by simp⟩, id, id, rfl⟩ _
    all_goals exact trivial
  · exact trivial

/-- Sending an exception keeps TX canonical (R142). -/
theorem State.sendException_cells {s : State} (hb : cellsWf s.cfg.txCap s.tx.buf = true)
    (hcap : 5 ≤ s.cfg.txCap) (fc : Byte) (code : ExcCode) :
    cellsWf s.cfg.txCap (s.sendException fc code).tx.buf = true := by
  have hcode : 1 ≤ excNumber code ∧ excNumber code ≤ 4 := by cases code <;> decide
  rw [State.sendException, State.exceptionFrame, if_pos hcode, State.appendCrc,
    ← State.emitAll_append]
  exact State.emitAll_cells (s := s.txClear) hb (by show 0 < s.cfg.txCap; omega) _

/-- How an answer ends (R111): the body has written `u`'s fields, the request has left the queue; and
either nothing is sent, or TX holds one frame and its transmission has started. -/
theorem answer_cases {d : PendingRequest} {s t : State} (hR : RequestOk s.cfg d) (hT : TxReady s)
    (h : answer d s = .next t) :
    ∃ u, BodyWrote s u ∧ BodyFrame d s u ∧ (storeWf s.store = true → storeWf u.store = true) ∧
      (1 ≤ s.slaveAddr.toNat ∧ s.slaveAddr.toNat ≤ 247 →
        1 ≤ u.slaveAddr.toNat ∧ u.slaveAddr.toNat ≤ 247) ∧
      cellsWf s.cfg.txCap t.tx.buf = true ∧
      (t = { u with
          tx := ⟨t.tx.buf, s.tx.head, s.tx.tail, 0⟩
          q := s.q.discardHead s.cfg.qCap } ∨
        t = { u with
          tx := t.tx
          q := s.q.discardHead s.cfg.qCap
          txInProgress := true
          txie := true
          lineMode := .transmit } ∧
        t.tx.head < s.cfg.txCap ∧ t.tx.count ≤ s.cfg.txCap ∧
        t.tx.tail = (t.tx.head + t.tx.count) % s.cfg.txCap) := by
  obtain ⟨i, -, rfl⟩ := hR
  have hok := bodyOf_ok s i
  have hfr := bodyOf_framed (requestOf i) s
  rw [answer] at h
  generalize bodyOf (requestOf i) s = r at h hok hfr
  have hcap := hT.cap
  cases r with
  | neverQueued => exact absurd hok id
  | ok t' =>
    obtain ⟨u, xs, rfl, hl, hu, hst, hsl⟩ := hok
    have hur := hT.of_wrote hu
    have hcfg : u.cfg = s.cfg := by rw [hu]
    have htx : u.tx = s.tx := by rw [hu]
    have hq : u.q = s.q := by rw [hu]
    have hF : BodyFrame (requestOf i) s u := by
      obtain ⟨f1, f2, f3, f4, -, -⟩ := hfr
      refine ⟨by simpa using f1, by simpa using f2, by simpa using f3, by simpa using f4, ?_, ?_⟩ <;>
        rw [hu]
      exact id
    have hcells : cellsWf s.cfg.txCap (u.emitAll xs).tx.buf = true := by
      rw [← hcfg]
      exact State.emitAll_cells hur.cells hur.tail_lt xs
    rw [← htx] at h
    refine ⟨u, hu, hF, hst, hsl, ?_⟩
    by_cases hb : (requestOf i).bcast
    · simp only [hb, if_true, Host.Outcome.next.injEq] at h
      obtain ⟨k1, k2, -⟩ := hur.rollback xs hl
      subst h
      refine ⟨?_, .inl ?_⟩
      · rw [State.discardHead, k1]
        exact hcells
      · simp only [State.discardHead]
        rw [k1, State.txRollback, State.emitAll_eq, k2, ← htx, ← hq, ← hcfg]
        simp only [hur.empty]
    · simp only [hb, if_false, Bool.false_eq_true, Host.Outcome.next.injEq] at h
      obtain ⟨k1, k2, k3, k4, k5, k6⟩ := hur.finish xs hl
      simp only [maxBody] at hl
      subst h
      refine ⟨?_, .inr ⟨?_, ?_, ?_, ?_⟩⟩
      · rw [State.discardHead, State.finishFrame, State.txStart]
        simp only
        rw [← hcfg]
        have := State.emitAll_cells (s := u.emitAll xs) (by rw [State.emitAll_cfg, hcfg]; exact hcells)
          (by rw [(hur.fits xs (by simp only [maxBody]; omega)).2.2.1, State.emitAll_cfg]
              exact Nat.mod_lt _ (by rw [hcfg]; omega))
          (crcBytes ((u.emitAll xs).tx.crc (u.emitAll xs).cfg.txCap u.tx.snapshot.1
            ((u.emitAll xs).tx.count - u.tx.snapshot.2)))
        rw [← State.appendCrc, State.emitAll_cfg] at this
        exact this
      · rw [State.finishFrame] at k2
        have k2' : (((u.emitAll xs).appendCrc u.tx.snapshot.1
            ((u.emitAll xs).tx.count - u.tx.snapshot.2))).txOverrun = u.txOverrun := k2
        rw [State.discardHead, State.finishFrame, State.txStart, State.appendCrc]
        rw [State.appendCrc] at k2'
        rw [State.emitAll_eq, k2', State.emitAll_eq, ← hq, ← hcfg]
      · show ((u.emitAll xs).finishFrame u.tx.snapshot).tx.head < _
        rw [k4, htx, hT.head]
        exact hT.tail_lt
      · show ((u.emitAll xs).finishFrame u.tx.snapshot).tx.count ≤ _
        rw [k3]
        omega
      · show ((u.emitAll xs).finishFrame u.tx.snapshot).tx.tail =
          (((u.emitAll xs).finishFrame u.tx.snapshot).tx.head +
            ((u.emitAll xs).finishFrame u.tx.snapshot).tx.count) % _
        rw [k5, k4, k3, hcfg]
  | exc code t' =>
    obtain ⟨⟨u, xs, rfl, hl, hu, hst, hsl⟩, -⟩ := hok
    have hur := hT.of_wrote hu
    have hcfg : u.cfg = s.cfg := by rw [hu]
    have htx : u.tx = s.tx := by rw [hu]
    have hq : u.q = s.q := by rw [hu]
    have hF : BodyFrame (requestOf i) s u := by
      obtain ⟨f1, f2, f3, f4, -, -⟩ := hfr
      refine ⟨by simpa using f1, by simpa using f2, by simpa using f3, by simpa using f4, ?_, ?_⟩ <;>
        rw [hu]
      exact id
    have hcells : cellsWf s.cfg.txCap (u.emitAll xs).tx.buf = true := by
      rw [← hcfg]
      exact State.emitAll_cells hur.cells hur.tail_lt xs
    rw [← htx] at h
    obtain ⟨k1, k2, -⟩ := hur.rollback xs hl
    have hroll : (u.emitAll xs).txRollback u.tx.snapshot =
        { u with tx := { u.tx with buf := (u.emitAll xs).tx.buf } } := by
      rw [← k1, State.txRollback, State.emitAll_eq, k2]
    simp only [State.encException, hroll, Host.Outcome.next.injEq] at h
    refine ⟨u, hu, hF, hst, hsl, ?_⟩
    by_cases hb : (requestOf i).bcast
    · simp only [hb, if_true] at h
      subst h
      refine ⟨hcells, .inl ?_⟩
      simp only [State.discardHead]
      rw [← htx, ← hq, ← hcfg, hur.empty]
    · simp only [hb, if_false, Bool.false_eq_true] at h
      have hbw : cellsWf ({ u with tx := { u.tx with buf := (u.emitAll xs).tx.buf } } : State).cfg.txCap
          ({ u with tx := { u.tx with buf := (u.emitAll xs).tx.buf } } : State).tx.buf = true := by
        show cellsWf u.cfg.txCap _ = true
        rw [hcfg]
        exact hcells
      have hc5 : 5 ≤ ({ u with tx := { u.tx with buf := (u.emitAll xs).tx.buf } } : State).cfg.txCap := by
        show 5 ≤ u.cfg.txCap
        rw [hcfg]
        omega
      have he := State.sendException_eq hbw hc5 (requestOf i).fc code
      obtain ⟨-, hs2, hs3, hs4, -⟩ := State.sendException_tx hbw hc5 (requestOf i).fc code
      have hsc := State.sendException_cells hbw hc5 (requestOf i).fc code
      subst h
      refine ⟨?_, .inr ⟨?_, ?_, ?_, ?_⟩⟩
      · rw [← hcfg]
        exact hsc
      · rw [he, State.discardHead, ← hq, ← hcfg]
      · show (State.sendException _ _ _).tx.head < _
        rw [hs2]
        omega
      · show (State.sendException _ _ _).tx.count ≤ _
        rw [hs3]
        omega
      · show (State.sendException _ _ _).tx.tail =
          ((State.sendException _ _ _).tx.head + (State.sendException _ _ _).tx.count) % _
        rw [hs2, hs3, hs4, ← hcfg]

/-! ## The script and the waiting events -/

/-- No instruction touches the script or the waiting events. -/
theorem exec_script {i : Instr} {s t : State} (he : exec i s = .next t) :
    t.inputs = s.inputs ∧ t.waiting = s.waiting := by
  obtain ⟨k, hk, hx⟩ := exec_cases i s
  rw [hx] at he
  cases hq : s.q.create s.cfg.qCap (requestOf i) with
  | none =>
    rw [hq] at he
    cases he
    exact ⟨by simp, by simp⟩
  | some q =>
    rw [hq] at he
    simp only [Host.Outcome.next.injEq] at he
    subst he
    cases hk with
    | accept hv => exact ⟨by simp, by simp⟩
    | drop hv r hr hf => exact ⟨by simp, by simp⟩
    | answer hv hf =>
      simp only [State.badByteCount]
      split <;> exact ⟨by simp, by simp⟩

/-- No answer touches them. -/
theorem answer_script {d : PendingRequest} {s t : State} (h : answer d s = .next t) :
    t.inputs = s.inputs ∧ t.waiting = s.waiting := by
  have hf := bodyOf_framed d s
  rw [answer] at h
  generalize bodyOf d s = r at h hf
  cases r with
  | neverQueued => cases h
  | exc code t' =>
    cases h
    have := (show BodyFrame d s t' from hf).rest
    simp only [State.discardHead_inputs, State.discardHead_waiting, State.encException_inputs,
      State.encException_waiting]
    rw [this]
    exact ⟨rfl, rfl⟩
  | ok t' =>
    have := (show BodyFrame d s t' from hf).rest
    simp only at h
    split at h
    · cases h
      simp only [State.discardHead_inputs, State.discardHead_waiting, State.txRollback_inputs,
        State.txRollback_waiting]
      rw [this]
      exact ⟨rfl, rfl⟩
    · cases h
      simp only [State.discardHead_inputs, State.discardHead_waiting, State.finishFrame_inputs,
        State.finishFrame_waiting]
      rw [this]
      exact ⟨rfl, rfl⟩

/-- No handler touches them: the script and the waiting events change only as the event is taken. -/
theorem Handled.script {e : Event} {s t : State} (h : Handled s e t) :
    t.inputs = s.inputs ∧ t.waiting = s.waiting := by
  cases h with
  | rxByte x => rw [handleRxByte]; split <;> exact ⟨rfl, rfl⟩
  | txReady =>
    rw [handleTxReady]
    repeat' split
    all_goals exact ⟨rfl, rfl⟩
  | run hp i t he => exact (exec_script he :)
  | answer d hq hk hi t ha => exact (answer_script ha :)
  | hostWrite r v =>
    cases r <;> first | exact ⟨rfl, rfl⟩ | (simp only [State.hostWrite]; split <;> exact ⟨rfl, rfl⟩)
  | _ => exact ⟨rfl, rfl⟩

end Sys2Proof.Machine
end

