-- ==== Sys2Proof/Tests/Slice0.lean ====
section
/-! SUPPORT. Tests: each theorem's expected result comes from the vector of 95_test_vectors.md, or the
rule's example, that its comment names. -/

namespace Sys2Proof.Tests

set_option Elab.async false

open Sys2Proof Sys2Proof.Machine

/-! ## WellFormed refuses -/

/-- R56, R179: a SHORT prefix 0xFA would read as LONG. -/
theorem test_wf_refuses_short_fa : (Instr.rdHolding (.short 0xFA) 0 1).wellFormed = false := by decide

/-- R58: the byte count is one byte. -/
theorem test_wf_refuses_long_data :
    (Instr.wrMulti (.short 1) 0 128 (List.replicate 256 0)).wellFormed = false := by decide +kernel

theorem test_wf_accepts_full_data :
    (Instr.wrMulti (.long 0x12345678) 0 127 (List.replicate 255 0)).wellFormed = true := by decide +kernel

/-! ## CRC (V-CRC-1 to V-CRC-6) -/

theorem test_crc_empty : crc16 [] = 0xFFFF := by decide +kernel
theorem test_crc_00 : crc16 [0x00] = 0x40BF := by decide +kernel
theorem test_crc_frame : crc16 [0x01, 0x03, 0, 0, 0, 0x02] = 0x0BC4 := by decide +kernel
theorem test_crc_check :
    crc16 [0x31, 0x32, 0x33, 0x34, 0x35, 0x36, 0x37, 0x38, 0x39] = 0x4B37 := by decide +kernel
theorem test_crc_own : crc16 [0x01, 0x03, 0, 0, 0, 0x02, 0xC4, 0x0B] = 0 := by decide +kernel

/-! ## Decode: frames written out from R58 -/

/-- V-COIL-1. -/
theorem test_decode_rd_coils :
    decode [0x01, 0x01, 0x00, 0x00, 0x00, 0x0A, 0xBC, 0x0D] =
      .instr (.rdCoils (.short 1) 0 10) 8 := by decide +kernel
/-- V-COIL-2. -/
theorem test_decode_rd_discretes :
    decode [0x01, 0x02, 0x00, 0x00, 0x00, 0x0A, 0xF8, 0x0D] =
      .instr (.rdDiscretes (.short 1) 0 10) 8 := by decide +kernel
/-- V-RX-10, a LONG frame. -/
theorem test_decode_rd_holding_long :
    decode [0xFA, 0x12, 0x34, 0x56, 0x78, 0x03, 0x00, 0xC8, 0x00, 0x01, 0xBB, 0xE0] =
      .instr (.rdHolding (.long 0x12345678) 200 1) 12 := by decide +kernel
/-- V-INT-3. -/
theorem test_decode_rd_input :
    decode [0x01, 0x04, 0x00, 0xC8, 0x00, 0x02, 0xF0, 0x35] =
      .instr (.rdInput (.short 1) 200 2) 8 := by decide +kernel
/-- V-COIL-8, with a byte behind the frame. -/
theorem test_decode_wr_coil :
    decode [0x01, 0x05, 0x00, 0x00, 0xFF, 0x00, 0x8C, 0x3A, 0x01] =
      .instr (.wrCoil (.short 1) 0 0xFF00) 8 := by decide +kernel
/-- V-INT-13. -/
theorem test_decode_wr_reg :
    decode [0x01, 0x06, 0x00, 0xC8, 0x00, 0x07, 0x49, 0xF6] =
      .instr (.wrReg (.short 1) 200 7) 8 := by decide +kernel
/-- V-INT-18. -/
theorem test_decode_wr_multi :
    decode [0x01, 0x10, 0x00, 0xC8, 0x00, 0x02, 0x04, 0x00, 0x0C, 0xFF, 0xF6, 0xFF, 0xEC] =
      .instr (.wrMulti (.short 1) 200 2 [0x00, 0x0C, 0xFF, 0xF6]) 13 := by decide +kernel
/-- V-DIAG-1. -/
theorem test_decode_diag_sample :
    decode [0x01, 0x42, 0x00, 0x00, 0x12, 0x34, 0x74, 0xB2] =
      .instr (.diagSample (.short 1) 0 0x1234) 8 := by decide +kernel
/-- V-RX-14. -/
theorem test_decode_force_addr :
    decode [0x00, 0x44, 0x12, 0x34, 0x56, 0x78, 0x05, 0xA0, 0x64] =
      .instr (.forceAddr (.short 0) 0x12345678 5) 9 := by decide +kernel
/-- V-RX-4. -/
theorem test_decode_unknown :
    decode [0x01, 0x2B, 0, 0, 0, 0x01, 0xE4, 0x0C] = .reject (.unknownFunction 0x2B) := by
  decide +kernel
/-- V-RX-5. -/
theorem test_decode_bad_crc :
    decode [0x01, 0x03, 0, 0, 0, 0x02, 0xC4, 0x0C] = .reject .crcMismatch := by decide +kernel
/-- V-RX-8. -/
theorem test_decode_incomplete :
    decode [0x01, 0x10, 0x00, 0xC8, 0x00, 0x02, 0x04, 0x00, 0x0C, 0xFF] = .reject .incomplete := by
  decide +kernel

/-! ## Operations -/

/-- 40_bytering.md R69's example, capacity 4. -/
theorem test_ring_put_full :
    (Ring.put 4 false ⟨[(0, 10), (1, 11), (2, 12), (3, 13)], 1, 1, 4⟩ 0x99) =
      (⟨[(0, 10), (1, 0x99), (2, 12), (3, 13)], 1, 1, 4⟩, true) := by decide
/-- R70's example. -/
theorem test_ring_get_wraps :
    (Ring.get 4 0 ⟨[(0, 7), (1, 8), (2, 5), (3, 6)], 3, 1, 2⟩) =
      (6, ⟨[(0, 7), (1, 8), (2, 5), (3, 6)], 0, 1, 1⟩) := by decide
/-- R77's example. -/
theorem test_crc_ring_wraps :
    Ring.crc 8 ⟨[(3, 2), (6, 1), (7, 3)], 6, 4, 6⟩ 6 6 = 0x0BC4 := by decide +kernel
/-- V-Q-4. -/
theorem test_discard_tail_wraps :
    (Queue.discardTail 4 ⟨[none, none, none, some (diagRequest (.short 1) 0 0)], 3, 0, 1⟩) =
      ⟨[none, none, none, none], 3, 3, 0⟩ := by decide
/-- R36, R120: a coil value false is held as such and is no register value, whoever reads it. -/
theorem test_store_is_total :
    storeGet (storePut State.reset.store ⟨2001, 0⟩ (.bool false)) ⟨2001, 0⟩ = .bool false ∧
      rd16 .away (.bool false) 0 = none ∧ storeGet State.reset.store ⟨2011, 0⟩ = .i32 0 ∧
      storeGet State.reset.store ⟨207, 0⟩ = .ann 0 ∧
      storeGet State.reset.store ⟨2010, 0⟩ = .bool true := by decide +kernel
/-- R183: with equal patience the longest waiting event is due. -/
theorem test_first_due :
    firstDue [(.tick, 2), (.recv, 1), (.txReady, 1)] = some (.recv, 1) := by decide
/-- R38, R39 (d), R106: register numbers 2000 and 60000 reach table address 0, where the linear tables
end; R108: the extended table has no sentinel (log 23). -/
theorem test_address_zero :
    (classify 2000).start = 0 ∧ lookupLinear cfgA.floatTable 0 = none ∧
      (classify 60000).start = 0 ∧ (classify 60000).ext = true ∧
      (lookupExt 400 [⟨0, .rawDouble, .readOnly, 3000⟩] 0).map (·.ref) = some ⟨3000, 0⟩ := by decide
/-- V-DSP-1. -/
theorem test_lookup_linear :
    (lookupLinear cfgA.intTable 208).map (·.ref) = some ⟨208, 0⟩ ∧
      lookupLinear cfgA.intTable 209 = none ∧ lookupLinear cfgA.intTable 0 = none := by decide
/-- V-DSP-2. -/
theorem test_lookup_ext :
    ([99, 100, 105, 106, 299, 300, 399, 400].map fun a =>
      (lookupExt 400 cfgA.extTable a).map (·.ref)) =
      [none, some ⟨3000, 0⟩, some ⟨3000, 2⟩, some ⟨3000, 3⟩, some ⟨3000, 99⟩, some ⟨3001, 0⟩,
        some ⟨3001, 49⟩, none] := by decide
/-- V-PERM, the column WRITE (0,1) and the column READ. -/
theorem test_permission_matrix :
    ([Perm.volatile, .password, .factory, .readOnly, .writeOnly].map fun p =>
      (noPermission false false p .read, noPermission false true p .write,
        noPermission true true p .write)) =
      [(false, false, false), (false, true, false), (false, true, false), (false, true, true),
        (true, true, true)] := by decide
/-- V-ORDER. -/
theorem test_byte_orders :
    ([ByteOrder.abcd, .badc, .cdab, .dcba].map fun o => orderedBytes o 0x3FC00000) =
      [[0x3F, 0xC0, 0, 0], [0xC0, 0x3F, 0, 0], [0, 0, 0x3F, 0xC0], [0, 0, 0xC0, 0x3F]] := by decide
/-- R119's examples and V-FLT-2. -/
theorem test_round :
    f64Round .away 0x4004000000000000 = some 3 ∧ f64Round .even 0x4004000000000000 = some 2 ∧
      f64Round .away 0xC004000000000000 = some (-3) ∧ f64Round .even 0xC004000000000000 = some (-2) ∧
      f64Round .away 0xBFD999999999999A = some 0 := by decide +kernel
theorem test_narrow :
    narrowF64 0x3FB999999999999A 0 = (0x3DCCCCCD, 0) ∧ rdF (.i32 12) 0 = some (0x41400000, 0) := by
  decide +kernel
/-- R123's and R125's examples. -/
theorem test_write_coercions :
    wr16 0xFFF6 .rawDouble 0 = some (.f64 0xC024000000000000, 0) ∧
      wrF .away 0x3FC00000 .rawDouble 0 = some (.f64 0x3FF8000000000000, 0) ∧
      wrF .away 0x3FC00000 .rawInteger 0 = some (.i32 2, 0) := by decide +kernel
/-- R38 at its edges: 201, 500, 501, 2201, 8001, 60100, 65536. -/
theorem test_classify :
    ([201, 301, 500, 501, 2201, 8001, 60100, 65536].map fun s =>
      let b := classify s
      (b.cls, b.start, b.order, b.lvf, b.ext, b.badOffset)) =
      [(.int, 201, .abcd, false, false, false), (.long, 301, .abcd, false, false, false),
        (.int, 500, .abcd, false, false, false), (.float, 501, .abcd, false, false, false),
        (.float, 201, .badc, false, false, false), (.float, 1, .abcd, true, false, false),
        (.float, 100, .abcd, false, true, false), (.float, 1536, .abcd, false, false, true)] := by
  decide

/-! ## One RECV step -/

/-- The state a RECV of a frame leaves, from CFG-A's reset state. -/
def afterRecv (frame : List Byte) (f : State → Bool) : Bool :=
  match step (State.reset.withFrame frame) with
  | .next t => f t
  | .fault _ | .refused _ => false

/-- V-RX-1. -/
theorem test_recv_rd_holding :
    afterRecv [0x01, 0x03, 0x00, 0xC8, 0x00, 0x02, 0x45, 0xF5] (fun t =>
      t.q.first == some (registerReadRequest 3 (.short 1) 200 2) && t.q.count == 1 &&
        t.rx.head == 8 && t.rx.tail == 8 && t.rx.count == 0 &&
        t.ctimer.int == .running 2 && t.rxPosted == false) = true := by decide +kernel
/-- V-RX-2. -/
theorem test_recv_waits :
    afterRecv [0x01, 0x03, 0x00, 0x00, 0x00] (fun t =>
      t.wdog == .running 3 && t.wdogN == 5 && t.rx.count == 5) = true := by decide +kernel
/-- V-RX-3. -/
theorem test_recv_other_address :
    afterRecv [0x02, 0x03, 0x00, 0x00, 0x00, 0x02, 0xC4, 0x38] (fun t =>
      t.rx.count == 0 && t.q.count == 0 && t.faultCount == 0) = true := by decide +kernel
/-- V-RX-4. -/
theorem test_recv_unknown :
    afterRecv [0x01, 0x2B, 0x00, 0x00, 0x00, 0x01, 0xE4, 0x0C] (fun t =>
      t.rx.count == 0 && t.faultCount == 1 && t.crcFaultCount == 0) = true := by decide +kernel
/-- V-RX-5. -/
theorem test_recv_bad_crc :
    afterRecv [0x01, 0x03, 0x00, 0x00, 0x00, 0x02, 0xC4, 0x0C] (fun t =>
      t.rx.count == 0 && t.faultCount == 1 && t.crcFaultCount == 1) = true := by decide +kernel
/-- V-RX-6. -/
theorem test_recv_broadcast_read :
    afterRecv [0x00, 0x03, 0x00, 0xC8, 0x00, 0x01, 0x04, 0x25] (fun t =>
      t.rx.count == 0 && t.q.count == 0 && t.faultCount == 0) = true := by decide +kernel
/-- V-RX-7. -/
theorem test_recv_wr_coil_malformed :
    afterRecv [0x01, 0x05, 0x00, 0x00, 0x12, 0x34, 0xC0, 0xBD] (fun t =>
      t.rx.count == 0 && t.q.count == 0 && t.q.tail == 0 && t.faultCount == 0) = true := by
  decide +kernel
/-- V-RX-9 (S3). -/
theorem test_recv_wr_multi_bad_count :
    afterRecv [0x01, 0x10, 0x00, 0xC8, 0x00, 0x02, 0x03, 0x00, 0x0C, 0xFF, 0x99, 0x0A] (fun t =>
      t.txBytes == [0x01, 0x90, 0x03, 0x0C, 0x01] && t.txInProgress && t.q.count == 0 &&
        t.rx.head == 12 && t.rx.count == 0) = true := by decide +kernel
/-- V-RX-12. -/
theorem test_recv_long_waits :
    afterRecv [0xFA, 0x12, 0x34, 0x56, 0x78, 0x03, 0x00] (fun t => t.wdogN == 7) = true := by
  decide +kernel
/-- V-RX-14. -/
theorem test_recv_force_addr :
    afterRecv [0x00, 0x44, 0x12, 0x34, 0x56, 0x78, 0x05, 0xA0, 0x64] (fun t =>
      t.q.first == some (forceRequest (.short 0) 5) && t.ctimer.force == .running 2) = true := by
  decide +kernel
/-- V-RX-15. -/
theorem test_recv_leaves_rest :
    afterRecv [0x01, 0x03, 0x00, 0xC8, 0x00, 0x02, 0x45, 0xF5, 0x01] (fun t =>
      t.rx.head == 8 && t.rx.tail == 9 && t.rx.count == 1 && t.rxPosted == false) = true := by
  decide +kernel

/-! ## One CLASS_FIRE step -/

/-- A state with the request of an instruction at the queue's head and its class timer expired. -/
def due (i : Instr) (s : State) : State :=
  { s with
    q := ⟨[some (requestOf i), none, none, none], 0, 1, 1⟩
    ctimer := perClassSet s.ctimer (requestOf i).cls .expired
    inputs := [.classFire (requestOf i).cls] }

/-- What the CLASS_FIRE that answers an instruction leaves. -/
def afterFire (i : Instr) (s : State) (f : State → Bool) : Bool :=
  match step (due i s) with
  | .next t => f t
  | .fault _ | .refused _ => false

/-- The bytes the CLASS_FIRE that answers an instruction leaves in TX. -/
def response (i : Instr) : List Byte :=
  match step (due i .reset) with
  | .next t => t.txBytes
  | .fault _ | .refused _ => []

/-- V-COIL-1. -/
theorem test_fire_rd_coils :
    response (.rdCoils (.short 1) 0 10) = [0x01, 0x01, 0x02, 0xA5, 0x02, 0x43, 0x6D] := by
  decide +kernel
/-- V-COIL-5: coil 11 is a raw integer. -/
theorem test_fire_rd_coils_kind :
    response (.rdCoils (.short 1) 0 11) = [0x01, 0x81, 0x04, 0x41, 0x93] := by decide +kernel
/-- V-COIL-2. -/
theorem test_fire_rd_discretes :
    response (.rdDiscretes (.short 1) 0 10) = [0x01, 0x02, 0x02, 0xA5, 0x02, 0x43, 0x29] := by
  decide +kernel
/-- V-INT-4. -/
theorem test_fire_rd_holding_int :
    response (.rdHolding (.short 1) 201 3) =
      [0x01, 0x03, 0x06, 0xFF, 0xF6, 0x00, 0x0D, 0x12, 0x34, 0x61, 0xDB] := by decide +kernel
/-- V-FLT-3. -/
theorem test_fire_rd_holding_float :
    response (.rdHolding (.short 1) 0 6) =
      [0x01, 0x03, 0x0C, 0x3F, 0xC0, 0, 0, 0x3D, 0xCC, 0xCC, 0xCD, 0x41, 0x40, 0, 0, 0xDC, 0x52] := by
  decide +kernel
/-- V-INT-3. -/
theorem test_fire_rd_input_int :
    response (.rdInput (.short 1) 200 2) = [0x01, 0x04, 0x04, 0x00, 0x0C, 0xFF, 0xF6, 0xFA, 0x31] := by
  decide +kernel
/-- V-FLT-12 read with RD_HOLDING: the extended table. -/
theorem test_fire_rd_holding_ext :
    response (.rdHolding (.short 1) 0xEAC9 4) =
      [0x01, 0x03, 0x08, 0x40, 0x40, 0, 0, 0x40, 0x80, 0, 0, 0xC4, 0x0B] := by decide +kernel
/-- V-COIL-9. -/
theorem test_fire_wr_coil :
    afterFire (.wrCoil (.short 1) 1 0) .reset (fun t =>
      t.txBytes == [0x01, 0x05, 0x00, 0x01, 0x00, 0x00, 0x9C, 0x0A] &&
        storeGet t.store ⟨2002, 0⟩ == .bool false && t.persistReq == false) = true := by
  decide +kernel
/-- V-INT-22 (P2). -/
theorem test_fire_wr_reg_password :
    afterFire (.wrReg (.short 1) 202 7) { State.reset with unlocked := true } (fun t =>
      t.txBytes == [0x01, 0x06, 0x00, 0xCA, 0x00, 0x07, 0xE8, 0x36] && t.persistReq &&
        storeGet t.store ⟨203, 0⟩ == .f64 0x401C000000000000) = true := by decide +kernel
/-- V-LONG-9: WR_REG to the long band. -/
theorem test_fire_wr_reg_long :
    response (.wrReg (.short 1) 300 1) = [0x01, 0x86, 0x01, 0x83, 0xA0] := by decide +kernel
/-- V-INT-19: a partial write. -/
theorem test_fire_wr_multi_partial :
    afterFire (.wrMulti (.short 1) 201 2 [0, 1, 0, 2]) .reset (fun t =>
      t.txBytes == [0x01, 0x90, 0x03, 0x0C, 0x01] &&
        storeGet t.store ⟨202, 0⟩ == .i32 1 &&
        storeGet t.store ⟨203, 0⟩ == .f64 0x4029000000000000) = true := by decide +kernel
/-- V-FLT-14: a CDAB payload. -/
theorem test_fire_wr_multi_float :
    afterFire (.wrMulti (.short 1) 4000 2 [0, 0, 0x3F, 0xC0]) .reset (fun t =>
      t.txBytes == [0x01, 0x10, 0x0F, 0xA0, 0x00, 0x02, 0x42, 0xFE] &&
        storeGet t.store ⟨1, 0⟩ == .f64 0x3FF8000000000000) = true := by decide +kernel
/-- R139: 73 bytes, whatever the snapshot. -/
theorem test_fire_diag_sample :
    afterFire (.diagSample (.short 1) 0 0x1234) .reset (fun t =>
      t.tx.count == 73 && t.txInProgress && t.q.count == 0) = true := by
  decide +kernel
/-- V-FA-1. -/
theorem test_fire_force_addr :
    afterFire (.forceAddr (.short 1) 0x12345678 5) .reset (fun t =>
      t.slaveAddr == 5 &&
        t.txBytes == [0x05, 0x44, 0x12, 0x34, 0x56, 0x78, 0x05, 0xF5, 0x64]) = true := by
  decide +kernel
/-- V-FA-4: broadcast, nothing sent. -/
theorem test_fire_force_addr_broadcast :
    afterFire (.forceAddr (.short 0) 0x12345678 5) .reset (fun t =>
      t.slaveAddr == 5 && t.tx.count == 0 && t.tx.tail == 0 && t.txInProgress == false &&
        t.q.count == 0) = true := by decide +kernel

/-! ## Witnesses: states that meet the hypotheses of each statement of the obligations -/

/-- CFG-A's start with other behaviour switches. -/
def start (w : WritePolicy) (r : RxDuringTx) (adv : Bool) : State :=
  State.resetOf { cfgA with writePolicy := w, rxDuringTx := r, overwriteAdvancesTail := adv } storeA

theorem start_eq_reset : start .partialWrites .accept false = State.reset := rfl

theorem start_inv (w : WritePolicy) (r : RxDuringTx) (adv : Bool) : Inv (start w r adv) where
  config := by cases w <;> cases r <;> cases adv <;> decide +kernel
  rx := ⟨Nat.succ_pos 267, Nat.succ_pos 267, Nat.zero_le _, fun _ => rfl, rfl⟩
  tx := ⟨Nat.succ_pos 258, Nat.succ_pos 258, Nat.zero_le _, fun _ => rfl, rfl⟩
  txTail := rfl
  queue := QueueOk.reset _ (show 2 ≤ 4 by decide)
  wdog := trivial
  wdogN := Nat.zero_le _
  ctimer := fun k => by cases k <;> trivial
  txGate := fun _ => rfl
  txie := rfl
  line := show LineMode.receive = .transmit ↔ false = true by decide
  slave := show 1 ≤ (1 : Byte).toNat ∧ (1 : Byte).toNat ≤ 247 by decide
  store := storeWf_reset

/-- `s` with `n` buffered bytes and RECV posted. -/
def buffered (n : Nat) (s : State) : State :=
  { s with rx := ⟨[], 0, n % s.cfg.rxCap, n⟩, rxPosted := true }

theorem buffered_inv {s : State} (h : Inv s) {n : Nat} (hn : n ≤ s.cfg.rxCap) : Inv (buffered n s) :=
  { h with
    rx := ⟨Nat.lt_of_le_of_lt (Nat.zero_le _) h.rx.head_lt,
      Nat.mod_lt _ (Nat.lt_of_le_of_lt (Nat.zero_le _) h.rx.head_lt), hn,
      fun _ => by simp only [buffered, Nat.zero_add], rfl⟩ }

/-- `s` while `n` bytes, all 0x00, are left to send. -/
def sending (n : Nat) (s : State) : State :=
  { s with tx := ⟨[], 0, n, n⟩, txInProgress := true, txie := true, lineMode := .transmit }

theorem sending_inv {s : State} (h : Inv s) {n : Nat} (hn : n < s.cfg.txCap) : Inv (sending n s) :=
  { h with
    tx := ⟨Nat.lt_of_le_of_lt (Nat.zero_le _) hn, hn, Nat.le_of_lt hn,
      fun _ => by simp only [sending, Nat.zero_add, Nat.mod_eq_of_lt hn], rfl⟩
    txTail := by simp only [sending, Nat.zero_add, Nat.mod_eq_of_lt hn]
    txGate := fun h => nomatch h
    txie := rfl
    line := by simp [sending] }

theorem perClassSet_ok {p : PerClass Timer} {k : RegClass} {x : Timer}
    (h : ∀ k, TimerOk (perClassGet p k)) (hx : TimerOk x) (k' : RegClass) :
    TimerOk (perClassGet (perClassSet p k x) k') := by
  have := h k'
  cases k <;> cases k' <;> first | exact hx | exact this

/-- A request made of an instruction is due at the head of an empty queue. -/
theorem due_due {s : State} (hs : Inv s) (hq : s.q = State.reset.q) (hc : s.cfg.qCap = 4)
    (hi : s.txInProgress = false) {i : Instr} (hv : valueChecked s.cfg i) :
    Due (requestOf i) (due i s) where
  inv :=
    { hs with
      queue := QueueOk.create (c := s.cfg) hs.queue (by omega) ⟨i, hv, rfl⟩ (by rw [hq, hc]; rfl)
      ctimer := perClassSet_ok hs.ctimer trivial }
  first := rfl
  expired := by simp only [due]; cases (requestOf i).cls <;> rfl
  idle := hi

theorem reset_due {i : Instr} (hv : valueChecked cfgA i) : Due (requestOf i) (due i .reset) :=
  due_due (start_inv .partialWrites .accept false) rfl rfl rfl hv

/-! ### Frames and operand forms -/

theorem witness_DecodeOfEncode :
    (Instr.wrMulti (.long 0x12345678) 0 127 (List.replicate 255 0)).wellFormed = true ∧
      (Instr.rdCoils (.short 0xFF) 0xFFFF 0xFFFF).wellFormed = true := by decide +kernel

/-- V-COIL-8, with a byte behind the frame. -/
theorem witness_EncodeOfDecode :
    decode [0x01, 0x05, 0x00, 0x00, 0xFF, 0x00, 0x8C, 0x3A, 0x01] =
      .instr (.wrCoil (.short 1) 0 0xFF00) 8 := by decide +kernel

/-- A SHORT frame of 8 bytes and a LONG one of 12. -/
theorem witness_OtherFunctionCodesRejected :
    8 + addressOffset [0x01, 0x2B, 0, 0, 0, 0x01, 0xE4, 0x0C] ≤ 8 ∧ fnOfCode 0x2B = none ∧
      8 + addressOffset [0xFA, 0x12, 0x34, 0x56, 0x78, 0x00, 0, 0, 0, 0, 0, 0] ≤ 12 ∧
      fnOfCode 0x00 = none := by decide

theorem witness_CrcValidIffCrcZero :
    3 ≤ [0x00, 0xBF, (0x40 : Byte)].length ∧ crcValid [0x00, 0xBF, 0x40] = true ∧
      crcValid [0x00, 0xBF, 0x41] = false := by decide +kernel

/-- R38: each clause at its edges. -/
theorem witness_ClassifyBands :
    ([1, 200, 201, 300, 301, 400, 401, 500, 501, 2000, 2201, 10000, 60001, 65536].map fun s =>
      ((classify s).cls, (classify s).start)) =
      [(.float, 1), (.float, 200), (.int, 201), (.int, 300), (.long, 301), (.long, 400), (.int, 401),
        (.int, 500), (.float, 501), (.float, 0), (.float, 201), (.float, 0), (.float, 1),
        (.float, 1536)] := by decide

theorem witness_LinearLookupFindsFirst :
    lookupLinear cfgA.intTable 201 = some ⟨⟨201, 0⟩, .rawInteger, .volatile⟩ := by decide

theorem witness_ExtendedLookupScansIntervals :
    lookupExt 400 cfgA.extTable 399 = some ⟨⟨3001, 49⟩, .rawDouble, .readOnly⟩ := by decide

/-- An infinity, an exact tie, and a value with a nonnegative exponent. -/
theorem witness_RoundGoesToNearest :
    f64Finite 0x7FF0000000000000 = none ∧
      (f64Finite 0x4004000000000000).map (·.e) = some (-51) ∧
      (f64Finite 0x4340000000000000).map (·.e) = some 1 := by decide +kernel

/-- The smallest subnormal, minus zero and an infinity. -/
theorem witness_FloatRoundTrip :
    f32IsNan 0x00000001 = false ∧ f32IsNan 0x80000000 = false ∧ f32IsNan 0x7F800000 = false := by
  decide

/-! ### The receiver -/

/-- A state with a received frame, RECV posted. -/
def received (frame : List Byte) : State := State.reset.withFrame frame

theorem witness_StepHandlesTheNextEvent :
    (configOk (State.reset.offer .recv).cfg = true ∧ (State.reset.offer .recv).inputs = [.recv] ∧
      enabled .recv (State.reset.offer .recv) = false) ∧
    (State.reset.inputs = [] ∧ promisedEvents .reset = []) ∧
    (sending 2 .reset).inputs = [] ∧ promisedEvents (sending 2 .reset) = [.txReady] := by
  decide +kernel

/-- A run: with TX empty, TX_READY is promised, comes and ends the transmission. -/
def transmissionEnds : Nat → State
  | 0 => sending 0 .reset
  | _ + 1 => { State.reset with freeCount := 1 }

theorem witness_StepHandlesTheNextEvent_run :
    (∀ n, step (transmissionEnds n) = .next (transmissionEnds (n + 1))) ∧
      .txReady ∈ promisedEvents (transmissionEnds 0) := by
  have hp : promisedEvents (sending 0 .reset) = [.txReady] := by decide
  refine ⟨fun n => ?_, by rw [transmissionEnds, hp]; simp⟩
  have hc : configOk cfgA = true := by decide +kernel
  cases n with
  | zero =>
    have hq : State.promises (sending 0 .reset) = [(.txReady, Config.freePatience 0)] := rfl
    have hn : nextEvent (sending 0 .reset) = some .txReady := by
      rw [nextEvent, show (sending 0 .reset).inputs = [] from rfl, hq]
      rfl
    rw [transmissionEnds, step, if_pos (show configOk (sending 0 .reset).cfg = true from hc), hn]
    simp only [State.takeEvent, show (sending 0 .reset).inputs = [] from rfl, hq, hp]
    rfl
  | succ n =>
    rw [transmissionEnds, transmissionEnds, step,
      if_pos (show configOk ({ State.reset with freeCount := 1 } : State).cfg = true from hc)]
    rfl

/-- V-RX-1, and V-RX-14, a broadcast. -/
theorem witness_StepRunsTheDecodedInstruction :
    (configOk (received [0x01, 0x03, 0x00, 0xC8, 0x00, 0x02, 0x45, 0xF5]).cfg = true ∧
      (received [0x01, 0x03, 0x00, 0xC8, 0x00, 0x02, 0x45, 0xF5]).inputs = [.recv] ∧
      (received [0x01, 0x03, 0x00, 0xC8, 0x00, 0x02, 0x45, 0xF5]).rxPosted = true ∧
      decode (received [0x01, 0x03, 0x00, 0xC8, 0x00, 0x02, 0x45, 0xF5]).rxBytes =
        .instr (.rdHolding (.short 1) 200 2) 8 ∧
      addressed (received [0x01, 0x03, 0x00, 0xC8, 0x00, 0x02, 0x45, 0xF5]) (.short 1)) ∧
    decode (received [0x00, 0x44, 0x12, 0x34, 0x56, 0x78, 0x05, 0xA0, 0x64]).rxBytes =
      .instr (.forceAddr (.short 0) 0x12345678 5) 9 ∧
    addressed (received [0x00, 0x44, 0x12, 0x34, 0x56, 0x78, 0x05, 0xA0, 0x64]) (.short 0) ∧
    addressBcast (.short 0) = true ∧ fnRefusesBroadcast .forceAddr = false :=
  ⟨⟨by decide +kernel, by decide +kernel, rfl, by decide +kernel, .inl rfl⟩, by decide +kernel,
    .inr rfl, rfl, rfl⟩

/-- Seven bytes, eleven bytes of a LONG frame, and V-RX-8. -/
theorem witness_IncompleteFrameArmsWatchdog :
    (received [1, 3, 0, 0, 0, 2, 0xC4]).rxBytes.length < 8 ∧
    ((received [0xFA, 0, 0, 0, 0, 0, 0, 0, 0, 0, 0]).rxBytes.getD 0 0 = 0xFA ∧
      (received [0xFA, 0, 0, 0, 0, 0, 0, 0, 0, 0, 0]).rxBytes.length < 12) ∧
    addressed (received [1, 0x10, 0, 0xC8, 0, 2, 4, 0, 0x0C, 0xFF])
      (decodeAddress (received [1, 0x10, 0, 0xC8, 0, 2, 4, 0, 0x0C, 0xFF]).rxBytes) ∧
    fnOfCode ((received [1, 0x10, 0, 0xC8, 0, 2, 4, 0, 0x0C, 0xFF]).rxBytes.getD 1 0) =
      some .wrMulti ∧
    (received [1, 0x10, 0, 0xC8, 0, 2, 4, 0, 0x0C, 0xFF]).rxBytes.length <
      frameLengthOf .wrMulti 0
        ((received [1, 0x10, 0, 0xC8, 0, 2, 4, 0, 0x0C, 0xFF]).rxBytes.getD 6 0) :=
  ⟨by decide +kernel, by decide +kernel, .inl (by decide +kernel), by decide +kernel,
    by decide +kernel⟩

/-- V-RX-3, and a LONG frame for another serial number. -/
theorem witness_OtherDevicesFrameDropped :
    (received [2, 3, 0, 0, 0, 2, 0xC4, 0x38]).rxBytes.length = 8 ∧
    ¬ addressed (received [2, 3, 0, 0, 0, 2, 0xC4, 0x38])
      (decodeAddress (received [2, 3, 0, 0, 0, 2, 0xC4, 0x38]).rxBytes) ∧
    (received [0xFA, 0, 0, 0, 1, 3, 0, 0, 0, 2, 0, 0]).rxBytes.length = 8 + 4 ∧
    ¬ addressed (received [0xFA, 0, 0, 0, 1, 3, 0, 0, 0, 2, 0, 0])
      (decodeAddress (received [0xFA, 0, 0, 0, 1, 3, 0, 0, 0, 2, 0, 0]).rxBytes) :=
  ⟨by decide +kernel, show ¬ ((2 : Byte) = 1 ∨ (2 : Byte) = 0) by decide, by decide +kernel,
    show ¬ ((1 : U32) = 0x12345678) by decide⟩

/-- V-RX-4. -/
theorem witness_UnknownFunctionDropped :
    8 + addressOffset (received [1, 0x2B, 0, 0, 0, 1, 0xE4, 0x0C]).rxBytes ≤
      (received [1, 0x2B, 0, 0, 0, 1, 0xE4, 0x0C]).rxBytes.length ∧
    addressed (received [1, 0x2B, 0, 0, 0, 1, 0xE4, 0x0C])
      (decodeAddress (received [1, 0x2B, 0, 0, 0, 1, 0xE4, 0x0C]).rxBytes) ∧
    fnOfCode ((received [1, 0x2B, 0, 0, 0, 1, 0xE4, 0x0C]).rxBytes.getD 1 0) = none :=
  ⟨by decide +kernel, .inl (by decide +kernel), by decide +kernel⟩

/-- V-RX-6. -/
theorem witness_BroadcastReadDropped :
    8 ≤ (received [0, 3, 0, 0xC8, 0, 1, 4, 0x25]).rxBytes.length ∧
      (received [0, 3, 0, 0xC8, 0, 1, 4, 0x25]).rxBytes.getD 0 0 = 0x00 ∧
      fnOfCode ((received [0, 3, 0, 0xC8, 0, 1, 4, 0x25]).rxBytes.getD 1 0) = some .rdHolding ∧
      Fn.rdHolding ∈ [Fn.rdCoils, .rdDiscretes, .rdHolding, .rdInput, .diagSample] := by
  decide +kernel

/-- V-RX-5, and a broadcast of a write. -/
theorem witness_CrcMismatchDropped :
    ∀ frame ∈ ([[1, 3, 0, 0, 0, 2, 0xC4, 0x0C], [0, 5, 0, 0, 0xFF, 0, 0, 0]] : List (List Byte)),
      addressed (received frame) (decodeAddress (received frame).rxBytes) ∧
      crcValid ((received frame).rxBytes.take 8) = false ∧ (received frame).rxBytes.length = 8 ∧
      ∃ f, fnOfCode ((received frame).rxBytes.getD 1 0) = some f ∧
        frameLengthOf f 0 ((received frame).rxBytes.getD 6 0) = 8 ∧
        ((received frame).rxBytes.getD 0 0 = 0x00 → fnRefusesBroadcast f = false) := by
  intro frame hf
  simp only [List.mem_cons, List.not_mem_nil, or_false] at hf
  rcases hf with rfl | rfl
  · exact ⟨.inl (by decide +kernel), by decide +kernel, by decide +kernel, .rdHolding,
      by decide +kernel, by decide +kernel, by decide +kernel⟩
  · exact ⟨.inr (by decide +kernel), by decide +kernel, by decide +kernel, .wrCoil,
      by decide +kernel, by decide +kernel, by decide +kernel⟩

/-! ### The instructions in RECV -/

/-- An empty queue has room, and the longest frame of 8 + 4 bytes is buffered. -/
theorem witness_CoilReadsAreQueued :
    State.hasRoom (buffered 12 .reset) ∧ 8 + prefixOffset (.long 0x12345678) ≤ (buffered 12 .reset).rx.count :=
  ⟨show (0 : Nat) ≠ 4 - 1 by decide, by decide⟩

theorem witness_RegisterReadsAreQueued :
    State.hasRoom (buffered 8 .reset) ∧ 8 + prefixOffset (.short 1) ≤ (buffered 8 .reset).rx.count :=
  ⟨show (0 : Nat) ≠ 4 - 1 by decide, by decide⟩

theorem witness_CoilWriteIsQueued :
    ((0xFF00 : U16) = 0xFF00 ∨ (0xFF00 : U16) = 0) ∧ ((0 : U16) = 0xFF00 ∨ (0 : U16) = 0) ∧
      State.hasRoom (buffered 8 .reset) ∧ 8 + prefixOffset (.short 0) ≤ (buffered 8 .reset).rx.count :=
  ⟨by decide, by decide, show (0 : Nat) ≠ 4 - 1 by decide, by decide⟩

theorem witness_RegisterWriteIsQueued :
    State.hasRoom (buffered 8 .reset) ∧ 8 + prefixOffset (.short 1) ≤ (buffered 8 .reset).rx.count :=
  witness_RegisterReadsAreQueued

/-- The shortest and the longest data, in each of the three classes. -/
theorem witness_MultiWriteIsQueued :
    ((List.replicate 2 (0 : Byte)).length = 2 * (1 : U16).toNat ∧
      9 + prefixOffset (.short 1) + 2 ≤ (buffered 11 .reset).rx.count) ∧
    ((List.replicate 254 (0 : Byte)).length = 2 * (127 : U16).toNat ∧ 254 ≤ 255 ∧
      9 + prefixOffset (.long 0x12345678) + 254 ≤ (buffered 267 .reset).rx.count) ∧
    State.hasRoom (buffered 11 .reset) ∧ State.hasRoom (buffered 267 .reset) ∧
    (classify 201).cls = .int ∧ (classify 301).cls = .long ∧
    ((classify 2001).cls = .float ∧ (classify 2001).lvf = false) ∧
    (classify 8001).cls = .float ∧ (classify 8001).lvf = true :=
  ⟨by decide +kernel, by decide +kernel, show (0 : Nat) ≠ 4 - 1 by decide,
    show (0 : Nat) ≠ 4 - 1 by decide, by decide, by decide, by decide, by decide, by decide⟩

theorem witness_VendorRequestsAreQueued :
    State.hasRoom (buffered 13 .reset) ∧ 8 + prefixOffset (.long 0x12345678) ≤ (buffered 13 .reset).rx.count ∧
      9 + prefixOffset (.long 0x12345678) ≤ (buffered 13 .reset).rx.count ∧
      (0x12345678 : U32) = (buffered 13 .reset).cfg.pipeSerial :=
  ⟨show (0 : Nat) ≠ 4 - 1 by decide, by decide, by decide, rfl⟩

/-- V-Q-2: three requests in a queue of four slots. -/
theorem witness_FullQueueDropsTheFrame :
    ({ State.reset with q := ⟨List.replicate 3 (some (requestOf (.rdCoils (.short 1) 0 1))) ++ [none],
        0, 3, 3⟩ } : State).q.count = State.reset.cfg.qCap - 1 := rfl

theorem reset_inv : Inv .reset := start_inv .partialWrites .accept false

theorem witness_FailedValueCheckDrops :
    Inv (buffered 9 .reset) ∧ State.hasRoom (buffered 9 .reset) ∧ (1 : U16) ≠ 0xFF00 ∧ (1 : U16) ≠ 0 ∧
      (0 : U32) ≠ (buffered 9 .reset).cfg.pipeSerial :=
  ⟨buffered_inv reset_inv (by decide), show (0 : Nat) ≠ 4 - 1 by decide, by decide, by decide,
    show (0 : U32) ≠ 0x12345678 by decide⟩

/-- V-RX-9 when idle and during transmission, and a byte count of 0. -/
theorem witness_BadByteCountAnswered :
    (Inv (buffered 12 .reset) ∧ State.hasRoom (buffered 12 .reset) ∧
      ¬([0x00, 0x0C, (0xFF : Byte)].length = 2 * (2 : U16).toNat ∧ 0 < 3) ∧
      9 + prefixOffset (.short 1) + 3 ≤ (buffered 12 .reset).rx.count) ∧
    (Inv (buffered 12 (sending 2 .reset)) ∧ State.hasRoom (buffered 12 (sending 2 .reset)) ∧
      (buffered 12 (sending 2 .reset)).txInProgress = true) ∧
    ¬(([] : List Byte).length = 2 * (0 : U16).toNat ∧ 0 < ([] : List Byte).length) :=
  ⟨⟨buffered_inv reset_inv (by decide), show (0 : Nat) ≠ 4 - 1 by decide, by decide, by decide⟩,
    ⟨buffered_inv (sending_inv reset_inv (by decide)) (by decide), show (0 : Nat) ≠ 4 - 1 by decide,
      rfl⟩, by decide⟩

theorem witness_ExecFrame :
    ∃ t, Inv (buffered 8 .reset) ∧
      exec (.wrReg (.short 1) 200 7) (buffered 8 .reset) = .next t :=
  ⟨_, buffered_inv reset_inv (by decide),
    exec_queued trivial (show (0 : Nat) ≠ 4 - 1 by decide) (by decide +kernel)⟩

theorem witness_AcceptedRequestBecomesDue :
    Inv (buffered 13 .reset) ∧ (buffered 13 .reset).q.count = 0 ∧
      (buffered 13 .reset).txInProgress = false ∧
      valueChecked (buffered 13 .reset).cfg (.wrMulti (.short 1) 200 2 [0, 12, 255, 246]) ∧
      frameLength (.wrMulti (.short 1) 200 2 [0, 12, 255, 246]) ≤ (buffered 13 .reset).rx.count :=
  ⟨buffered_inv reset_inv (by decide), rfl, rfl, by rw [valueChecked]; decide, by decide +kernel⟩

/-! ### Answers -/

/-- The addresses of an instruction's request that fail to read, and why. -/
def readFailures (i : Instr) : Option ExcCode :=
  (requestAddrs cfgA (requestOf i)).findSome? ((due i .reset).readFailure (requestOf i))

/-- The same for writing. -/
def writeFailures (i : Instr) : Option ExcCode :=
  (requestAddrs cfgA (requestOf i)).findSome? ((due i .reset).writeFailure (requestOf i))

/-- Coils 1 to 10. -/
theorem witness_CoilReadAnswer :
    Due (requestOf (.rdCoils (.short 1) 0 10)) (due (.rdCoils (.short 1) 0 10) .reset) ∧
      readFailures (.rdCoils (.short 1) 0 10) = none ∧
      Due (requestOf (.rdDiscretes (.short 1) 9 1)) (due (.rdDiscretes (.short 1) 9 1) .reset) ∧
      readFailures (.rdDiscretes (.short 1) 9 1) = none :=
  ⟨reset_due trivial, by decide +kernel, reset_due trivial, by decide +kernel⟩

theorem witness_IntReadAnswer :
    Due (requestOf (.rdHolding (.short 1) 200 4)) (due (.rdHolding (.short 1) 200 4) .reset) ∧
      (requestOf (.rdHolding (.short 1) 200 4)).cls = .int ∧
      readFailures (.rdHolding (.short 1) 200 4) = none :=
  ⟨reset_due trivial, by decide, by decide +kernel⟩

/-- Registers 301 and 303, and f1 by the long-via-float offset. -/
theorem witness_LongReadAnswer :
    (Due (requestOf (.rdHolding (.short 1) 300 4)) (due (.rdHolding (.short 1) 300 4) .reset) ∧
      (requestOf (.rdHolding (.short 1) 300 4)).cls = .long ∧
      countOk (requestOf (.rdHolding (.short 1) 300 4)) ∧
      readFailures (.rdHolding (.short 1) 300 4) = none) ∧
    Due (requestOf (.rdInput (.short 1) 8000 2)) (due (.rdInput (.short 1) 8000 2) .reset) ∧
      (requestOf (.rdInput (.short 1) 8000 2)).cls = .float ∧
      (requestOf (.rdInput (.short 1) 8000 2)).lvf = true ∧
      countOk (requestOf (.rdInput (.short 1) 8000 2)) ∧
      readFailures (.rdInput (.short 1) 8000 2) = none :=
  ⟨⟨reset_due trivial, by decide, show 1 ≤ 4 ∧ 4 ≤ 125 ∧ 1 ≤ 2 by decide, by decide +kernel⟩,
    reset_due trivial, by decide, by decide, show 1 ≤ 2 ∧ 2 ≤ 125 ∧ 1 ≤ 1 by decide, by decide +kernel⟩

/-- f1, f3 and f5 in the CDAB order, and the extended table. -/
theorem witness_FloatReadAnswer :
    (Due (requestOf (.rdHolding (.short 1) 4000 6)) (due (.rdHolding (.short 1) 4000 6) .reset) ∧
      (requestOf (.rdHolding (.short 1) 4000 6)).cls = .float ∧
      (requestOf (.rdHolding (.short 1) 4000 6)).lvf = false ∧
      (requestOf (.rdHolding (.short 1) 4000 6)).badOffset = false ∧
      countOk (requestOf (.rdHolding (.short 1) 4000 6)) ∧
      readFailures (.rdHolding (.short 1) 4000 6) = none) ∧
    countOk (requestOf (.rdInput (.short 1) 60105 4)) ∧
    (requestOf (.rdInput (.short 1) 60105 4)).ext = true ∧
    readFailures (.rdInput (.short 1) 60105 4) = none :=
  ⟨⟨reset_due trivial, by decide, by decide, by decide, show 1 ≤ 6 ∧ 6 ≤ 125 ∧ 1 ≤ 3 by decide,
    by decide +kernel⟩, show 1 ≤ 4 ∧ 4 ≤ 125 ∧ 1 ≤ 2 by decide, by decide, by decide +kernel⟩

/-- An absent register, a write-only one, a coil among registers, and a register among coils. -/
theorem witness_ReadExceptions :
    Due (requestOf (.rdHolding (.short 1) 207 2)) (due (.rdHolding (.short 1) 207 2) .reset) ∧
      countOk (requestOf (.rdHolding (.short 1) 207 2)) ∧
      readFailures (.rdHolding (.short 1) 208 2) = some .badAddress ∧
      readFailures (.rdInput (.short 1) 203 2) = some .badValue ∧
      readFailures (.rdHolding (.short 1) 207 2) = some .slaveFail ∧
      readFailures (.rdCoils (.short 1) 0 11) = some .slaveFail ∧
      readFailures (.rdDiscretes (.short 1) 0 12) = some .slaveFail :=
  ⟨reset_due trivial, show 1 ≤ 2 ∧ 2 ≤ 125 by decide, by decide +kernel, by decide +kernel,
    by decide +kernel, by decide +kernel, by decide +kernel⟩

/-- One request for each clause, at the ends of its ranges. -/
theorem witness_RequestsRefusedOutright :
    (∀ i ∈ [Instr.wrReg (.short 1) 300 1, .rdHolding (.short 1) 200 0, .rdHolding (.short 1) 200 126,
        .rdCoils (.short 1) 0 2001, .rdHolding (.short 1) 300 1, .rdInput (.short 1) 65534 2,
        .forceAddr (.short 1) 0x12345678 0, .forceAddr (.short 1) 0x12345678 248],
      Due (requestOf i) (due i .reset)) ∧
    (requestOf (.wrReg (.short 1) 300 1)).cls = .long ∧
    ¬ countOk (requestOf (.rdHolding (.short 1) 200 0)) ∧
    ¬ countOk (requestOf (.rdHolding (.short 1) 200 126)) ∧
    ¬ countOk (requestOf (.rdCoils (.short 1) 0 2001)) ∧
    ¬ countOk (requestOf (.rdHolding (.short 1) 300 1)) ∧
    countOk (requestOf (.rdInput (.short 1) 65534 2)) ∧
    (requestOf (.rdInput (.short 1) 65534 2)).badOffset = true := by
  refine ⟨?_, by decide, show ¬(1 ≤ 0 ∧ 0 ≤ 125) by decide, show ¬(1 ≤ 126 ∧ 126 ≤ 125) by decide,
    show ¬(1 ≤ 2001 ∧ 2001 ≤ 2000) by decide, show ¬(1 ≤ 1 ∧ 1 ≤ 125 ∧ 1 ≤ 0) by decide,
    show 1 ≤ 2 ∧ 2 ≤ 125 ∧ 1 ≤ 1 by decide, by decide⟩
  intro i hi
  simp only [List.mem_cons, List.not_mem_nil, or_false] at hi
  rcases hi with rfl | rfl | rfl | rfl | rfl | rfl | rfl | rfl
  all_goals first | exact reset_due trivial | exact reset_due rfl

theorem witness_CoilWriteAnswer :
    Due (requestOf (.wrCoil (.short 1) 9 0)) (due (.wrCoil (.short 1) 9 0) .reset) ∧
      writeFailures (.wrCoil (.short 1) 9 0) = none :=
  ⟨reset_due (.inr rfl), by decide +kernel⟩

/-- An annotated register: its commit has a side effect. -/
theorem witness_IntWriteAnswer :
    Due (requestOf (.wrReg (.short 1) 206 0xFFFF)) (due (.wrReg (.short 1) 206 0xFFFF) .reset) ∧
      (requestOf (.wrReg (.short 1) 206 0xFFFF)).cls = .int ∧
      writeFailures (.wrReg (.short 1) 206 0xFFFF) = none :=
  ⟨reset_due trivial, by decide, by decide +kernel⟩

/-- Two integers, one long integer, one float in the CDAB order and one by the long-via-float offset. -/
theorem witness_MultiWriteAnswer :
    ∀ i ∈ [Instr.wrMulti (.short 1) 200 2 [0, 1, 0, 2], .wrMulti (.short 1) 300 2 [0, 0, 0, 1],
        .wrMulti (.short 1) 4000 2 [0, 0, 0x3F, 0xC0], .wrMulti (.short 1) 8000 2 [0, 0, 0, 1]],
      Due (requestOf i) (due i .reset) ∧ countOk (requestOf i) ∧ (requestOf i).badOffset = false ∧
        writeFailures i = none := by
  intro i hi
  simp only [List.mem_cons, List.not_mem_nil, or_false] at hi
  rcases hi with rfl | rfl | rfl | rfl
  · exact ⟨reset_due ⟨by decide, by decide, by decide⟩, trivial, by decide, by decide +kernel⟩
  all_goals
    exact ⟨reset_due ⟨by decide, by decide, by decide⟩, show 1 ≤ 1 by decide, by decide,
      by decide +kernel⟩

/-- The first of two registers can be written and the second, password-protected, not; under both
policies. -/
theorem witness_WriteExceptions :
    ∀ w, Due (requestOf (.wrMulti (.short 1) 201 2 [0, 1, 0, 2]))
        (due (.wrMulti (.short 1) 201 2 [0, 1, 0, 2]) (start w .accept false)) ∧
      countOk (requestOf (.wrMulti (.short 1) 201 2 [0, 1, 0, 2])) ∧
      requestAddrs (start w .accept false).cfg (requestOf (.wrMulti (.short 1) 201 2 [0, 1, 0, 2])) =
        [202, 203] ∧
      (due (.wrMulti (.short 1) 201 2 [0, 1, 0, 2]) (start w .accept false)).writeFailure
        (requestOf (.wrMulti (.short 1) 201 2 [0, 1, 0, 2])) 202 = none ∧
      (due (.wrMulti (.short 1) 201 2 [0, 1, 0, 2]) (start w .accept false)).writeFailure
        (requestOf (.wrMulti (.short 1) 201 2 [0, 1, 0, 2])) 203 = some .badValue := by
  intro w
  refine ⟨due_due (start_inv w _ _) rfl rfl rfl ⟨by decide, by decide, by decide⟩, trivial, ?_, ?_, ?_⟩
  all_goals cases w <;> decide +kernel

/-- A volatile register, a password-protected one and an annotated one. -/
theorem witness_CommitWritesThrough :
    storeWf State.reset.store = true ∧
      lookupLinear cfgA.intTable 203 = some ⟨⟨203, 0⟩, .rawDouble, .password⟩ ∧
      valueKind (.f64 0) = .rawDouble ∧
      lookupLinear cfgA.intTable 207 = some ⟨⟨207, 0⟩, .annotated, .volatile⟩ ∧
      valueKind (.ann 0) = .annotated :=
  ⟨storeWf_reset, by decide, rfl, by decide, rfl⟩

theorem witness_DiagSampleAnswer :
    Due (requestOf (.diagSample (.short 1) 0 0x1234)) (due (.diagSample (.short 1) 0 0x1234) .reset) ∧
      (requestOf (.diagSample (.short 1) 0 0x1234)).fc = 0x42 :=
  ⟨reset_due trivial, rfl⟩

/-- The addresses 1 and 247. -/
theorem witness_ForceAddrAnswer :
    (∀ a ∈ ([1, 247] : List Byte), Due (requestOf (.forceAddr (.short 0) 0x12345678 a))
        (due (.forceAddr (.short 0) 0x12345678 a) .reset)) ∧
      ((requestOf (.forceAddr (.short 0) 0x12345678 1)).payload.getD 0 0).toNat = 1 ∧
      ((requestOf (.forceAddr (.short 0) 0x12345678 247)).payload.getD 0 0).toNat = 247 :=
  ⟨fun _ _ => reset_due rfl, rfl, rfl⟩

/-- A timer expired over an empty queue, over a head of another class, and during transmission. -/
theorem witness_BusyRetry :
    (Inv { State.reset with ctimer := .all .expired } ∧
      perClassGet ({ State.reset with ctimer := .all .expired } : State).ctimer .int = .expired) ∧
    (Due (requestOf (.rdCoils (.short 1) 0 1))
        (due (.rdCoils (.short 1) 0 1) { State.reset with ctimer := .all .expired }) ∧
      (requestOf (.rdCoils (.short 1) 0 1)).cls ≠ .int) ∧
    Inv (due (.rdCoils (.short 1) 0 1) (sending 2 .reset)) ∧
    (due (.rdCoils (.short 1) 0 1) (sending 2 .reset)).txInProgress = true := by
  have h : Inv { State.reset with ctimer := .all .expired } :=
    { reset_inv with ctimer := fun k => by cases k <;> trivial }
  refine ⟨⟨h, rfl⟩, ⟨due_due h rfl rfl rfl trivial, by decide⟩, ?_, rfl⟩
  exact { sending_inv reset_inv (n := 2) (by decide) with
    queue := (reset_due (i := .rdCoils (.short 1) 0 1) trivial).inv.queue
    ctimer := (reset_due (i := .rdCoils (.short 1) 0 1) trivial).inv.ctimer }

/-! ### The other handlers and the whole machine -/

/-- Room for one byte, a full ring with each value of the switch, and DROP during transmission. -/
theorem witness_ReceivedByteIsBuffered :
    Inv (buffered 267 .reset) ∧ Inv (buffered 268 .reset) ∧
      Inv (buffered 268 (start .partialWrites .accept true)) ∧
      Inv (sending 2 (start .partialWrites .drop false)) :=
  ⟨buffered_inv reset_inv (by decide), buffered_inv reset_inv (by decide),
    buffered_inv (start_inv _ _ _) (show 268 ≤ 268 by decide),
    sending_inv (start_inv _ _ _) (show 2 < 259 by decide)⟩

/-- Timers that are off, running with one and with two TICKs to go, and expired. -/
theorem witness_TickStepsEveryTimer :
    configOk ({ State.reset with
      wdog := .running 1, ctimer := ⟨.running 2, .expired, .off, .off, .off, .off⟩ } : State).cfg =
      true := by decide +kernel

/-- Masked, two bytes left, and empty. -/
theorem witness_TransmitReadyDrainsOneByte :
    (Inv .reset ∧ State.reset.txie = false) ∧
      (Inv (sending 2 .reset) ∧ (sending 2 .reset).txie = true ∧ (sending 2 .reset).txBytes = [0, 0]) ∧
      Inv (sending 0 .reset) ∧ (sending 0 .reset).txBytes = [] :=
  ⟨⟨reset_inv, rfl⟩, ⟨sending_inv reset_inv (by decide), rfl, by decide +kernel⟩,
    sending_inv reset_inv (by decide), by decide +kernel⟩

/-- Five bytes recorded: more have come since, and fewer are left. -/
theorem witness_WatchdogDiscardsRecordedCount :
    ∀ n ∈ [3, 7], Inv { buffered n .reset with wdog := .expired, wdogN := 5 } := by
  intro n hn
  have h : n ≤ 268 := by
    simp only [List.mem_cons, List.not_mem_nil, or_false] at hn
    omega
  exact { buffered_inv reset_inv h with wdog := trivial, wdogN := show 5 ≤ 268 by decide }

theorem witness_HostWritesThreeRegisters : configOk State.reset.cfg = true := by decide +kernel

/-- A value of the bound kind, and one of another kind. -/
theorem witness_HostStoresOneValue :
    (∀ k ∈ boundKinds State.reset.cfg ⟨201, 0⟩, k = valueKind (.i32 7)) ∧
      (∃ k ∈ boundKinds State.reset.cfg ⟨201, 0⟩, k ≠ valueKind (.bool true)) := by decide +kernel

theorem witness_ResetValues : State.reset = State.resetOf cfgA storeA := rfl

theorem witness_InvAtReset : configOk cfgA = true ∧ storeWf storeA = true := by decide +kernel

/-- One step for all the statements about any step: a received byte. -/
theorem step_rxByte :
    ∃ t, step ((sending 2 .reset).offer (.rxByte 7)) = .next t ∧ t.txInProgress = true :=
  ⟨_, step_offer (by decide +kernel) _, rfl⟩

theorem offer_inv {s : State} (h : Inv s) (e : Event) : Inv (s.offer e) := { h with }

theorem witness_StepKeepsInv :
    ∃ t, Inv (due (.rdCoils (.short 1) 0 1) .reset) ∧
      step (due (.rdCoils (.short 1) 0 1) .reset) = .next t := by
  have h := reset_due (i := .rdCoils (.short 1) 0 1) trivial
  obtain ⟨t, ht⟩ : ∃ t, step (due (.rdCoils (.short 1) 0 1) .reset) = .next t := by
    cases hs : step (due (.rdCoils (.short 1) 0 1) .reset) with
    | next t => exact ⟨t, rfl⟩
    | fault _ | refused _ =>
      have : (match step (due (.rdCoils (.short 1) 0 1) .reset) with
        | .next _ => true | .fault _ | .refused _ => false) = true := by decide +kernel
      rw [hs] at this
      cases this
  exact ⟨t, h.inv, ht⟩

/-- The script may offer what the block has no move for. -/
theorem witness_OnlyTheEnvironmentStopsTheBlock :
    Inv (State.reset.offer .recv) ∧ enabled .recv (State.reset.offer .recv) = false :=
  ⟨offer_inv reset_inv _, rfl⟩

theorem witness_ResponsesNeverOverrunTx :
    ∃ t, Inv (due (.rdCoils (.short 1) 0 1) .reset) ∧
      step (due (.rdCoils (.short 1) 0 1) .reset) = .next t := witness_StepKeepsInv

/-- While two bytes are left to send, a byte is received. -/
theorem witness_OneResponseAtATime :
    ∃ t, Inv ((sending 2 .reset).offer (.rxByte 7)) ∧
      ((sending 2 .reset).offer (.rxByte 7)).txInProgress = true ∧
      step ((sending 2 .reset).offer (.rxByte 7)) = .next t :=
  let ⟨t, h, _⟩ := step_rxByte
  ⟨t, offer_inv (sending_inv reset_inv (by decide)) _, rfl, h⟩

theorem witness_QueueIsFifo :
    ∃ t, Inv (due (.rdCoils (.short 1) 0 1) .reset) ∧
      step (due (.rdCoils (.short 1) 0 1) .reset) = .next t := witness_StepKeepsInv

/-- The host clears the persistence request. -/
theorem witness_WhoMayChangeWhat :
    ∃ t, step (({ State.reset with persistReq := true } : State).offer (.hostWrite .persistReq 0)) =
      .next t ∧ t.persistReq = false :=
  ⟨_, step_offer (by decide +kernel) _, rfl⟩

/-- The outcome of a step as its next state. -/
def nextState : Host.Outcome State Fault Refusal → Option State
  | .next t => some t
  | .fault _ | .refused _ => none

theorem eq_next {o : Host.Outcome State Fault Refusal} {p : State → Bool}
    (h : (nextState o).any p = true) : ∃ t, o = .next t ∧ p t = true := by
  cases o with
  | next t => exact ⟨t, rfl, h⟩
  | fault _ | refused _ => cases h

/-- V-RX-5: a wrong CRC moves both counters; V-RX-4: an unknown function code moves one. -/
theorem witness_FaultCountersMoveOnlyInRecv :
    (∃ t, step (received [1, 3, 0, 0, 0, 2, 0xC4, 0x0C]) = .next t ∧
      (t.faultCount == 1 && t.crcFaultCount == 1) = true) ∧
    ∃ t, step (received [1, 0x2B, 0, 0, 0, 1, 0xE4, 0x0C]) = .next t ∧
      (t.faultCount == 1 && t.crcFaultCount == 0) = true :=
  ⟨eq_next (by decide +kernel), eq_next (by decide +kernel)⟩

/-- V-FA-1 changes the address, V-COIL-9 a coil. -/
theorem witness_WhoMovesAddressAndStore :
    (Inv (due (.forceAddr (.short 1) 0x12345678 5) .reset) ∧
      ∃ t, step (due (.forceAddr (.short 1) 0x12345678 5) .reset) = .next t ∧
        decide (t.slaveAddr ≠ State.reset.slaveAddr) = true) ∧
    Inv (due (.wrCoil (.short 1) 2 0) .reset) ∧
      ∃ t, step (due (.wrCoil (.short 1) 2 0) .reset) = .next t ∧
        decide (t.store ≠ State.reset.store) = true :=
  ⟨⟨(reset_due (i := .forceAddr (.short 1) 0x12345678 5) rfl).inv, eq_next (by decide +kernel)⟩,
    (reset_due (i := .wrCoil (.short 1) 2 0) (.inr rfl)).inv, eq_next (by decide +kernel)⟩

end Sys2Proof.Tests
end

section
/-! PROOF. The fault counters (10_state.md R30): no instruction, no answer and no handler but RECV
moves them, and RECV moves them only as it drops a frame before the decode. -/

namespace Sys2Proof.Machine

/-- `t` has the fault counters of `s`. -/
def CountersKept (s t : State) : Prop :=
  t.faultCount = s.faultCount ∧ t.crcFaultCount = s.crcFaultCount

/-- `t` has one fault more than `s`, which may be a CRC mismatch (R30). -/
def OneFaultMore (s t : State) : Prop :=
  t.faultCount = s.faultCount + 1 ∧
    (t.crcFaultCount = s.crcFaultCount ∨ t.crcFaultCount = s.crcFaultCount + 1)

/-- A drop for any reason but a CRC mismatch or an unknown function code counts nothing
(42_frame_receiver.md R89). -/
theorem CountersKept.dropFrame {r : DropReason} (h1 : r ≠ .crcMismatch) (h2 : r ≠ .unknownFunction)
    (s : State) (b : Bool) : CountersKept s (s.dropFrame b r) := by
  simp [CountersKept, State.dropFrame_faultCount, State.dropFrame_crcFaultCount, h1, h2]

/-- The receiver's own exception is no fault (R95). -/
theorem CountersKept.badByteCount (s : State) (len : Nat) (bcast : Bool) :
    CountersKept s (s.badByteCount len bcast) := by
  rw [State.badByteCount]
  split <;> simp [CountersKept]

/-- Every way an instruction finishes keeps the counters: its frame had a valid CRC and a known
function code. -/
theorem Finish.countersKept {s : State} {i : Instr} {k : State → State} (h : Finish s i k)
    (t : State) : CountersKept t (k t) := by
  cases h with
  | accept hv => simp [CountersKept]
  | drop hv r hr hf => rcases hr with rfl | rfl <;> exact .dropFrame (by decide) (by decide) t true
  | answer hv hf => exact .badByteCount t _ _

theorem exec_countersKept {i : Instr} {s t : State} (h : exec i s = .next t) : CountersKept s t := by
  obtain ⟨k, hk, he⟩ := exec_cases i s
  rw [he] at h
  cases hq : s.q.create s.cfg.qCap (requestOf i) with
  | none =>
    rw [hq] at h
    cases h
    exact .dropFrame (by decide) (by decide) s false
  | some q =>
    rw [hq] at h
    cases h
    exact hk.countersKept { s with q := q }

theorem BodyFrame.countersKept {d : PendingRequest} {s t : State} (h : BodyFrame d s t) :
    CountersKept s t := by
  rw [h.rest]
  exact ⟨rfl, rfl⟩

theorem answer_countersKept {d : PendingRequest} {s t : State} (h : answer d s = .next t) :
    CountersKept s t := by
  have hf := bodyOf_framed d s
  rw [answer] at h
  generalize bodyOf d s = r at h hf
  cases r with
  | neverQueued => cases h
  | exc code u =>
    cases h
    simpa [CountersKept] using BodyFrame.countersKept hf
  | ok u =>
    have hu := BodyFrame.countersKept hf
    simp only at h
    split at h <;> cases h <;> simpa [CountersKept] using hu

/-- What a drop before the decode counts: nothing, an unknown function code or a CRC mismatch. -/
theorem State.dropped_counters (s : State) {n m : U16}
    (h : n = 1 ∧ (m = 0 ∨ m = 1) ∨ n = 0 ∧ m = 0) :
    CountersKept s (s.dropped n m) ∨ OneFaultMore s (s.dropped n m) := by
  rcases h with ⟨rfl, rfl | rfl⟩ | ⟨rfl, rfl⟩
  · exact .inr ⟨rfl, .inl (BitVec.add_zero _)⟩
  · exact .inr ⟨rfl, .inr rfl⟩
  · exact .inl ⟨BitVec.add_zero _, BitVec.add_zero _⟩

theorem handleRxByte_countersKept (x : Byte) (s : State) : CountersKept s (handleRxByte x s) := by
  rw [handleRxByte]
  split <;> exact ⟨rfl, rfl⟩

theorem handleTxReady_countersKept (s : State) : CountersKept s (handleTxReady s) := by
  rw [handleTxReady]
  repeat' split
  all_goals exact ⟨rfl, rfl⟩

/-- The host cannot write the counters (60_exceptions.md R167). -/
theorem hostWrite_countersKept (s : State) (r : HostReg) (v : U16) :
    CountersKept s (s.hostWrite r v) := by
  cases r with
  | persistReq =>
    rw [State.hostWrite]
    split <;> exact ⟨rfl, rfl⟩
  | _ => exact ⟨rfl, rfl⟩

/-- A handler keeps the counters, or it is RECV's, which was posted, and counts one fault. -/
theorem Handled.counters {e : Event} {s t : State} (h : Handled s e t) :
    CountersKept s t ∨ e = .recv ∧ s.rxPosted = true ∧ OneFaultMore s t := by
  cases h with
  | drop hp n m hnm => exact (s.dropped_counters hnm).imp_right fun hc => ⟨rfl, hp, hc⟩
  | run hp i t he => exact .inl (exec_countersKept he :)
  | answer d hq hk hi t ha => exact .inl (answer_countersKept ha :)
  | rxByte x => exact .inl (handleRxByte_countersKept x s)
  | txReady => exact .inl (handleTxReady_countersKept s)
  | hostWrite r v => exact .inl (hostWrite_countersKept s r v)
  | tick | wait | wdogFire | classIdle | classBusy | hostStore => exact .inl ⟨rfl, rfl⟩

/-- Settles O59: a step handles the next event, and only RECV's handler counts a fault. -/
theorem faultCountersMoveOnlyInRecv : Obligations.FaultCountersMoveOnlyInRecv := by
  intro s t h
  rcases step_cases h with ⟨e, hn, hH⟩ | ⟨-, rfl⟩
  · rcases hH.counters with hk | ⟨rfl, hp, hc⟩
    · rw [CountersKept, State.takeEvent_faultCount, State.takeEvent_crcFaultCount] at hk
      exact .inl hk
    · rw [State.takeEvent_rxPosted] at hp
      rw [OneFaultMore, State.takeEvent_faultCount, State.takeEvent_crcFaultCount] at hc
      exact .inr ⟨hn, hp, hc⟩
  · exact .inl ⟨rfl, rfl⟩

end Sys2Proof.Machine
end

section
/-! PROOF. The operand forms (20_memory.md R38, R45): the register bands, and the byte orders, each
its own inverse. -/

namespace Sys2Proof.Machine

theorem permuteGroups_quad (o : ByteOrder) (x0 x1 x2 x3 : Byte) :
    permuteGroups o [x0, x1, x2, x3] = permute o x0 x1 x2 x3 := by
  simp [permuteGroups]

/-- Each order swaps positions in pairs. -/
theorem permuteGroups_permute (o : ByteOrder) (x0 x1 x2 x3 : Byte) :
    permuteGroups o (permute o x0 x1 x2 x3) = [x0, x1, x2, x3] := by
  cases o <;> exact permuteGroups_quad _ _ _ _ _

/-- Settles O7: a value's wire bytes are its canonical bytes in an order that undoes itself. -/
theorem byteOrdersUndoThemselves : Obligations.ByteOrdersUndoThemselves := by
  intro o u x0 x1 x2 x3
  refine ⟨by cases o <;> rfl, ?_, permuteGroups_permute o _ _ _ _⟩
  rw [permuteGroups_quad, permuteGroups_permute]

theorem classify_int {s : Nat} (h : (201 ≤ s ∧ s ≤ 300) ∨ (401 ≤ s ∧ s ≤ 500)) :
    classify s = ⟨.int, s, 0, .abcd, false, false, false⟩ := by
  rw [classify, if_pos h]

theorem classify_long {s : Nat} (h : 301 ≤ s ∧ s ≤ 400) :
    classify s = ⟨.long, s, 0, .abcd, false, false, false⟩ := by
  rw [classify, if_neg (by omega), if_pos h]

/-- Outside 201..500 the sub-offset `2000 * band` decides: six bands have a form, the others are bad
offsets. -/
theorem classify_float {band t : Nat} (ht : t < 2000)
    (hs : ¬(201 ≤ 2000 * band + t ∧ 2000 * band + t ≤ 500)) :
    classify (2000 * band + t) = ⟨.float, t, 2000 * band,
      if band = 1 then .badc else if band = 2 then .cdab else if band = 3 then .dcba else .abcd,
      band == 4, band == 30, decide (band ∉ [0, 1, 2, 3, 4, 30])⟩ := by
  have hmod : (2000 * band + t) % 2000 = t := by omega
  rw [classify, if_neg (by omega), if_neg (by omega)]
  simp only [hmod, Nat.add_sub_cancel]
  by_cases hb : band ∈ [0, 1, 2, 3, 4, 30]
  · simp only [List.mem_cons, List.not_mem_nil, or_false] at hb
    rcases hb with rfl | rfl | rfl | rfl | rfl | rfl <;> rfl
  · simp only [List.mem_cons, List.not_mem_nil, or_false, not_or] at hb
    obtain ⟨h0, h1, h2, h3, h4, h30⟩ := hb
    have hoff : 2000 * band ≠ 4000 ∧ 2000 * band ≠ 6000 ∧ 2000 * band ≠ 8000 ∧
        2000 * band ≠ 60000 := by omega
    simp [h0, h1, h2, h3, h4, h30, hoff]

/-- Settles O6, band by band. -/
theorem classifyBands : Obligations.ClassifyBands := by
  intro s _ _
  refine ⟨classify_int, classify_long, ?_⟩
  rintro hs band t ht rfl
  exact classify_float ht hs

end Sys2Proof.Machine
end

section
/-! PROOF. What only the host changes, and what never changes (20_memory.md R37, 60_exceptions.md
R162, R167, 10_state.md R20, R31, R32, 30_encoding.md R66): every handler but HOST_WRITE's keeps the
parameters, the unlock flags, a raised persistence request, set overrun bits and the outputs. -/

namespace Sys2Proof.Machine

/-- `t` has the parameters of `s`, its overrun bits once set, and its outputs at the front (R37,
R20, R66). -/
def NeverUndone (s t : State) : Prop :=
  t.cfg = s.cfg ∧ (s.rxOverrun = true → t.rxOverrun = true) ∧
    (s.txOverrun = true → t.txOverrun = true) ∧ ∃ es, t.out = s.out ++ es

/-- `t` also has what the host alone changes: the unlock flags, and a raised persistence request
(R162, R167). -/
def HostsKept (s t : State) : Prop :=
  NeverUndone s t ∧ t.unlocked = s.unlocked ∧ t.factoryUnlocked = s.factoryUnlocked ∧
    (s.persistReq = true → t.persistReq = true)

theorem NeverUndone.refl (s : State) : NeverUndone s s :=
  ⟨rfl, id, id, [], (List.append_nil _).symm⟩

/-- By computation, also of any update that leaves these fields alone. -/
theorem HostsKept.refl (s : State) : HostsKept s s := ⟨.refl s, rfl, rfl, id⟩

theorem HostsKept.trans {s u t : State} (h : HostsKept s u) (h' : HostsKept u t) :
    HostsKept s t := by
  obtain ⟨⟨hc, hr, ht, es, ho⟩, hu, hf, hp⟩ := h
  obtain ⟨⟨hc', hr', ht', es', ho'⟩, hu', hf', hp'⟩ := h'
  exact ⟨⟨hc'.trans hc, hr' ∘ hr, ht' ∘ ht, es ++ es', by rw [ho', ho, List.append_assoc]⟩,
    hu'.trans hu, hf'.trans hf, hp' ∘ hp⟩

/-- Putting bytes into TX can set `tx_overrun`, never clear it (R20, R69). -/
theorem HostsKept.emitAll (s : State) (xs : List Byte) : HostsKept s (s.emitAll xs) := by
  refine ⟨⟨by simp, by simp, fun h => State.emitAll_overrun h xs, [], by simp⟩, ?_⟩
  simp

theorem HostsKept.sendException (s : State) (fc : Byte) (code : ExcCode) :
    HostsKept s (s.sendException fc code) := by
  rw [State.sendException, State.exceptionFrame]
  split
  · exact (HostsKept.emitAll s.txClear _).trans (.emitAll _ _)
  · exact .refl s

theorem HostsKept.encException (d : PendingRequest) (s : State) (snap : Nat × Nat)
    (code : ExcCode) : HostsKept s (s.encException d snap code) := by
  rw [State.encException]
  split
  · exact .refl s
  · exact .sendException (s.txRollback snap) _ _

theorem HostsKept.dropFrame (s : State) (b : Bool) (r : DropReason) :
    HostsKept s (s.dropFrame b r) := by
  cases b <;> cases r <;> exact .refl s

theorem HostsKept.badByteCount (s : State) (len : Nat) (bcast : Bool) :
    HostsKept s (s.badByteCount len bcast) := by
  rw [State.badByteCount]
  split
  · exact .sendException (s.discardTail.rxRemove len) _ _
  · exact .refl s

theorem Finish.hostsKept {s : State} {i : Instr} {k : State → State} (h : Finish s i k)
    (t : State) : HostsKept t (k t) := by
  cases h with
  | accept hv => exact .refl t
  | drop hv r hr hf => exact .dropFrame t true r
  | answer hv hf => exact .badByteCount t _ _

theorem exec_hostsKept {i : Instr} {s t : State} (h : exec i s = .next t) : HostsKept s t := by
  obtain ⟨k, hk, he⟩ := exec_cases i s
  rw [he] at h
  cases hq : s.q.create s.cfg.qCap (requestOf i) with
  | none =>
    rw [hq] at h
    cases h
    exact .dropFrame s false _
  | some q =>
    rw [hq] at h
    cases h
    exact hk.hostsKept { s with q := q }

theorem BodyFrame.hostsKept {d : PendingRequest} {s t : State} (h : BodyFrame d s t) :
    HostsKept s t := by
  have hr := h.rest
  refine ⟨⟨?_, ?_, h.overrun, h.out⟩, ?_, ?_, h.persist⟩ <;> rw [hr]
  exact id

theorem answer_hostsKept {d : PendingRequest} {s t : State} (h : answer d s = .next t) :
    HostsKept s t := by
  have hf := bodyOf_framed d s
  rw [answer] at h
  generalize bodyOf d s = r at h hf
  cases r with
  | neverQueued => cases h
  | exc code u =>
    cases h
    exact (BodyFrame.hostsKept hf).trans (.encException d u s.tx.snapshot code)
  | ok u =>
    have hu := BodyFrame.hostsKept hf
    simp only at h
    split at h <;> cases h
    · exact hu
    · exact hu.trans (.emitAll u _)

theorem handleRxByte_hostsKept (x : Byte) (s : State) : HostsKept s (handleRxByte x s) := by
  rw [handleRxByte]
  split
  · exact .refl s
  · exact ⟨⟨rfl, fun h => by simp [h], id, [], by simp⟩, rfl, rfl, id⟩

theorem handleTxReady_hostsKept (s : State) : HostsKept s (handleTxReady s) := by
  rw [handleTxReady]
  split
  · exact .refl s
  · split
    · exact ⟨⟨rfl, id, id, _, rfl⟩, rfl, rfl, id⟩
    · exact .refl s

/-- No event but HOST_WRITE has a handler that touches what is the host's. -/
theorem Handled.hostsKept {e : Event} {s t : State} (h : Handled s e t) :
    HostsKept s t ∨ ∃ r v, e = .hostWrite r v ∧ t = s.hostWrite r v := by
  cases h with
  | hostWrite r v => exact .inr ⟨r, v, rfl, rfl⟩
  | rxByte x => exact .inl (handleRxByte_hostsKept x s)
  | txReady => exact .inl (handleTxReady_hostsKept s)
  | run hp i t he => exact .inl (exec_hostsKept he :)
  | answer d hq hk hi t ha => exact .inl (answer_hostsKept ha :)
  | tick | wait | drop | wdogFire | classIdle | classBusy | hostStore => exact .inl (.refl s)

/-- A host write changes the one register that it names, and clears the persistence request with the
value 0 only (R167). -/
theorem hostWrite_changes (s : State) (r : HostReg) (v : U16) :
    NeverUndone s (s.hostWrite r v) ∧
      ((s.hostWrite r v).unlocked ≠ s.unlocked → r = .unlocked) ∧
      ((s.hostWrite r v).factoryUnlocked ≠ s.factoryUnlocked → r = .factoryUnlocked) ∧
      (s.persistReq = true → (s.hostWrite r v).persistReq = false → r = .persistReq ∧ v = 0) := by
  cases r with
  | persistReq =>
    rw [State.hostWrite]
    split
    · exact ⟨.refl s, by simp, by simp, fun _ _ => ⟨rfl, ‹_›⟩⟩
    · exact ⟨.refl s, by simp, by simp, by simp_all⟩
  | _ => exact ⟨.refl s, by simp [State.hostWrite], by simp [State.hostWrite],
      by simp +contextual [State.hostWrite]⟩

/-- A host write comes off the script: fairness promises none (70_reset_and_hazards.md R183). -/
theorem nextEvent_hostWrite {s : State} {r : HostReg} {v : U16}
    (h : nextEvent s = some (.hostWrite r v)) : ∃ rest, s.inputs = .hostWrite r v :: rest := by
  rcases nextEvent_cases h with ⟨rest, hin, -⟩ | ⟨-, hm, -⟩
  · exact ⟨rest, hin⟩
  · simpa using (promisedEvents_mem hm).2

/-- Taking an event touches none of it. -/
theorem HostsKept.takeEvent (s : State) (e : Event) : HostsKept s (s.takeEvent e) := by
  rw [State.takeEvent_eq]
  exact .refl s

/-- A step keeps what is the host's, or it is a write that the host's script holds. -/
theorem step_hostsKept {s t : State} (h : step s = .next t) :
    HostsKept s t ∨ ∃ r v rest, s.inputs = .hostWrite r v :: rest ∧
      t = (s.takeEvent (.hostWrite r v)).hostWrite r v := by
  rcases step_cases h with ⟨e, hn, hH⟩ | ⟨-, rfl⟩
  · rcases hH.hostsKept with hk | ⟨r, v, rfl, ht⟩
    · exact .inl ((HostsKept.takeEvent s e).trans hk)
    · obtain ⟨rest, hin⟩ := nextEvent_hostWrite hn
      exact .inr ⟨r, v, rest, hin, ht⟩
  · exact .inl (.refl _)

/-- Settles O58: a step that is no host write keeps all of it, and a host write changes the register
it names. -/
theorem whoMayChangeWhat : Obligations.WhoMayChangeWhat := by
  intro s t h
  rcases step_hostsKept h with ⟨⟨hc, hr, ht, ho⟩, hu, hf, hp⟩ | ⟨r, v, rest, hin, rfl⟩
  · have hset : s.persistReq = true → t.persistReq ≠ false := by simpa using hp
    exact ⟨hc, absurd hu, absurd hf, fun h1 h0 => absurd h0 (hset h1), hr, ht, ho⟩
  · have hw := hostWrite_changes (s.takeEvent (.hostWrite r v)) r v
    simp only [NeverUndone, State.takeEvent_cfg, State.takeEvent_rxOverrun,
      State.takeEvent_txOverrun, State.takeEvent_out, State.takeEvent_unlocked,
      State.takeEvent_factoryUnlocked, State.takeEvent_persistReq] at hw
    obtain ⟨⟨hc, hr, ht, ho⟩, hu, hf, hp⟩ := hw
    refine ⟨hc, fun hne => ?_, fun hne => ?_, fun h1 h0 => ?_, hr, ht, ho⟩
    · obtain rfl := hu hne
      exact ⟨v, rest, hin⟩
    · obtain rfl := hf hne
      exact ⟨v, rest, hin⟩
    · obtain ⟨rfl, rfl⟩ := hp h1 h0
      exact ⟨rest, hin⟩

end Sys2Proof.Machine
end

section
/-! PROOF. The decoder and the encoder agree (30_encoding.md R56 to R59, R62 to R64, 41_crc16.md
R79). -/

namespace Sys2Proof.Machine

/-! ### Byte assembly undoes byte order (R13, R43) -/

theorem be16_hi8_lo8 (v : U16) : be16 (hi8 v) (lo8 v) = v :=
  (BitVec.extractLsb'_append_extractLsb'_eq_extractLsb' rfl).trans BitVec.extractLsb'_eq_self

theorem bytes16_be16 (h l : Byte) : bytes16 (be16 h l) = [h, l] := by
  have hh : hi8 (be16 h l) = h := BitVec.extractLsb'_append_eq_left
  have hl : lo8 (be16 h l) = l := BitVec.extractLsb'_append_eq_right
  rw [bytes16, hh, hl]

/-- `be32` of the four bytes that `bytes32` lists. -/
theorem be32_extract (v : U32) : be32 (v.extractLsb' 24 8) (v.extractLsb' 16 8) (v.extractLsb' 8 8)
    (v.extractLsb' 0 8) = v := by
  rw [be32]
  ext i hi
  simp only [BitVec.getElem_append, BitVec.getElem_extractLsb']
  grind

/-- A byte above the last of an appended pair is a byte of the first part. -/
theorem extract_append_byte {n : Nat} (x : BitVec n) (y : Byte) (k : Nat) :
    (x ++ y).extractLsb' (k + 8) 8 = x.extractLsb' k 8 :=
  BitVec.extractLsb'_append_eq_of_le (by omega)

theorem bytes32_be32 (a b c d : Byte) : bytes32 (be32 a b c d) = [a, b, c, d] := by
  have last {n : Nat} (x : BitVec n) (y : Byte) : (x ++ y).extractLsb' 0 8 = y :=
    BitVec.extractLsb'_append_eq_right
  have ha : (be32 a b c d).extractLsb' 24 8 = a := by
    rw [be32, extract_append_byte _ d 16, extract_append_byte _ c 8, extract_append_byte _ b 0,
      BitVec.extractLsb'_eq_self]
  have hb : (be32 a b c d).extractLsb' 16 8 = b := by
    rw [be32, extract_append_byte _ d 8, extract_append_byte _ c 0, last]
  have hc : (be32 a b c d).extractLsb' 8 8 = c := by
    rw [be32, extract_append_byte _ d 0, last]
  rw [bytes32, ha, hb, hc, be32, last]

/-! ### Function codes (R62, R63) -/

theorem fnOfCode_eq_some_iff {c : Byte} {f : Fn} : fnOfCode c = some f ↔ c = fnCode f := by
  constructor
  · intro h
    rw [fnOfCode] at h
    repeat' split at h
    all_goals cases h <;> assumption
  · rintro rfl
    cases f <;> rfl

theorem fnOfCode_fnCode (f : Fn) : fnOfCode (fnCode f) = some f := fnOfCode_eq_some_iff.2 rfl

theorem fnOfCode_eq_none_iff {c : Byte} : fnOfCode c = none ↔
    c ∉ ([0x01, 0x02, 0x03, 0x04, 0x05, 0x06, 0x10, 0x42, 0x44] : List Byte) := by
  simp [fnOfCode, ite_eq_iff]

/-! ### What the decoder answers -/

/-- A frame is valid when it is its body with the body's CRC (R57, R79). -/
theorem crcValid_iff {frame : List Byte} :
    crcValid frame = true ↔ withCrc (frame.take (frame.length - 2)) = frame := by
  rw [crcValid, withCrc, beq_iff_eq, ← List.append_right_inj (frame.take (frame.length - 2)),
    List.take_append_drop]

theorem crcValid_withCrc (body : List Byte) : crcValid (withCrc body) = true := by
  simp [crcValid_iff, withCrc, crcBytes]

/-- The decoder reads an instruction when the code is one of the nine, all bytes are there and the CRC
is right (R64, R57). -/
theorem decode_eq_instr_iff {bs : List Byte} {i : Instr} {len : Nat} : decode bs = .instr i len ↔
    8 + addressOffset bs ≤ bs.length ∧ ∃ f, fnOfCode (bs.getD (addressOffset bs + 1) 0) = some f ∧
      len = frameLengthOf f (addressOffset bs) (bs.getD (addressOffset bs + 6) 0) ∧
      len ≤ bs.length ∧ crcValid (bs.take len) = true ∧ i = decodeFields f bs := by
  rw [decode]
  by_cases h8 : bs.length < 8 + addressOffset bs
  · simp [h8]
  cases hf : fnOfCode (bs.getD (addressOffset bs + 1) 0) with
  | none => simp [h8]
  | some f =>
    simp only [h8, if_false]
    split_ifs <;> grind

theorem decode_unknownFunction {bs : List Byte} (h8 : 8 + addressOffset bs ≤ bs.length)
    (hf : fnOfCode (bs.getD (addressOffset bs + 1) 0) = none) :
    decode bs = .reject (.unknownFunction (bs.getD (addressOffset bs + 1) 0)) := by
  simp only [decode, hf, if_neg (Nat.not_lt.2 h8)]

/-! ### A frame behind its address (R56) -/

section Addressed

variable {p : Address} (hp : p.wellFormed = true) (xs : List Byte)

@[simp] theorem addressBytes_length (p : Address) : (addressBytes p).length = prefixOffset p + 1 := by
  cases p <;> rfl

include hp in
theorem addressOffset_prefix : addressOffset (addressBytes p ++ xs) = prefixOffset p := by
  cases p with
  | short a => simpa [addressOffset, addressBytes, prefixOffset, Address.wellFormed] using hp
  | long serial => rfl

include hp in
theorem decodeAddress_prefix : decodeAddress (addressBytes p ++ xs) = p := by
  cases p with
  | short a => simpa [decodeAddress, addressBytes, Address.wellFormed] using hp
  | long serial => exact congrArg Address.long (be32_extract serial)

theorem getD_prefix (p : Address) (k : Nat) :
    (addressBytes p ++ xs).getD (prefixOffset p + (k + 1)) 0 = xs.getD k 0 := by
  rw [List.getD_append_right _ _ _ _ (by simp), addressBytes_length]
  congr 1
  omega

theorem drop_prefix (p : Address) (k : Nat) :
    (addressBytes p ++ xs).drop (prefixOffset p + (k + 1)) = xs.drop k := by
  rw [show prefixOffset p + (k + 1) = (addressBytes p).length + k by simp; omega,
    List.drop_length_add_append]

/-- Every buffer that may hold a frame begins with an address and six bytes. -/
theorem exists_prefix {bs : List Byte} (h : 8 + addressOffset bs ≤ bs.length) :
    ∃ p : Address, p.wellFormed = true ∧ ∃ c b2 b3 b4 b5 b6 tail,
      bs = addressBytes p ++ c :: b2 :: b3 :: b4 :: b5 :: b6 :: tail := by
  rw [addressOffset] at h
  split at h
  · match bs, h with
    | b0 :: s0 :: s1 :: s2 :: s3 :: c :: b2 :: b3 :: b4 :: b5 :: b6 :: tail, _ =>
      refine ⟨.long (be32 s0 s1 s2 s3), rfl, c, b2, b3, b4, b5, b6, tail, ?_⟩
      simp_all [addressBytes, bytes32_be32]
  · match bs, h with
    | b0 :: c :: b2 :: b3 :: b4 :: b5 :: b6 :: tail, _ =>
      exact ⟨.short b0, by simp_all [Address.wellFormed], c, b2, b3, b4, b5, b6, tail, rfl⟩

end Addressed

/-! ### Round trips -/

theorem instrAddress_wellFormed {i : Instr} (h : i.wellFormed = true) :
    (instrAddress i).wellFormed = true := by
  cases i with
  | wrMulti => exact (Bool.and_eq_true_iff.1 h).1
  | _ => exact h

/-- A frame is its address, the function code, the operands and the CRC (R58). -/
theorem encode_eq (i : Instr) : ∃ crc,
    encode i = addressBytes (instrAddress i) ++ fnCode (instrFn i) :: (operandBytes i ++ crc) :=
  ⟨crcBytes (crc16 _), by rw [encode, withCrc, List.append_assoc, List.cons_append]⟩

theorem decodeFields_encode {i : Instr} (hi : i.wellFormed = true) (rest : List Byte) :
    decodeFields (instrFn i) (encode i ++ rest) = i := by
  have hp := instrAddress_wellFormed hi
  obtain ⟨crc, he⟩ := encode_eq i
  rw [he, List.append_assoc]
  have haddr := decodeAddress_prefix hp
  have hoff := addressOffset_prefix hp
  rw [decodeFields.eq_def, haddr, hoff]
  simp only [getD_prefix, drop_prefix]
  cases i with
  | wrMulti p start count data =>
    have hle : data.length ≤ 255 := of_decide_eq_true (Bool.and_eq_true_iff.1 hi).2
    have hlen : data.length % 256 = data.length := Nat.mod_eq_of_lt (Nat.lt_succ_of_le hle)
    simp [instrFn, instrAddress, operandBytes, bytes16, be16_hi8_lo8, hlen]
  | forceAddr => simp [instrFn, instrAddress, operandBytes, bytes32, be32_extract]
  | _ => simp [instrFn, instrAddress, operandBytes, bytes16, be16_hi8_lo8]

/-- FrameLength of a frame's own bytes is its length (R58). -/
theorem frameLength_of_encode (i : Instr) : Laws.FrameLength.Statement i := by
  cases i with
  | rdCoils => exact Laws.FrameLength.rdCoils _ _ _
  | rdDiscretes => exact Laws.FrameLength.rdDiscretes _ _ _
  | rdHolding => exact Laws.FrameLength.rdHolding _ _ _
  | rdInput => exact Laws.FrameLength.rdInput _ _ _
  | wrCoil => exact Laws.FrameLength.wrCoil _ _ _
  | wrReg => exact Laws.FrameLength.wrReg _ _ _
  | wrMulti => exact Laws.FrameLength.wrMulti _ _ _ _
  | diagSample => exact Laws.FrameLength.diagSample _ _ _
  | forceAddr => exact Laws.FrameLength.forceAddr _ _ _

/-- Settles O1: mode, code, length and CRC of a frame are what the decoder looks for, and its fields
are the instruction's. -/
theorem decodeOfEncode : Obligations.DecodeOfEncode := by
  intro i rest hi
  have hp := instrAddress_wellFormed hi
  obtain ⟨crc, he⟩ := encode_eq i
  obtain ⟨hL, h8, -⟩ := frameLength_of_encode i hi
  have hoff : addressOffset (encode i ++ rest) = prefixOffset (instrAddress i) := by
    rw [he, List.append_assoc, addressOffset_prefix hp]
  have hoff' : addressOffset (encode i) = prefixOffset (instrAddress i) := by
    rw [he, addressOffset_prefix hp]
  rw [hoff'] at hL h8
  have hlen : (encode i ++ rest).length = frameLength i + rest.length := List.length_append
  refine decode_eq_instr_iff.2 ⟨by omega, instrFn i, ?_, ?_, by omega, ?_,
    (decodeFields_encode hi rest).symm⟩
  · rw [hoff, he, List.append_assoc, getD_prefix, List.cons_append, List.getD_cons_zero,
      fnOfCode_fnCode]
  · rw [hoff, List.getD_append _ _ _ _ (show _ < frameLength i by omega), hL]
  · rw [frameLength, List.take_left, encode, crcValid_withCrc]

/-- No address reads as a SHORT one with the byte 0xFA (R56). -/
theorem decodeAddress_wellFormed (bs : List Byte) : (decodeAddress bs).wellFormed = true := by
  rw [decodeAddress]
  split
  · rfl
  · simpa [Address.wellFormed] using ‹_›

/-- A decoded WR_MULTI has as many data bytes as its byte count says, or fewer (R59). -/
theorem decodeFields_wellFormed (f : Fn) (bs : List Byte) : (decodeFields f bs).wellFormed = true := by
  have hp := decodeAddress_wellFormed bs
  cases f with
  | wrMulti =>
    refine Bool.and_eq_true_iff.2 ⟨hp, decide_eq_true ?_⟩
    exact (List.length_take_le _ _).trans (Nat.le_of_lt_succ (BitVec.isLt _))
  | _ => exact hp

/-- The fields of a frame, encoded, are its bytes before the CRC (R58, R59). -/
theorem body_of_decodeFields {p : Address} (hp : p.wellFormed = true) (f : Fn)
    {b2 b3 b4 b5 b6 : Byte} {tail bs : List Byte}
    (hbs : bs = addressBytes p ++ fnCode f :: b2 :: b3 :: b4 :: b5 :: b6 :: tail)
    (hlen : frameLengthOf f (prefixOffset p) b6 ≤ bs.length) :
    addressBytes (instrAddress (decodeFields f bs)) ++
        fnCode (instrFn (decodeFields f bs)) :: operandBytes (decodeFields f bs) =
      bs.take (frameLengthOf f (prefixOffset p) b6 - 2) := by
  subst hbs
  have hbody : frameLengthOf f (prefixOffset p) b6 - 2 =
      (addressBytes p).length + (frameLengthOf f 0 b6 - 3) := by
    rw [addressBytes_length]
    cases f <;> simp only [frameLengthOf] <;> omega
  have haddr := decodeAddress_prefix hp
  have hoff := addressOffset_prefix hp
  rw [decodeFields.eq_def, haddr, hoff, hbody, List.take_length_add_append]
  simp only [getD_prefix, drop_prefix]
  cases f with
  | wrMulti =>
    have htail : b6.toNat ≤ tail.length := by
      simp only [frameLengthOf, List.length_append, addressBytes_length, List.length_cons] at hlen
      omega
    have hcount : 9 + b6.toNat - 3 = b6.toNat + 6 := by omega
    simp [instrFn, instrAddress, operandBytes, bytes16_be16, frameLengthOf, htail, hcount]
  | forceAddr => simp [instrFn, instrAddress, operandBytes, bytes32_be32, frameLengthOf]
  | _ => simp [instrFn, instrAddress, operandBytes, bytes16_be16, frameLengthOf]

/-- Settles O2: the decoder has checked the code, the length and the CRC, so its fields and their
encoding are the frame's bytes. -/
theorem encodeOfDecode : Obligations.EncodeOfDecode := by
  intro bs i len h
  obtain ⟨h8, f, hf, rfl, hlen, hcrc, rfl⟩ := decode_eq_instr_iff.1 h
  obtain ⟨p, hp, c, b2, b3, b4, b5, b6, tail, hbs⟩ := exists_prefix h8
  have hoff : addressOffset bs = prefixOffset p := by rw [hbs, addressOffset_prefix hp]
  have hc : c = fnCode f := by
    rwa [hoff, hbs, getD_prefix, List.getD_cons_zero, fnOfCode_eq_some_iff] at hf
  have hb6 : bs.getD (prefixOffset p + 6) 0 = b6 := by
    rw [hbs, getD_prefix]
    rfl
  rw [hoff, hb6] at hlen hcrc ⊢
  rw [hc] at hbs
  refine ⟨decodeFields_wellFormed f bs, hlen, ?_⟩
  rw [encode, body_of_decodeFields hp f hbs hlen, ← crcValid_iff.1 hcrc, List.length_take,
    List.take_take]
  congr 2
  omega

/-- Settles O3, by running the decoder on each frame. -/
theorem specFramesDecode : Obligations.SpecFramesDecode := by
  refine ⟨?_, ?_, ?_, ?_, ?_⟩ <;> decide +kernel

/-- Settles O4: the function code is looked at once all bytes of the shortest frame are there. -/
theorem otherFunctionCodesRejected : Obligations.OtherFunctionCodesRejected :=
  ⟨fun _ => fnOfCode_eq_none_iff, fun _ => decode_unknownFunction⟩

end Sys2Proof.Machine
end

section
/-! PROOF. One step is the next event and its whole handler, and every promised event comes
(30_encoding.md R65, 70_reset_and_hazards.md R183, R184). -/

namespace Sys2Proof.Machine

/-! ### What is promised -/

theorem timerRunning_iff {t : Timer} : timerRunning t = true ↔ ∃ n, t = .running n := by
  cases t <;> simp [timerRunning]

theorem mem_allClasses (k : RegClass) : k ∈ allClasses := by
  cases k <;> decide

theorem recv_mem_promisedEvents {s : State} : .recv ∈ promisedEvents s ↔ s.rxPosted = true := by
  simp [promisedEvents]

theorem wdogFire_mem_promisedEvents {s : State} :
    .wdogFire ∈ promisedEvents s ↔ s.wdog = .expired := by
  simp [promisedEvents]

theorem classFire_mem_promisedEvents {s : State} {k : RegClass} :
    .classFire k ∈ promisedEvents s ↔ perClassGet s.ctimer k = .expired := by
  simp [promisedEvents, mem_allClasses]

theorem txReady_mem_promisedEvents {s : State} : .txReady ∈ promisedEvents s ↔ s.txie = true := by
  simp [promisedEvents]

theorem tick_mem_promisedEvents {s : State} : .tick ∈ promisedEvents s ↔
    ∃ n, s.wdog = .running n ∨ ∃ k, perClassGet s.ctimer k = .running n := by
  simp [promisedEvents, mem_allClasses, timerRunning_iff, exists_or, @exists_comm Nat RegClass]

/-! ### The next step -/

theorem enabled_inputs (e : Event) (s : State) (rest : List Event) :
    enabled e { s with inputs := rest } = enabled e s := by
  cases e <;> rfl

theorem handle_of_not_enabled {e : Event} {s : State} (h : enabled e s = false) :
    handle e s = .fault .eventNotEnabled := by
  rw [handle.eq_def, h]
  rfl

theorem step_of_nextEvent {s : State} {e : Event} (hc : configOk s.cfg = true)
    (h : nextEvent s = some e) : step s = handle e (s.takeEvent e) := by
  rw [step, if_pos hc, h]

theorem nextEvent_script {s : State} {e : Event} {rest : List Event} (h : s.inputs = e :: rest) :
    nextEvent s = some e ∧ s.takeEvent e = { s with inputs := rest } := by
  simp [nextEvent, State.takeEvent, h]

theorem nextEvent_eq_none_iff {s : State} (hin : s.inputs = []) :
    nextEvent s = none ↔ promisedEvents s = [] := by
  rw [nextEvent, hin, Option.map_eq_none_iff]
  constructor
  · intro h
    have hm := @State.mem_promises s
    rw [firstDue_eq_none h] at hm
    exact List.eq_nil_iff_forall_not_mem.2 fun e he => by simpa using hm.2 he
  · intro h
    have hm : s.promises.map Prod.fst = [] :=
      List.eq_nil_iff_forall_not_mem.2 fun e he => by simpa [h] using State.mem_promises.1 he
    rw [List.map_eq_nil_iff.1 hm, firstDue]

theorem step_script {s : State} {e : Event} {rest : List Event} (hc : configOk s.cfg = true)
    (hin : s.inputs = e :: rest) : step s = handle e { s with inputs := rest } := by
  obtain ⟨hn, ht⟩ := nextEvent_script hin
  rw [step_of_nextEvent hc hn, ht]

theorem step_waits {s : State} (hc : configOk s.cfg = true) (hin : s.inputs = [])
    (hp : promisedEvents s = []) : step s = .next s := by
  rw [step, if_pos hc, (nextEvent_eq_none_iff hin).2 hp]

theorem step_promised {s : State} (hc : configOk s.cfg = true) (hin : s.inputs = [])
    (hp : promisedEvents s ≠ []) : ∃ e ∈ promisedEvents s, ∃ waiting n,
      step s = handle e { s with waiting := waiting, freeCount := n } := by
  obtain ⟨e, hn⟩ := Option.ne_none_iff_exists'.1 (mt (nextEvent_eq_none_iff hin).1 hp)
  rcases nextEvent_cases hn with ⟨rest, h, -⟩ | ⟨-, he, w, n, ht⟩
  · rw [hin] at h
    cases h
  · exact ⟨e, he, w, n, by rw [step_of_nextEvent hc hn, ht]⟩

/-! ### Every promised event comes (R183) -/

theorem State.takeEvent_inputs (s : State) (e : Event) :
    (s.takeEvent e).inputs = s.inputs.tail := by
  cases h : s.inputs with
  | nil => simp [State.takeEvent, h]
  | cons e rest => simp [State.takeEvent, h]

/-- A step takes the first event off the script; without one the script was empty. -/
theorem step_inputs {s t : State} (h : step s = .next t) : t.inputs = s.inputs.tail := by
  rcases step_cases h with ⟨e, -, hH⟩ | ⟨hn, rfl⟩
  · rw [hH.script.1, State.takeEvent_inputs]
  · cases hin : t.inputs with
    | nil => rfl
    | cons e rest => cases hn.symm.trans (nextEvent_script hin).1

/-- How far off `e` is: an entry of it has patience and older entries before it, `m` together at
most. -/
def State.DueWithin (s : State) (e : Event) (m : Nat) : Prop :=
  ∃ before p after, s.promises = before ++ (e, p) :: after ∧ before.length + p ≤ m

theorem State.exists_dueWithin {s : State} {e : Event} (h : e ∈ promisedEvents s) :
    ∃ m, s.DueWithin e m := by
  obtain ⟨⟨_, p⟩, hw, rfl⟩ := List.mem_map.1 (State.mem_promises.2 h)
  obtain ⟨before, after, hs⟩ := List.append_of_mem hw
  exact ⟨_, before, p, after, hs, Nat.le_refl _⟩

/-- What is due in place of an entry is older than it or has less patience. -/
theorem firstDue_before {before after : List (Event × Nat)} {w v : Event × Nat}
    (h : firstDue (before ++ w :: after) = some v) : v = w ∨ v ∈ before ∨ v.2 < w.2 := by
  obtain ⟨b, a, hws, hlt, -⟩ := firstDue_eq_some h
  rcases List.append_eq_append_iff.1 hws with ⟨mid, rfl, hmid⟩ | ⟨mid, rfl, hmid⟩
  · cases mid with
    | nil => exact .inl (List.cons.inj hmid).1.symm
    | cons x mid =>
      obtain ⟨rfl, -⟩ := List.cons.inj hmid
      exact .inr (.inr (hlt _ (by simp)))
  · cases mid with
    | nil => exact .inl (List.cons.inj hmid).1
    | cons x mid =>
      obtain ⟨rfl, -⟩ := List.cons.inj hmid
      exact .inr (.inl (by simp))

/-- The entries still waiting after a step that took `e`, one step less patient. -/
def stillWaiting (e : Event) (t : State) (ws : List (Event × Nat)) : List (Event × Nat) :=
  ((ws.filter fun w => decide (w.1 ≠ e)).map fun w => (w.1, w.2 - 1)).filter
    fun w => decide (w.1 ∈ promisedEvents t)

theorem stillWaiting_length_le_filter (e : Event) (t : State) (ws : List (Event × Nat)) :
    (stillWaiting e t ws).length ≤ (ws.filter fun w => decide (w.1 ≠ e)).length :=
  (List.length_filter_le _ _).trans_eq (List.length_map _)

theorem stillWaiting_length_le (e : Event) (t : State) (ws : List (Event × Nat)) :
    (stillWaiting e t ws).length ≤ ws.length :=
  (stillWaiting_length_le_filter e t ws).trans (List.length_filter_le _ _)

theorem stillWaiting_length_lt {t : State} {ws : List (Event × Nat)} {v : Event × Nat}
    (h : v ∈ ws) : (stillWaiting v.1 t ws).length < ws.length :=
  (stillWaiting_length_le_filter v.1 t ws).trans_lt
    (List.length_filter_lt_length_iff_exists.2 ⟨v, h, by simp⟩)

/-- An entry of another event that stays promised keeps its place. -/
theorem stillWaiting_split {e e' : Event} {t : State} (hne : e ≠ e') (he : e ∈ promisedEvents t)
    (before after : List (Event × Nat)) (p : Nat) :
    stillWaiting e' t (before ++ (e, p) :: after) =
      stillWaiting e' t before ++ (e, p - 1) :: stillWaiting e' t after := by
  simp [stillWaiting, hne, he]

/-- After a step the older events wait first. -/
theorem step_promises {s t : State} (h : step s = .next t) (hin : s.inputs = [])
    {e : Event} (hn : nextEvent s = some e) :
    ∃ new, t.promises = stillWaiting e t s.promises ++ new := by
  rcases step_cases h with ⟨e', hn', hH⟩ | ⟨hn', -⟩
  · obtain rfl : e' = e := Option.some.inj (hn'.symm.trans hn)
    have hw := hH.script.2
    rw [State.takeEvent, hin] at hw
    exact ⟨_, by rw [State.promises, hw, stillWaiting]⟩
  · rw [hn'] at hn
    cases hn

/-- An event that is put off and stays promised is nearer after the step: its patience has gone down,
or it had none left and an older entry was taken. -/
theorem State.DueWithin.after_step {s t : State} {e : Event} {m : Nat} (hm : s.DueWithin e m)
    (h : step s = .next t) (hin : s.inputs = []) (hn : nextEvent s ≠ some e)
    (he : e ∈ promisedEvents t) : ∃ k < m, t.DueWithin e k := by
  obtain ⟨before, p, after, hs, hle⟩ := hm
  obtain ⟨v, hv⟩ : ∃ v, firstDue s.promises = some v :=
    Option.ne_none_iff_exists'.1 fun h0 => by simp [firstDue_eq_none h0] at hs
  have hnv : nextEvent s = some v.1 := by
    rw [nextEvent, hin, hv]
    rfl
  have hne : e ≠ v.1 := fun h => hn (h ▸ hnv)
  obtain ⟨new, ht⟩ := step_promises h hin hnv
  rw [hs, stillWaiting_split hne he, List.append_assoc, List.cons_append] at ht
  refine ⟨_, ?_, _, _, _, ht, Nat.le_refl _⟩
  have hlen := stillWaiting_length_le v.1 t before
  rw [hs] at hv
  rcases firstDue_before hv with rfl | hb | hlt
  · exact absurd rfl hne
  · have hshort := stillWaiting_length_lt (t := t) hb
    omega
  · have hp : 0 < p := Nat.zero_lt_of_lt hlt
    omega

/-- By induction on how far off the event is. -/
theorem promised_comes {run : Nat → State} (hrun : ∀ n, step (run n) = .next (run (n + 1)))
    {e : Event} : ∀ (m i : Nat), (run i).inputs = [] → (run i).DueWithin e m →
      ∃ n, i ≤ n ∧ (e ∉ promisedEvents (run n) ∨ nextEvent (run n) = some e) := by
  intro m
  induction m using Nat.strong_induction_on with
  | _ m ih =>
    intro i hin hm
    by_cases hn : nextEvent (run i) = some e
    · exact ⟨i, Nat.le_refl i, .inr hn⟩
    by_cases he : e ∈ promisedEvents (run (i + 1))
    · obtain ⟨k, hk, hdue⟩ := hm.after_step (hrun i) hin hn he
      obtain ⟨n, hle, h⟩ := ih k hk (i + 1) (by rw [step_inputs (hrun i), hin]; rfl) hdue
      exact ⟨n, Nat.le_of_succ_le hle, h⟩
    · exact ⟨i + 1, Nat.le_succ i, .inl he⟩

/-- A run uses up its script. -/
theorem run_inputs {run : Nat → State} (hrun : ∀ n, step (run n) = .next (run (n + 1)))
    (i k : Nat) : (run (i + k)).inputs = (run i).inputs.drop k := by
  induction k with
  | zero => rfl
  | succ k ih => rw [← Nat.add_assoc, step_inputs (hrun (i + k)), ih, List.tail_drop]

/-- Settles O13: the script's events come first; once it is used up each step brings a promised event
nearer, unless it is the event handled or is no longer promised. -/
theorem stepHandlesTheNextEvent : Obligations.StepHandlesTheNextEvent := by
  refine ⟨fun s e rest hc hin => ⟨step_script hc hin, fun he => ?_⟩,
    fun s hc hin => ⟨step_waits hc hin, step_promised hc hin⟩,
    fun s => ⟨recv_mem_promisedEvents, wdogFire_mem_promisedEvents,
      fun k => classFire_mem_promisedEvents, txReady_mem_promisedEvents, tick_mem_promisedEvents⟩,
    fun run hrun i e _ => ?_⟩
  · rw [step_script hc hin, handle_of_not_enabled ((enabled_inputs e s rest).trans he)]
  · let j := i + (run i).inputs.length
    have hj : (run j).inputs = [] := by rw [run_inputs hrun, List.drop_length]
    by_cases he : e ∈ promisedEvents (run j)
    · obtain ⟨m, hm⟩ := State.exists_dueWithin he
      obtain ⟨n, hle, h⟩ := promised_comes hrun m j hj hm
      exact ⟨n, (Nat.le_add_right i _).trans hle, h⟩
    · exact ⟨j, Nat.le_add_right i _, .inl he⟩

end Sys2Proof.Machine
end

section
/-! PROOF. The handler of RX_BYTE (40_bytering.md R69, R75): the received byte goes behind the buffered
bytes, or over one of a full ring. -/

namespace Sys2Proof.Machine

theorem step_offer_rxByte {s : State} (hc : configOk s.cfg = true) (x : Byte) :
    step (s.offer (.rxByte x)) = .next (handleRxByte x s) :=
  step_offer hc _

/-- R69 and R20, with room: the byte is put, and the overrun bit stays as it was. -/
theorem State.rxPut_of_lt {s : State} (x : Byte) (h : s.rx.count < s.cfg.rxCap) :
    s.rxPut x = { s with
      rx := ⟨cellWrite s.rx.buf s.rx.tail x, s.rx.head, (s.rx.tail + 1) % s.cfg.rxCap,
        s.rx.count + 1⟩ } := by
  rw [State.rxPut, Ring.put_of_lt _ x h, State.noteRxOverrun, Bool.or_false]

/-- R69 and R20, in a full ring: the byte overwrites one, and the overrun bit is set. -/
theorem State.rxPut_of_full {s : State} (x : Byte) (h : ¬ s.rx.count < s.cfg.rxCap) :
    s.rxPut x = { s with
      rx := ⟨cellWrite s.rx.buf s.rx.tail x, s.rx.head,
        if s.cfg.overwriteAdvancesTail then (s.rx.tail + 1) % s.cfg.rxCap else s.rx.tail,
        s.rx.count⟩
      rxOverrun := true } := by
  rw [State.rxPut, Ring.put_of_full _ x h, State.noteRxOverrun, Bool.or_true]

/-- With room, and the tail where R19 claims it, the byte stands behind the buffered ones. -/
theorem State.rxBytes_rxPut {s : State} (h : Inv s) (ha : s.cfg.overwriteAdvancesTail = false)
    (hlt : s.rx.count < s.cfg.rxCap) (x : Byte) : (s.rxPut x).rxBytes = s.rxBytes ++ [x] :=
  Ring.bytes_put h.rx.cells (h.rx.tail_eq ha) hlt _ x

/-- A put writes the tail's slot and no other. -/
theorem State.cellRead_rxPut {s : State} (h : Inv s) (x : Byte) (j : Nat) :
    cellRead (s.rxPut x).rx.buf j = if j = s.rx.tail then x else cellRead s.rx.buf j := by
  rw [State.rxPut_rx, Ring.put_buf, cellRead_write h.rx.cells]

/-- Settles O45: the byte is ignored, or put into RX with room, or into a full RX. -/
theorem receivedByteIsBuffered : Obligations.ReceivedByteIsBuffered := by
  intro s x h
  refine ⟨_, step_offer_rxByte h.config x, ?_⟩
  rw [handleRxByte]
  by_cases hdrop : s.cfg.rxDuringTx = .drop ∧ s.lineMode = .transmit
  · rw [if_pos hdrop, if_pos hdrop]
  rw [if_neg hdrop, if_neg hdrop]
  refine ⟨State.cellRead_rxPut h x, ?_⟩
  by_cases hroom : s.rx.count < s.cfg.rxCap
  · rw [if_pos hroom]
    refine ⟨?_, fun ha => State.rxBytes_rxPut h ha hroom x⟩
    rw [State.rxPut_of_lt x hroom, State.setPosted]
  · rw [if_neg hroom, State.rxPut_of_full x hroom, State.setPosted]

end Sys2Proof.Machine
end

section
/-! PROOF. The CRC of a frame that carries its own CRC (41_crc16.md R76, R78, R79): one iteration of
the engine can be undone, so no two bytes but those of the CRC, least significant first, take the
register to zero. -/

namespace Sys2Proof.Machine

/-! ### The engine can be undone (R76) -/

@[simp] theorem crcBit_zero : crcBit 0 = 0 := rfl

/-- The bit shifted out decides the XOR with 0xA001, and is the top bit after it. -/
theorem crcBit_getLsbD_top (c : U16) : (crcBit c).getLsbD 15 = c.getLsbD 0 := by
  have htop : (c >>> 1).getLsbD 15 = false := by simp
  rw [crcBit]
  split
  next h => rw [BitVec.getLsbD_xor, htop, h]; rfl
  next h => rw [htop, Bool.eq_false_of_not_eq_true h]

/-- The top bit after an iteration tells the bit shifted out, hence the branch; the rest is a shift. -/
theorem crcBit_injective : Function.Injective crcBit := by
  intro c d h
  have hlow : c.getLsbD 0 = d.getLsbD 0 := by rw [← crcBit_getLsbD_top, h, crcBit_getLsbD_top]
  have hshift : c >>> 1 = d >>> 1 := by
    rw [crcBit, crcBit, hlow] at h
    split at h
    · exact (BitVec.xor_left_inj _).1 h
    · exact h
  refine BitVec.eq_of_getLsbD_eq fun i _ => ?_
  cases i with
  | zero => exact hlow
  | succ i =>
    have hi := congrArg (BitVec.getLsbD · i) hshift
    simpa [BitVec.getLsbD_ushiftRight, Nat.add_comm] using hi

theorem crcByte_eq_iterate (c : U16) (x : Byte) :
    crcByte c x = crcBit^[8] (c ^^^ x.setWidth 16) := rfl

theorem crcByte_left_inj {c d : U16} {x : Byte} : crcByte c x = crcByte d x ↔ c = d := by
  rw [crcByte_eq_iterate, crcByte_eq_iterate, (crcBit_injective.iterate 8).eq_iff]
  exact BitVec.xor_left_inj _

theorem crcByte_setWidth_self (x : Byte) : crcByte (x.setWidth 16) x = 0 := by
  rw [crcByte_eq_iterate, BitVec.xor_self]
  exact Function.iterate_fixed crcBit_zero 8

/-! ### The high byte of the register comes down unchanged over a zero low byte -/

theorem crcBit_shiftLeft_succ (x : Byte) {k : Nat} (hk : k < 8) :
    crcBit (x.setWidth 16 <<< (k + 1)) = x.setWidth 16 <<< k := by
  have hlow : (x.setWidth 16 <<< (k + 1)).getLsbD 0 = false := by simp
  rw [crcBit, hlow, if_neg Bool.false_ne_true]
  refine BitVec.eq_of_getLsbD_eq fun i hi => ?_
  simp only [BitVec.getLsbD_ushiftRight, BitVec.getLsbD_shiftLeft, BitVec.getLsbD_setWidth]
  grind

theorem iterate_crcBit_shiftLeft (x : Byte) {k : Nat} (hk : k ≤ 8) :
    crcBit^[k] (x.setWidth 16 <<< k) = x.setWidth 16 := by
  induction k with
  | zero => exact BitVec.shiftLeft_zero _
  | succ k ih =>
    rw [Function.iterate_succ_apply, crcBit_shiftLeft_succ x hk, ih (Nat.le_of_succ_le hk)]

theorem be16_xor_low (h l : Byte) : be16 h l ^^^ l.setWidth 16 = h.setWidth 16 <<< 8 := by
  rw [be16]
  refine BitVec.eq_of_getLsbD_eq fun i hi => ?_
  simp only [BitVec.getLsbD_xor, BitVec.getLsbD_append, BitVec.getLsbD_shiftLeft,
    BitVec.getLsbD_setWidth]
  grind

/-- The low byte of the register cancels with itself, and the high byte is what is left. -/
theorem crcByte_be16 (h l : Byte) : crcByte (be16 h l) l = h.setWidth 16 := by
  rw [crcByte_eq_iterate, be16_xor_low, iterate_crcBit_shiftLeft h (Nat.le_refl 8)]

/-! ### A frame with its own CRC -/

theorem crcBytes_eq_iff {c : U16} {x y : Byte} : crcBytes c = [x, y] ↔ c = be16 y x := by
  constructor
  · intro h
    obtain ⟨rfl, rfl⟩ : lo8 c = x ∧ hi8 c = y := by simpa [crcBytes] using h
    exact (be16_hi8_lo8 c).symm
  · rintro rfl
    simpa [crcBytes, bytes16, and_comm] using bytes16_be16 y x

/-- Two more bytes take the register to zero exactly when they are its bytes, low byte first (R78). -/
theorem crcByte_crcByte_eq_zero_iff {c : U16} {x y : Byte} :
    crcByte (crcByte c x) y = 0 ↔ crcBytes c = [x, y] := by
  rw [← crcByte_setWidth_self y, crcByte_left_inj, ← crcByte_be16 y x, crcByte_left_inj,
    crcBytes_eq_iff]

theorem crc16_append_pair (body : List Byte) (x y : Byte) :
    crc16 (body ++ [x, y]) = crcByte (crcByte (crc16 body) x) y := List.foldl_append

theorem crcValid_append_pair {body : List Byte} {x y : Byte} :
    crcValid (body ++ [x, y]) = true ↔ crcBytes (crc16 body) = [x, y] := by
  simp [crcValid]

/-- Settles O5: the frame is a body and two bytes, and these take the body's CRC to zero exactly when
they are its bytes. -/
theorem crcValidIffCrcZero : Obligations.CrcValidIffCrcZero := by
  intro frame hlen
  obtain ⟨x, y, hxy⟩ := List.length_eq_two.1 (show (frame.drop (frame.length - 2)).length = 2 by
    rw [List.length_drop]; omega)
  rw [← List.take_append_drop (frame.length - 2) frame, hxy, crcValid_append_pair, crc16_append_pair,
    crcByte_crcByte_eq_zero_iff]

end Sys2Proof.Machine
end

section
/-! PROOF. Nothing received and nothing stored stops the block (42_frame_receiver.md R90, 40_bytering.md
R71, 45_encoders.md R112): every handler of an enabled event ends in a next state, but HOST_STORE's of
a value of a wrong kind. -/

namespace Sys2Proof.Machine

/-- No instruction stops in RECV (R90). -/
theorem exec_total (i : Instr) (s : State) : ∃ t, exec i s = .next t := by
  obtain ⟨k, -, he⟩ := exec_cases i s
  rw [he]
  cases s.q.create s.cfg.qCap (requestOf i) with
  | none => exact ⟨_, rfl⟩
  | some q => exact ⟨_, rfl⟩

/-- RECV never reads past the buffered bytes (R71). -/
theorem handleRecv_total {s : State} (hp : s.rxPosted = true) : ∃ t, handleRecv s = .next t := by
  rcases handleRecv_cases s hp with ⟨t, ht, -⟩ | ⟨i, hi⟩
  · exact ⟨t, ht⟩
  · rw [hi]
    exact exec_total i _

/-- The receiver queues only pairs of R112's table, so each request has a body (log 17). -/
theorem answer_total {d : PendingRequest} {c : Config} (hd : RequestOk c d) (s : State) :
    ∃ t, answer d s = .next t := by
  obtain ⟨i, -, rfl⟩ := hd
  have hok := bodyOf_ok s i
  rw [answer]
  cases hb : bodyOf (requestOf i) s with
  | neverQueued => rw [hb] at hok; exact hok.elim
  | exc code u => exact ⟨_, rfl⟩
  | ok u => simp only; split <;> exact ⟨_, rfl⟩

theorem classFire_total {s : State} (h : Inv s) (k : RegClass) : ∃ t, classFire k s = .next t := by
  rw [classFire]
  cases hq : s.q.first with
  | none => exact ⟨_, rfl⟩
  | some d =>
    simp only
    split
    · exact ⟨_, rfl⟩
    · exact answer_total (h.queue.first_made hq) _

/-- HOST_STORE has a move when the value is of every kind the reference is bound to (60_exceptions.md
R168, log 9). -/
theorem handle_hostStore (s : State) (ref : StorageRef) (v : Value) :
    (∃ t, handle (.hostStore ref v) s = .next t) ∨
      (∃ k ∈ boundKinds s.cfg ref, k ≠ valueKind v) ∧
        handle (.hostStore ref v) s = .fault .storeOfWrongKind := by
  rw [handle, enabled, if_pos rfl]
  by_cases hk : storeKindOk s.cfg ref v = true
  · exact .inl ⟨_, if_pos hk⟩
  · refine .inr ⟨?_, if_neg hk⟩
    simpa [storeKindOk] using hk

/-- The handler of an enabled event, by the event. -/
theorem handle_enabled {e : Event} {s : State} (h : Inv s) (he : enabled e s = true) :
    (∃ t, handle e s = .next t) ∨ ∃ ref v, e = .hostStore ref v ∧
      (∃ k ∈ boundKinds s.cfg ref, k ≠ valueKind v) ∧ handle e s = .fault .storeOfWrongKind := by
  cases e with
  | hostStore ref v => exact (handle_hostStore s ref v).imp_right fun hs => ⟨ref, v, rfl, hs⟩
  | recv =>
    rw [handle.eq_def, if_pos he]
    exact .inl (handleRecv_total he)
  | classFire k =>
    rw [handle.eq_def, if_pos he]
    exact .inl (classFire_total h k)
  | _ =>
    rw [handle.eq_def, if_pos he]
    exact .inl ⟨_, rfl⟩

/-- Settles O54: the next event is the script's, enabled or not, or a promised one, which is enabled
and no HOST_STORE. -/
theorem onlyTheEnvironmentStopsTheBlock : Obligations.OnlyTheEnvironmentStopsTheBlock := by
  intro s h
  cases hn : nextEvent s with
  | none => exact .inl ⟨s, by rw [step, if_pos h.config, hn]⟩
  | some e =>
    rw [step_of_nextEvent h.config hn]
    have hinv := h.takeEvent e
    rcases nextEvent_cases hn with ⟨rest, hin, ht⟩ | ⟨-, hp, w, n, ht⟩ <;> rw [ht] at hinv ⊢
    · cases he : enabled e s with
      | false =>
        exact .inr ⟨e, rest, hin, .inl ⟨he, handle_of_not_enabled (by rw [enabled_inputs, he])⟩⟩
      | true =>
        refine (handle_enabled hinv (by rw [enabled_inputs, he])).imp_right ?_
        exact fun hs => ⟨e, rest, hin, .inr hs⟩
    · obtain ⟨he, hk⟩ := promisedEvents_mem hp
      have he' : enabled e { s with waiting := w, freeCount := n } = true := by
        cases e <;> exact he
      refine .inl ((handle_enabled hinv he').resolve_right ?_)
      rintro ⟨ref, v, rfl, -⟩
      simp at hk

end Sys2Proof.Machine
end

section
/-! PROOF. RECV up to the decode (42_frame_receiver.md R80 to R87): waiting for more bytes, the drops
that come before the request is queued, and the instruction that is executed. -/

namespace Sys2Proof.Machine

/-- `s` once RECV has taken the posting and cancelled the watchdog (R80). -/
def State.receiving (s : State) : State := { s with rxPosted := false, wdog := .off }

/-- `s` after RECV found too few bytes (R81, R82, R84). -/
def State.awaiting (s : State) : State :=
  { s with rxPosted := false, wdog := .running s.cfg.tWdog, wdogN := s.rxBytes.length }

theorem State.length_rxBytes (s : State) : s.rxBytes.length = s.rx.count := Ring.length_bytes

theorem handle_recv {s : State} (hp : s.rxPosted = true) : handle .recv s = handleRecv s := by
  rw [handle, enabled, if_pos hp]

theorem step_offer_recv {s : State} (hc : configOk s.cfg = true) (hp : s.rxPosted = true) :
    step (s.offer .recv) = handleRecv s := by
  rw [step_offer hc, handle_recv hp]

/-- RECV with fewer than 8 bytes waits, and otherwise looks at the address (R80, R81). -/
theorem fetch_eq (s : State) : fetch s =
    if s.rxBytes.length < 8 then .done s.awaiting else fetchFrame s.receiving s.rxBytes := by
  rw [fetch, Ring.peekAll_count, State.awaiting, State.length_rxBytes]
  rfl

/-- A frame dropped before the decode: what its reason counts (R89, R30). -/
theorem State.dropFrame_receiving (s : State) (r : DropReason) :
    s.receiving.dropFrame false r =
      s.dropped (if r = .crcMismatch ∨ r = .unknownFunction then 1 else 0)
        (if r = .crcMismatch then 1 else 0) := by
  cases r <;> simp [State.receiving, State.dropped, State.dropFrame, State.countDrop,
    State.countCrcFault, State.countUnknownFunction, State.rxClear, Ring.clear]

/-! ### The address (R82) -/

/-- Too few bytes for any frame: fewer than 8, or fewer than 12 in LONG mode (R81, R82). -/
theorem lt_addressOffset_iff {bs : List Byte} : bs.length < 8 + addressOffset bs ↔
    bs.length < 8 ∨ bs.getD 0 0 = 0xFA ∧ bs.length < 12 := by
  rw [addressOffset]
  split
  next h => simp only [h, true_and]; omega
  next h => simp only [h, false_and, or_false, Nat.add_zero]

theorem addressCheck_short_of_bytes {c : Config} {a : Byte} {bs : List Byte} (h8 : ¬ bs.length < 8)
    (h : bs.length < 8 + addressOffset bs) : addressCheck c a bs = .waitMore := by
  obtain ⟨h0, h12⟩ := (lt_addressOffset_iff.1 h).resolve_left h8
  rw [addressCheck, if_pos h0, if_pos h12]

theorem addressCheck_of_addressed {s : State} {bs : List Byte}
    (h8 : 8 + addressOffset bs ≤ bs.length) (ha : addressed s (decodeAddress bs)) :
    addressCheck s.cfg s.slaveAddr bs =
      .ok (addressOffset bs) (addressBcast (decodeAddress bs)) := by
  rw [addressOffset] at h8 ⊢
  rw [decodeAddress] at ha ⊢
  rw [addressCheck]
  by_cases h0 : bs.getD 0 0 = 0xFA
  · simp only [h0, if_true, addressed] at h8 ha ⊢
    rw [if_neg (by omega), if_neg (not_not.2 ha)]
    rfl
  · simp only [h0, if_false, addressed] at ha ⊢
    rw [if_neg (by tauto)]
    rfl

theorem addressCheck_of_not_addressed {s : State} {bs : List Byte}
    (h8 : 8 + addressOffset bs ≤ bs.length) (ha : ¬ addressed s (decodeAddress bs)) :
    addressCheck s.cfg s.slaveAddr bs = .mismatch := by
  rw [addressOffset] at h8
  rw [decodeAddress] at ha
  rw [addressCheck]
  by_cases h0 : bs.getD 0 0 = 0xFA
  · simp only [h0, if_true, addressed] at h8 ha ⊢
    rw [if_neg (by omega), if_pos ha]
  · simp only [h0, if_false, addressed] at ha ⊢
    rw [if_pos (by tauto)]

theorem addressed_receiving {s : State} {p : Address} :
    addressed s.receiving p ↔ addressed s p := by
  cases p <;> rfl

/-- A broadcast is the SHORT address 0 (R82). -/
theorem addressBcast_decodeAddress (bs : List Byte) :
    addressBcast (decodeAddress bs) = true ↔ bs.getD 0 0 = 0x00 := by
  rw [decodeAddress]
  split
  next h => simp only [addressBcast, h]; decide
  next h => exact beq_iff_eq

/-! ### The CRC (R86) -/

theorem frameLengthOf_ge (f : Fn) (a : Nat) (bc : Byte) : 8 + a ≤ frameLengthOf f a bc := by
  cases f <;> simp only [frameLengthOf] <;> omega

/-- The last two of `len` bytes. -/
theorem drop_take_two {bs : List Byte} {len : Nat} (h2 : 2 ≤ len) (hl : len ≤ bs.length) :
    (bs.take len).drop (len - 2) = [bs.getD (len - 2) 0, bs.getD (len - 1) 0] := by
  obtain ⟨n, rfl⟩ : ∃ n, len = n + 2 := ⟨len - 2, by omega⟩
  have hn : n < bs.length := by omega
  have hn1 : n + 1 < bs.length := by omega
  rw [List.drop_take, Nat.add_sub_cancel, Nat.add_sub_cancel_left, List.drop_eq_getElem_cons hn,
    List.drop_eq_getElem_cons hn1, List.getD_eq_getElem _ _ hn, Nat.add_sub_assoc (by decide),
    List.getD_eq_getElem _ _ hn1]
  rfl

/-- The CRC taken over the ring is that of the buffered bytes. -/
theorem State.frameCrcValid_eq {s : State} {len : Nat} (h2 : 2 ≤ len)
    (hl : len ≤ s.rxBytes.length) :
    s.frameCrcValid s.rxBytes len = crcValid (s.rxBytes.take len) := by
  have hlen : (s.rxBytes.take len).length = len := List.length_take_of_le hl
  have hbody : (s.rxBytes.take len).take (len - 2) = s.rx.memRead s.cfg.rxCap s.rx.head (len - 2) := by
    rw [State.length_rxBytes] at hl
    rw [List.take_take, State.rxBytes, Ring.bytes, Ring.memRead_take]
    congr 1
    omega
  rw [State.frameCrcValid, crcValid, hlen, hbody, drop_take_two h2 hl, Ring.crc]

/-! ### How RECV goes on -/

theorem handleRecv_awaiting {s : State} (h : s.rxBytes.length < 8 + addressOffset s.rxBytes) :
    handleRecv s = .next s.awaiting := by
  rw [handleRecv, fetch_eq]
  by_cases h8 : s.rxBytes.length < 8
  · rw [if_pos h8]
  · rw [if_neg h8, fetchFrame, addressCheck_short_of_bytes h8 h]
    rfl

theorem fetch_of_length {s : State} (h8 : 8 + addressOffset s.rxBytes ≤ s.rxBytes.length) :
    fetch s = fetchFrame s.receiving s.rxBytes := by
  rw [fetch_eq, if_neg (by omega)]

theorem handleRecv_not_addressed {s : State} (h8 : 8 + addressOffset s.rxBytes ≤ s.rxBytes.length)
    (ha : ¬ addressed s (decodeAddress s.rxBytes)) : handleRecv s = .next (s.dropped 0 0) := by
  rw [handleRecv, fetch_of_length h8, fetchFrame,
    addressCheck_of_not_addressed h8 (mt addressed_receiving.1 ha)]
  exact congrArg Host.Outcome.next (s.dropFrame_receiving .addressMismatch)

section Addressed

variable {s : State} (h8 : 8 + addressOffset s.rxBytes ≤ s.rxBytes.length)
  (ha : addressed s (decodeAddress s.rxBytes))

include h8 ha

theorem handleRecv_unknownFunction
    (hf : fnOfCode (s.rxBytes.getD (addressOffset s.rxBytes + 1) 0) = none) :
    handleRecv s = .next (s.dropped 1 0) := by
  rw [handleRecv, fetch_of_length h8, fetchFrame,
    addressCheck_of_addressed h8 (addressed_receiving.2 ha)]
  simp only [hf]
  exact congrArg Host.Outcome.next (s.dropFrame_receiving .unknownFunction)

/-- A frame for this device with a known function code: length, broadcast of a read and CRC are looked
at in this order (R84, R85, R86). -/
theorem handleRecv_of_fn {f : Fn} {len : Nat}
    (hf : fnOfCode (s.rxBytes.getD (addressOffset s.rxBytes + 1) 0) = some f)
    (hlen : len = frameLengthOf f (addressOffset s.rxBytes)
      (s.rxBytes.getD (addressOffset s.rxBytes + 6) 0)) :
    handleRecv s =
      if s.rxBytes.length < len then .next s.awaiting
      else if fnRefusesBroadcast f = true ∧ addressBcast (decodeAddress s.rxBytes) = true then
        .next (s.dropped 0 0)
      else if crcValid (s.rxBytes.take len) = false then .next (s.dropped 1 1)
      else exec (decodeFields f s.rxBytes) s.receiving := by
  subst hlen
  rw [handleRecv, fetch_of_length h8, fetchFrame,
    addressCheck_of_addressed h8 (addressed_receiving.2 ha)]
  have hge := frameLengthOf_ge f (addressOffset s.rxBytes)
    (s.rxBytes.getD (addressOffset s.rxBytes + 6) 0)
  simp only [hf]
  generalize frameLengthOf f _ _ = len at hge ⊢
  by_cases hl : s.rxBytes.length < len
  · rw [if_pos hl, if_pos hl]
    rfl
  rw [if_neg hl, if_neg hl]
  have hcrc : s.receiving.frameCrcValid s.rxBytes len = crcValid (s.rxBytes.take len) :=
    State.frameCrcValid_eq (s := s.receiving) (by omega) (not_lt.1 hl)
  rw [hcrc]
  by_cases hb : fnRefusesBroadcast f = true ∧ addressBcast (decodeAddress s.rxBytes) = true
  · rw [if_pos hb, if_pos (Bool.and_eq_true_iff.2 hb)]
    exact congrArg Host.Outcome.next (s.dropFrame_receiving .broadcastRead)
  rw [if_neg hb, if_neg (mt Bool.and_eq_true_iff.1 hb)]
  cases crcValid (s.rxBytes.take len) with
  | false => exact congrArg Host.Outcome.next (s.dropFrame_receiving .crcMismatch)
  | true => rfl

end Addressed

/-! ### The statements -/

/-- Settles O15: too few bytes for any frame, or for the frame that is for this device. -/
theorem incompleteFrameArmsWatchdog : Obligations.IncompleteFrameArmsWatchdog := by
  intro s hc hp h
  rw [step_offer_recv hc hp]
  by_cases h8 : s.rxBytes.length < 8 + addressOffset s.rxBytes
  · exact handleRecv_awaiting h8
  · obtain ⟨ha, f, hf, hlt⟩ := (or_assoc.2 h).resolve_left (mt lt_addressOffset_iff.2 h8)
    rw [handleRecv_of_fn (not_lt.1 h8) ha hf rfl, if_pos hlt]
    rfl

/-- Settles O16: the address check fails once all bytes of the address are there. -/
theorem otherDevicesFrameDropped : Obligations.OtherDevicesFrameDropped := by
  intro s hc hp h8 ha
  rw [step_offer_recv hc hp, handleRecv_not_addressed h8 ha]

/-- Settles O17: the function code is looked at before the frame's length and CRC. -/
theorem unknownFunctionDropped : Obligations.UnknownFunctionDropped := by
  intro s hc hp h8 ha hf
  rw [step_offer_recv hc hp, handleRecv_unknownFunction h8 ha hf]

/-- A read frame in SHORT mode is 8 bytes long and refused as a broadcast (R58, R85). -/
theorem read_refusesBroadcast {f : Fn}
    (h : f ∈ [Fn.rdCoils, .rdDiscretes, .rdHolding, .rdInput, .diagSample]) :
    fnRefusesBroadcast f = true ∧ ∀ bc, frameLengthOf f 0 bc = 8 := by
  simp only [List.mem_cons, List.not_mem_nil, or_false] at h
  rcases h with rfl | rfl | rfl | rfl | rfl <;> exact ⟨rfl, fun _ => rfl⟩

/-- Settles O18: the broadcast of a read is refused before the CRC. -/
theorem broadcastReadDropped : Obligations.BroadcastReadDropped := by
  intro s f hc hp h8 h0 hf hread
  obtain ⟨hr, hlen⟩ := read_refusesBroadcast hread
  have hne : s.rxBytes.getD 0 0 ≠ 0xFA := by rw [h0]; decide
  have hoff : addressOffset s.rxBytes = 0 := if_neg hne
  have ha : addressed s (decodeAddress s.rxBytes) := by
    rw [decodeAddress, if_neg hne]
    exact .inr h0
  rw [step_offer_recv hc hp, handleRecv_of_fn (by rw [hoff]; exact h8) ha (by rw [hoff]; exact hf) rfl,
    hoff, hlen, if_neg (not_lt.2 h8), if_pos ⟨hr, (addressBcast_decodeAddress _).2 h0⟩]

/-- Settles O19: a complete frame that is no broadcast of a read comes to its CRC. -/
theorem crcMismatchDropped : Obligations.CrcMismatchDropped := by
  intro s f hc hp h8 ha hf hlen hb hcrc
  have hnb : ¬(fnRefusesBroadcast f = true ∧ addressBcast (decodeAddress s.rxBytes) = true) := by
    rw [addressBcast_decodeAddress]
    exact fun h => by simp [hb h.2] at h
  rw [step_offer_recv hc hp, handleRecv_of_fn h8 ha hf rfl, if_neg (not_lt.2 hlen), if_neg hnb,
    if_pos hcrc]

theorem instrAddress_decodeFields (f : Fn) (bs : List Byte) :
    instrAddress (decodeFields f bs) = decodeAddress bs := by
  cases f <;> rfl

theorem instrFn_decodeFields (f : Fn) (bs : List Byte) : instrFn (decodeFields f bs) = f := by
  cases f <;> rfl

/-- What the decoder looks for is what RECV looks for after the address (R80, R87). -/
theorem handleRecv_of_decode {s : State} {i : Instr} {len : Nat}
    (hd : decode s.rxBytes = .instr i len) (ha : addressed s (instrAddress i))
    (hb : addressBcast (instrAddress i) = true → fnRefusesBroadcast (instrFn i) = false) :
    handleRecv s = exec i s.receiving := by
  obtain ⟨h8, f, hf, hlen, hl, hcrc, rfl⟩ := decode_eq_instr_iff.1 hd
  rw [instrAddress_decodeFields] at ha hb
  rw [instrFn_decodeFields] at hb
  rw [handleRecv_of_fn h8 ha hf hlen, if_neg (not_lt.2 hl), if_neg (by grind),
    if_neg (by simp [hcrc])]

/-- Settles O14: taking the event off the script leaves the bytes and the address as they are. -/
theorem stepRunsTheDecodedInstruction : Obligations.StepRunsTheDecodedInstruction := by
  intro s i len rest hc hin hp hd ha hb
  rw [step_script hc hin]
  exact (handle_recv (s := { s with inputs := rest }) hp).trans (handleRecv_of_decode hd ha hb)

end Sys2Proof.Machine
end

section
/-! PROOF. The nine instructions in RECV (42_frame_receiver.md R87 to R98): accepted and queued, dropped
with the queue full or after a failed value check, or answered at once. -/

namespace Sys2Proof.Machine

/-! ### Accepted requests -/

/-- `exec_queued` for a frame whose length is written out. -/
theorem exec_queued_of_length {i : Instr} {s : State} {len : Nat} (hlen : frameLength i = len)
    (hv : valueChecked s.cfg i) (hr : s.hasRoom) (hl : len ≤ s.rx.count) :
    exec i s = .next (s.queued (requestOf i) len) := by
  subst hlen
  exact exec_queued hv hr hl

/-- Settles O20: neither has a value check. -/
theorem coilReadsAreQueued : Obligations.CoilReadsAreQueued :=
  fun p start count _ hr hl =>
    ⟨exec_queued_of_length (frameLength_eq (.rdCoils p start count)) trivial hr hl,
      exec_queued_of_length (frameLength_eq (.rdDiscretes p start count)) trivial hr hl⟩

/-- Settles O21: neither has a value check. -/
theorem registerReadsAreQueued : Obligations.RegisterReadsAreQueued := by
  rintro p start count b s rfl hr hl i fc h
  simp only [List.mem_cons, Prod.mk.injEq, List.not_mem_nil, or_false] at h
  rcases h with ⟨rfl, rfl⟩ | ⟨rfl, rfl⟩
  · exact exec_queued_of_length (frameLength_eq (.rdHolding p start count)) trivial hr hl
  · exact exec_queued_of_length (frameLength_eq (.rdInput p start count)) trivial hr hl

/-- Settles O22: both values pass the check. -/
theorem coilWriteIsQueued : Obligations.CoilWriteIsQueued :=
  fun p addr value _ hv hr hl =>
    exec_queued_of_length (frameLength_eq (.wrCoil p addr value)) hv hr hl

/-- Settles O23: there is no value check. -/
theorem registerWriteIsQueued : Obligations.RegisterWriteIsQueued := by
  rintro p addr value b s rfl hr hl
  exact exec_queued_of_length (frameLength_eq (.wrReg p addr value)) trivial hr hl

/-- Settles O25: DIAG_SAMPLE has no value check, FORCE_ADDR that of the serial number. -/
theorem vendorRequestsAreQueued : Obligations.VendorRequestsAreQueued :=
  fun p field tune serial newAddr _ hr =>
    ⟨exec_queued_of_length (frameLength_eq (.diagSample p field tune)) trivial hr,
      fun hl hs => exec_queued_of_length (frameLength_eq (.forceAddr p serial newAddr)) hs hr hl⟩

/-! ### The payload of WR_MULTI (R96) -/

@[simp] theorem permute_length (o : ByteOrder) (x0 x1 x2 x3 : Byte) :
    (permute o x0 x1 x2 x3).length = 4 := by
  cases o <;> rfl

theorem permuteGroups_cons (o : ByteOrder) (x0 x1 x2 x3 : Byte) (xs : List Byte) :
    permuteGroups o (x0 :: x1 :: x2 :: x3 :: xs) = permute o x0 x1 x2 x3 ++ permuteGroups o xs := rfl

@[simp] theorem permuteGroups_length (o : ByteOrder) (xs : List Byte) :
    (permuteGroups o xs).length = xs.length := by
  induction xs using permuteGroups.induct with
  | case1 x0 x1 x2 x3 xs ih => simp [permuteGroups_cons, ih]; omega
  | case2 xs h => rw [permuteGroups]; exact h

/-- Group `g` of four bytes is brought to the order. -/
theorem permuteGroups_group (o : ByteOrder) (xs : List Byte) (g : Nat) (hg : 4 * g + 3 < xs.length) :
    permute o (xs.getD (4 * g) 0) (xs.getD (4 * g + 1) 0) (xs.getD (4 * g + 2) 0)
      (xs.getD (4 * g + 3) 0) = ((permuteGroups o xs).drop (4 * g)).take 4 := by
  induction xs using permuteGroups.induct generalizing g with
  | case1 x0 x1 x2 x3 xs ih =>
    cases g with
    | zero =>
      rw [permuteGroups_cons, Nat.mul_zero, List.drop_zero, List.take_left' (permute_length ..)]
      rfl
    | succ g =>
      have hdrop : (permuteGroups o (x0 :: x1 :: x2 :: x3 :: xs)).drop (4 * (g + 1)) =
          (permuteGroups o xs).drop (4 * g) := by
        rw [permuteGroups_cons, Nat.mul_succ, Nat.add_comm,
          ← permute_length o x0 x1 x2 x3, List.drop_length_add_append, permute_length]
      rw [hdrop, ← ih g (by simp only [List.length_cons] at hg; omega)]
      rfl
  | case2 xs h =>
    match xs, h with
    | [], _ | [_], _ | [_, _], _ | [_, _, _], _ => simp at hg
    | x0 :: x1 :: x2 :: x3 :: xs, h => exact (h x0 x1 x2 x3 xs rfl).elim

/-- The bytes after the last whole group stay. -/
theorem permuteGroups_rest (o : ByteOrder) (xs : List Byte) (j : Nat) (hj : 4 * (xs.length / 4) ≤ j) :
    (permuteGroups o xs).getD j 0 = xs.getD j 0 := by
  induction xs using permuteGroups.induct generalizing j with
  | case1 x0 x1 x2 x3 xs ih =>
    simp only [List.length_cons] at hj
    obtain ⟨k, rfl⟩ : ∃ k, j = k + 4 := ⟨j - 4, by omega⟩
    rw [permuteGroups_cons, List.getD_append_right _ _ _ _ (by simp), permute_length,
      Nat.add_sub_cancel, ih k (by omega)]
    rfl
  | case2 xs h => rw [permuteGroups]; exact h

@[simp] theorem normalizeData_length (b : Band) (data : List Byte) :
    (normalizeData b data).length = data.length := by
  rw [normalizeData]
  split <;> simp

/-- Settles O24: the byte count passes the check, and the payload is the normalized data. -/
theorem multiWriteIsQueued : Obligations.MultiWriteIsQueued := by
  rintro p start count data b s rfl h2 h0 h255 hr hl
  refine ⟨normalizeData (classify (regNumber start)) data, normalizeData_length _ _, fun h => ?_,
    fun hf hlvf => ?_, ?_⟩
  · exact if_neg fun hn => h.elim (absurd hn.1) fun ht => Bool.false_ne_true (hn.2.symm.trans ht)
  · rw [normalizeData, if_pos ⟨hf, hlvf⟩]
    exact ⟨permuteGroups_group _ data, permuteGroups_rest _ data⟩
  · exact exec_queued_of_length (frameLength_eq (.wrMulti p start count data)) ⟨h2, h0, h255⟩ hr hl

/-! ### Dropped and answered requests -/

variable {i : Instr} {s t : State}

theorem exec_full (h : s.q.count = s.cfg.qCap - 1) : exec i s = .next s.rxClear := by
  obtain ⟨k, -, he⟩ := exec_cases i s
  rw [he, Queue.create_eq, if_pos h]
  rfl

/-- Settles O26: no request can be created. -/
theorem fullQueueDropsTheFrame : Obligations.FullQueueDropsTheFrame :=
  fun _ _ h => exec_full h

/-- A request that failed its value check leaves the queue as it was (R89, 43_request_queue.md R102). -/
theorem discardTail_created {q : Queue} {d : PendingRequest} (h : Inv s)
    (hq : s.q.create s.cfg.qCap d = some q) : ({ s with q := q } : State).discardTail = s := by
  have hback := h.queue.discardTail_create (configOk_qCap h.config) hq
  rw [State.discardTail, hback]

theorem exec_dropped (h : Inv s) (hr : s.hasRoom) (hv : ¬ valueChecked s.cfg i)
    (hf : instrFn i ≠ .wrMulti) : exec i s = .next s.rxClear := by
  obtain ⟨k, hk, he⟩ := exec_cases i s
  have hq := Queue.create_of_hasRoom hr (requestOf i)
  rw [he, hq]
  cases hk with
  | accept hv' => exact absurd hv' hv
  | answer _ hf' => exact absurd hf' hf
  | drop _ r hr' _ =>
    simp only [State.dropFrame, if_true, discardTail_created h hq]
    rcases hr' with rfl | rfl <;> rfl

/-- Settles O27: the two instructions whose failed value check drops the frame. -/
theorem failedValueCheckDrops : Obligations.FailedValueCheckDrops := by
  intro p addr value serial newAddr s h hr
  refine ⟨fun h1 h0 => ?_, fun hs => ?_⟩
  · exact exec_dropped h hr (i := .wrCoil p addr value) (not_or.2 ⟨h1, h0⟩) (by rintro ⟨⟩)
  · exact exec_dropped h hr (i := .forceAddr p serial newAddr) hs (by rintro ⟨⟩)

/-- Under the invariant the transmit path is idle when nothing is being transmitted (R153). -/
theorem Inv.txIdle_eq (h : Inv s) : s.txIdle = !s.txInProgress := by
  rw [State.txIdle]
  cases hp : s.txInProgress with
  | true => rfl
  | false => rw [h.txGate hp]; rfl

/-- The byte count is answered when the frame is no broadcast and nothing is being transmitted (R95). -/
theorem exec_answered (h : Inv s) (hr : s.hasRoom) (hv : ¬ valueChecked s.cfg i)
    (hf : instrFn i = .wrMulti) : exec i s = .next
      (if addressBcast (instrAddress i) = true ∨ s.txInProgress = true then s.rxRemove (frameLength i)
      else (s.rxRemove (frameLength i)).sendException 0x10 .badValue) := by
  obtain ⟨k, hk, he⟩ := exec_cases i s
  have hq := Queue.create_of_hasRoom hr (requestOf i)
  rw [he, hq]
  cases hk with
  | accept hv' => exact absurd hv' hv
  | drop _ _ _ hf' => exact absurd hf hf'
  | answer _ _ =>
    simp only [State.badByteCount, discardTail_created h hq]
    rw [show (s.rxRemove (frameLength i)).txIdle = s.txIdle from rfl, h.txIdle_eq]
    cases addressBcast (instrAddress i) <;> cases s.txInProgress <;> rfl

theorem addressBcast_iff {p : Address} : addressBcast p = true ↔ p = .short 0x00 := by
  cases p <;> simp [addressBcast]

/-- The exception that answers a bad byte count: TX and the transmit flags (R142, R151). -/
theorem State.sendException_badValue {u : State} (hb : cellsWf u.cfg.txCap u.tx.buf = true)
    (hc : configOk u.cfg = true) :
    ∃ tx, u.sendException 0x10 .badValue =
        { u with tx := tx, txInProgress := true, txie := true, lineMode := .transmit } ∧
      tx.bytes u.cfg.txCap = withCrc [u.slaveAddr, 0x90, 0x03] ∧ tx.head = 0 ∧
      ∀ j, 5 ≤ j → cellRead tx.buf j = cellRead u.tx.buf j := by
  have hcap : 5 ≤ u.cfg.txCap := Nat.le_trans (by decide) (configOk_txCap hc)
  obtain ⟨hbytes, hhead, -⟩ := State.sendException_tx hb hcap 0x10 .badValue
  rw [State.txBytes, State.sendException_cfg] at hbytes
  exact ⟨_, State.sendException_eq hb hcap _ _, hbytes, hhead,
    fun j hj => State.sendException_slots hb hcap _ _ hj⟩

/-- Settles O28: the value check fails, so the byte count is answered or the frame only removed. -/
theorem badByteCountAnswered : Obligations.BadByteCountAnswered := by
  intro p start count data s h hr _ hbad hl
  have hv : ¬ valueChecked s.cfg (.wrMulti p start count data) := fun hv => hbad ⟨hv.1, hv.2.1⟩
  have hrx : s.rxRemove (9 + prefixOffset p + data.length) = { s with
      rx := ⟨s.rx.buf, (s.rx.head + (9 + prefixOffset p + data.length)) % s.cfg.rxCap, s.rx.tail,
        s.rx.count - (9 + prefixOffset p + data.length)⟩ } := by
    rw [State.rxRemove, Ring.remove_eq (by omega) hl]
  rw [exec_answered h hr hv rfl, frameLength_eq]
  simp only [instrAddress, addressBcast_iff, hrx]
  by_cases hq : p = .short 0x00 ∨ s.txInProgress = true
  · simp only [if_pos hq]
    exact ⟨_, rfl, rfl, rfl⟩
  · obtain ⟨tx, he, hbytes, hhead, hslots⟩ := State.sendException_badValue (u := { s with
      rx := ⟨s.rx.buf, (s.rx.head + (9 + prefixOffset p + data.length)) % s.cfg.rxCap, s.rx.tail,
        s.rx.count - (9 + prefixOffset p + data.length)⟩ }) h.tx.cells h.config
    simp only [if_neg hq, he]
    exact ⟨_, rfl, rfl, rfl, hbytes, hhead, fun j hj _ => hslots j hj⟩

end Sys2Proof.Machine
end

section
/-! PROOF. What no instruction changes in RECV (42_frame_receiver.md R87 to R98). -/

namespace Sys2Proof.Machine

variable {i : Instr} {s t : State}

/-- What an instruction may make of RX, the queue and the class timers: bytes leave RX, a request goes
into the tail's slot, and the timer of its class is armed. -/
def RecvWrites (i : Instr) (s : State) (rx : Ring) (q : Queue) (ctimer : PerClass Timer) : Prop :=
  rx.buf = s.rx.buf ∧ q.head = s.q.head ∧
    (∀ j, j ≠ s.q.tail → q.slot.getD j none = s.q.slot.getD j none) ∧
    ∀ k, k ≠ (requestOf i).cls → perClassGet ctimer k = perClassGet s.ctimer k

theorem RecvWrites.of_rx {rx : Ring} (h : rx.buf = s.rx.buf) : RecvWrites i s rx s.q s.ctimer :=
  ⟨h, rfl, fun _ _ => rfl, fun _ _ => rfl⟩

/-- The next state of an instruction. Only the answer of WR_MULTI touches the transmit path (R95). -/
inductive RecvEnds (i : Instr) (s : State) : State → Prop where
  | silent (rx : Ring) (q : Queue) (ctimer : PerClass Timer) (h : RecvWrites i s rx q ctimer) :
    RecvEnds i s { s with rx := rx, q := q, ctimer := ctimer }
  | answered (rx tx : Ring) (h : RecvWrites i s rx s.q s.ctimer) (hf : instrFn i = .wrMulti)
    (hidle : s.txInProgress = false)
    (hslots : ∀ j, 5 ≤ j → cellRead tx.buf j = cellRead s.tx.buf j) :
    RecvEnds i s { s with
      rx := rx, tx := tx, txInProgress := true, txie := true, lineMode := .transmit }

theorem RecvEnds.cleared : RecvEnds i s s.rxClear := .silent s.rx.clear _ _ (.of_rx rfl)

/-- An instruction that passes its value check is accepted, however many bytes RX holds (R87, R88). -/
theorem exec_accepted (hr : s.hasRoom) (hv : valueChecked s.cfg i) : exec i s = .next { s with
    rx := s.rx.remove s.cfg.rxCap s.cfg.emptySentinel (frameLength i)
    q := ⟨s.q.slot.set s.q.tail (some (requestOf i)), s.q.head, (s.q.tail + 1) % s.cfg.qCap,
      s.q.count + 1⟩
    ctimer := perClassSet s.ctimer (requestOf i).cls
      (.running (perClassGet s.cfg.tClass (requestOf i).cls)) } := by
  obtain ⟨k, hk, he⟩ := exec_cases i s
  rw [he, Queue.create_of_hasRoom hr]
  cases hk with
  | accept _ => rfl
  | drop hv' => exact absurd hv hv'
  | answer hv' => exact absurd hv hv'

theorem exec_ends (h : Inv s) (he : exec i s = .next t) : RecvEnds i s t := by
  by_cases hr : s.q.count = s.cfg.qCap - 1
  · rw [exec_full hr] at he
    cases he
    exact .cleared
  by_cases hv : valueChecked s.cfg i
  · rw [exec_accepted hr hv] at he
    cases he
    have htl : s.q.tail < s.q.slot.length := h.queue.slots ▸ h.queue.tail_lt
    exact .silent _ _ _ ⟨Ring.remove_buf _ _, rfl, fun j hj => by rw [getD_set htl, if_neg hj],
      fun k hk => by rw [perClassGet_set, if_neg hk]⟩
  by_cases hf : instrFn i = .wrMulti
  · rw [exec_answered h hr hv hf] at he
    cases he
    have hrx : RecvWrites i s (s.rxRemove (frameLength i)).rx s.q s.ctimer :=
      .of_rx (Ring.remove_buf _ _)
    split
    · exact .silent _ _ _ hrx
    next hq =>
      obtain ⟨tx, htx, -, -, hslots⟩ :=
        State.sendException_badValue (u := s.rxRemove (frameLength i)) h.tx.cells h.config
      rw [htx]
      exact .answered _ tx hrx hf (Bool.eq_false_of_not_eq_true (not_or.1 hq).2) hslots
  · rw [exec_dropped h hr hv hf] at he
    cases he
    exact .cleared

/-- Settles O29: an instruction ends silently or with WR_MULTI's answer. -/
theorem execFrame : Obligations.ExecFrame := by
  intro i s t h he
  cases exec_ends h he with
  | silent rx q ctimer hw =>
    obtain ⟨hrx, hhead, hslot, htimer⟩ := hw
    exact ⟨rfl, hrx, rfl, rfl, rfl, rfl, rfl, rfl, rfl, rfl, rfl, rfl, rfl, rfl, rfl, rfl, rfl, rfl,
      hhead, hslot, htimer, fun _ _ _ => rfl, fun _ => ⟨rfl, rfl, rfl, rfl⟩⟩
  | answered rx tx hw hf hidle hslots =>
    obtain ⟨hrx, hhead, hslot, htimer⟩ := hw
    refine ⟨rfl, hrx, rfl, rfl, rfl, rfl, rfl, rfl, rfl, rfl, rfl, rfl, rfl, rfl, rfl, rfl, rfl, rfl,
      hhead, hslot, htimer, fun j hj _ => hslots j hj, ?_⟩
    simp [hf, hidle]

end Sys2Proof.Machine
end

section
/-! PROOF. From acceptance to the answer (42_frame_receiver.md R88, 48_silence_transmit.md R147, R149,
R150): the class timer of an accepted request runs for `T_CLASS` TICKs. -/

namespace Sys2Proof.Machine

/-! ### Timers -/

theorem timerTick_iterate_lt {n m : Nat} (h : n < m) :
    timerTick^[n] (.running m) = .running (m - n) := by
  induction n with
  | zero => rfl
  | succ n ih =>
    rw [Function.iterate_succ_apply', ih (by omega), timerTick, if_neg (by omega), Nat.sub_sub]

/-- A timer armed for `m` TICKs expires with the last of them (R149, R150). -/
theorem timerTick_iterate_self {m : Nat} (h : 1 ≤ m) : timerTick^[m] (.running m) = .expired := by
  obtain ⟨n, rfl⟩ : ∃ n, m = n + 1 := ⟨m - 1, by omega⟩
  rw [Function.iterate_succ_apply', timerTick_iterate_lt (Nat.lt_succ_self n), timerTick,
    if_pos (by omega)]

theorem TimerOk.tick {x : Timer} (h : TimerOk x) : TimerOk (timerTick x) := by
  cases x with
  | running n =>
    rw [timerTick]
    split
    · trivial
    · show 1 ≤ n - 1
      omega
  | _ => trivial

/-- TICKs step the timers and nothing else. -/
theorem State.tickTimers_iterate (s : State) (n : Nat) : State.tickTimers^[n] s =
    { s with wdog := timerTick^[n] s.wdog, ctimer := perClassMap timerTick^[n] s.ctimer } := by
  induction n with
  | zero => rfl
  | succ n ih =>
    rw [Function.iterate_succ_apply', ih, State.tickTimers, Function.iterate_succ']
    rfl

theorem Inv.tickTimers {s : State} (h : Inv s) : Inv s.tickTimers :=
  { h with
    wdog := h.wdog.tick
    ctimer := fun k => by
      rw [State.tickTimers_ctimer, perClassGet_map]
      exact (h.ctimer k).tick }

/-! ### An accepted request -/

theorem configOk_tClass {c : Config} (h : configOk c = true) (k : RegClass) :
    1 ≤ perClassGet c.tClass k := by
  simp only [configOk, Bool.and_eq_true, List.all_eq_true, decide_eq_true_eq] at h
  exact (h.1.1.2 k (mem_allClasses k)).1

/-- Acceptance keeps the invariant (R87, R88). -/
theorem Inv.queued {s : State} {i : Instr} {len : Nat} (h : Inv s) (hr : s.hasRoom)
    (hv : valueChecked s.cfg i) (h0 : 0 < len) (hl : len ≤ s.rx.count) :
    Inv (s.queued (requestOf i) len) :=
  { h with
    rx := by
      have hrx := h.rx.remove s.cfg.emptySentinel len
      rwa [Ring.remove_eq h0 hl] at hrx
    queue := h.queue.create (configOk_qCap h.config) ⟨i, hv, rfl⟩ (Queue.create_of_hasRoom hr _)
    ctimer := fun k => by
      simp only [State.queued, perClassGet_set]
      split
      · exact configOk_tClass h.config _
      · exact h.ctimer k }

/-- A request queued into an empty queue is its oldest (43_request_queue.md R103). -/
theorem State.first_queued {s : State} (h : Inv s) (h0 : s.q.count = 0) (d : PendingRequest)
    (len : Nat) : (s.queued d len).q.first = some d := by
  have htail : s.q.tail = s.q.head := by
    rw [h.queue.tail_eq, h0, Nat.add_zero, Nat.mod_eq_of_lt h.queue.head_lt]
  have hhl : s.q.head < s.q.slot.length := h.queue.slots ▸ h.queue.head_lt
  rw [Queue.first, State.queued, if_neg (Nat.succ_ne_zero _), htail, getD_set hhl, if_pos rfl]

/-- Settles O30: the request stands alone in the queue, and its class timer counts `T_CLASS` TICKs. -/
theorem acceptedRequestBecomesDue : Obligations.AcceptedRequestBecomesDue := by
  intro i s h h0 hidle hv hl
  have hr : s.hasRoom := by
    have hcap := configOk_qCap h.config
    rw [State.hasRoom, h0]
    omega
  refine ⟨_, exec_queued hv hr hl, ?_⟩
  have hinv := h.queued hr hv (frameLength_pos i) hl
  have hfirst := State.first_queued h h0 (requestOf i) (frameLength i)
  have htimer : perClassGet (s.queued (requestOf i) (frameLength i)).ctimer (requestOf i).cls =
      .running (perClassGet s.cfg.tClass (requestOf i).cls) := by
    simp only [State.queued, perClassGet_set, if_true]
  have hget : ∀ n, perClassGet
      (State.tickTimers^[n] (s.queued (requestOf i) (frameLength i))).ctimer (requestOf i).cls =
        timerTick^[n] (.running (perClassGet s.cfg.tClass (requestOf i).cls)) := by
    intro n
    rw [State.tickTimers_iterate, perClassGet_map, htimer]
  refine ⟨fun n hn => ?_, Function.Iterate.rec Inv hinv (fun _ => Inv.tickTimers) _, ?_, ?_, ?_⟩
  · rw [hget, timerTick_iterate_lt hn]
    exact Timer.noConfusion
  · rw [State.tickTimers_iterate]
    exact hfirst
  · rw [hget, timerTick_iterate_self (configOk_tClass h.config _)]
  · rw [State.tickTimers_iterate]
    exact hidle

end Sys2Proof.Machine
end

section
/-! PROOF. The request queue is first in, first out (43_request_queue.md R100 to R104): a created
request joins at the back, a discarded head leaves from the front, and no handler does anything else
to the queue. -/

namespace Sys2Proof.Machine

/-! ### The list of queued requests -/

section Requests

variable {c : Config} {q q' : Queue} {d : PendingRequest}

/-- The slot behind the queued requests holds none of them, so that filling it keeps them (R100). -/
theorem QueueOk.requests_create (h : QueueOk c q) (hc : q.create c.qCap d = some q') :
    q'.requests c.qCap = q.requests c.qCap ++ [d] := by
  have hcount := h.count_le
  have htl : q.tail < q.slot.length := h.slots ▸ h.tail_lt
  rw [Queue.create_eq] at hc
  split at hc
  · cases hc
  cases hc
  have hkept : ∀ j ∈ List.range q.count,
      (q.slot.set q.tail (some d)).getD ((q.head + j) % c.qCap) none =
        q.slot.getD ((q.head + j) % c.qCap) none := by
    intro j hj
    have hj := List.mem_range.1 hj
    have hne : (q.head + j) % c.qCap ≠ q.tail := fun he => absurd
      (offset_eq_of_slot_eq (by omega) (by omega) (he.trans h.tail_eq)) (Nat.ne_of_lt hj)
    rw [getD_set htl, if_neg hne]
  have hlast : (q.slot.set q.tail (some d)).getD ((q.head + q.count) % c.qCap) none = some d := by
    rw [← h.tail_eq, getD_set htl, if_pos rfl]
  rw [Queue.requests, List.range_succ, List.filterMap_append, List.filterMap_congr hkept]
  simp only [List.filterMap_cons, hlast, List.filterMap_nil, Queue.requests]

/-- The head slot holds the oldest request and no other, so that emptying it keeps the others
(R101, R103). -/
theorem QueueOk.requests_discardHead (h : QueueOk c q) (hd : q.first = some d) :
    q.requests c.qCap = d :: (q.discardHead c.qCap).requests c.qCap := by
  have hcount := h.count_le
  have hhl : q.head < q.slot.length := h.slots ▸ h.head_lt
  have hhead : (q.head + 0) % c.qCap = q.head := Nat.mod_eq_of_lt h.head_lt
  rw [Queue.first] at hd
  split at hd
  · cases hd
  rename_i h0
  obtain ⟨n, hn⟩ := Nat.exists_eq_succ_of_ne_zero h0
  have hkept : ∀ j ∈ List.range n,
      (q.slot.set q.head none).getD (((q.head + 1) % c.qCap + j) % c.qCap) none =
        q.slot.getD ((q.head + (j + 1)) % c.qCap) none := by
    intro j hj
    have hj := List.mem_range.1 hj
    have hne : (q.head + (j + 1)) % c.qCap ≠ q.head := fun he => absurd
      (offset_eq_of_slot_eq (by omega) (by omega) (he.trans hhead.symm)) (Nat.succ_ne_zero j)
    rw [Nat.mod_add_mod, Nat.add_assoc, Nat.add_comm 1 j, getD_set hhl, if_neg hne]
  have hrest : (q.discardHead c.qCap).requests c.qCap =
      (List.range n).filterMap fun j => q.slot.getD ((q.head + (j + 1)) % c.qCap) none := by
    rw [Queue.discardHead, if_neg h0, hn]
    exact List.filterMap_congr hkept
  rw [hrest, Queue.requests, hn, List.range_succ_eq_map,
    List.filterMap_cons_some (by rw [hhead, hd]), List.filterMap_map]
  rfl

end Requests

/-! ### What a handler does to the queue -/

variable {s t : State}

/-- What a handler may make of the queue: nothing, one more request, or one less. -/
inductive QueueMoves (c : Config) (q : Queue) : Queue → Prop where
  | kept : QueueMoves c q q
  | joined (d : PendingRequest) (hd : RequestOk c d) (q' : Queue)
    (hc : q.create c.qCap d = some q') : QueueMoves c q q'
  | left (d : PendingRequest) (hd : q.first = some d) : QueueMoves c q (q.discardHead c.qCap)

/-- An instruction queues its request when there is room and its value check passes; else the queue
is as it was (42_frame_receiver.md R87 to R89, R95). -/
theorem exec_queueMoves {i : Instr} (h : Inv s) (he : exec i s = .next t) :
    QueueMoves s.cfg s.q t.q := by
  by_cases hr : s.q.count = s.cfg.qCap - 1
  · rw [exec_full hr] at he
    cases he
    exact .kept
  by_cases hv : valueChecked s.cfg i
  · rw [exec_accepted hr hv] at he
    cases he
    exact .joined (requestOf i) ⟨i, hv, rfl⟩ _ (Queue.create_of_hasRoom hr _)
  by_cases hf : instrFn i = .wrMulti
  · rw [exec_answered h hr hv hf] at he
    cases he
    split
    · exact .kept
    · rw [State.sendException_q]
      exact .kept
  · rw [exec_dropped h hr hv hf] at he
    cases he
    exact .kept

/-- However an answer ends, its request leaves the queue (45_encoders.md R111). -/
theorem answer_queue {d : PendingRequest} (h : answer d s = .next t) :
    t.q = s.q.discardHead s.cfg.qCap := by
  have hf := bodyOf_framed d s
  rw [answer] at h
  generalize bodyOf d s = r at h hf
  cases r with
  | neverQueued => cases h
  | exc code u =>
    cases h
    rw [State.discardHead_q, State.encException_q, State.encException_cfg, BodyFrame.rest hf]
  | ok u =>
    have hu := BodyFrame.rest hf
    simp only at h
    split at h <;> cases h
    · rw [State.discardHead_q, State.txRollback_q, State.txRollback_cfg, hu]
    · rw [State.discardHead_q, State.finishFrame_q, State.finishFrame_cfg, hu]

theorem handleRxByte_q (x : Byte) (s : State) : (handleRxByte x s).q = s.q := by
  rw [handleRxByte]
  split <;> rfl

theorem handleTxReady_q (s : State) : (handleTxReady s).q = s.q := by
  rw [handleTxReady]
  repeat' split
  all_goals rfl

/-- The host has no access to the queue (60_exceptions.md R167). -/
theorem hostWrite_q (s : State) (r : HostReg) (v : U16) : (s.hostWrite r v).q = s.q := by
  cases r with
  | persistReq =>
    rw [State.hostWrite]
    split <;> rfl
  | _ => rfl

/-- Only RECV adds a request, and only CLASS_FIRE removes one. -/
theorem Handled.queueMoves {e : Event} (h : Inv s) (hH : Handled s e t) :
    QueueMoves s.cfg s.q t.q := by
  cases hH with
  | run hp i t he =>
    have hs : Inv { s with rxPosted := false, wdog := .off } := { h with wdog := trivial }
    exact (exec_queueMoves hs he :)
  | answer d hq hk hi t ha =>
    rw [answer_queue ha]
    exact .left d hq
  | rxByte x =>
    rw [handleRxByte_q]
    exact .kept
  | txReady =>
    rw [handleTxReady_q]
    exact .kept
  | hostWrite r v =>
    rw [hostWrite_q]
    exact .kept
  | tick | wait | drop | wdogFire | classIdle | classBusy | hostStore => exact .kept

theorem step_queueMoves (h : Inv s) (hs : step s = .next t) : QueueMoves s.cfg s.q t.q := by
  rcases step_cases hs with ⟨e, -, hH⟩ | ⟨-, rfl⟩
  · have hm := hH.queueMoves (h.takeEvent e)
    rwa [State.takeEvent_cfg, State.takeEvent_q] at hm
  · exact .kept

/-- Settles O57: each move of the queue, read as a change of the list of queued requests. -/
theorem queueIsFifo : Obligations.QueueIsFifo := by
  intro s t h hs
  obtain ⟨hcfg, -⟩ := whoMayChangeWhat s t hs
  have hm := step_queueMoves h hs
  rw [hcfg]
  generalize t.q = q' at hm ⊢
  cases hm with
  | kept => exact .inl rfl
  | joined d hd _ hc => exact .inr (.inl ⟨d, h.queue.requests_create hc, hd⟩)
  | left d hd => exact .inr (.inr ⟨d, h.queue.requests_discardHead hd⟩)

end Sys2Proof.Machine
end

section
/-! PROOF. The dispatcher (44_dispatcher.md R106, R108, R109): both table searches answer with the
first hit, and what the permission classes deny. -/

namespace Sys2Proof.Machine

/-! ### The linear search -/

theorem lookupLinear_cons_of_skipped {e : Entry} {a : Nat} (h : e.addr ≠ 0 ∧ e.addr ≠ a)
    (table : List Entry) : lookupLinear (e :: table) a = lookupLinear table a := by
  rw [lookupLinear, if_neg h.1, if_neg h.2]

theorem lookupLinear_append_of_skipped {before : List Entry} {a : Nat}
    (h : ∀ e ∈ before, e.addr ≠ 0 ∧ e.addr ≠ a) (table : List Entry) :
    lookupLinear (before ++ table) a = lookupLinear table a := by
  induction before with
  | nil => rfl
  | cons e before ih =>
    obtain ⟨he, hbefore⟩ := List.forall_mem_cons.mp h
    rw [List.cons_append, lookupLinear_cons_of_skipped he, ih hbefore]

theorem lookupLinear_cons_hit {e : Entry} (h : e.addr ≠ 0) (table : List Entry) :
    lookupLinear (e :: table) e.addr = some e.bnd := by
  rw [lookupLinear, if_neg h, if_pos rfl]

/-- A hit splits the table at the entry found (R106). -/
theorem exists_split_of_lookupLinear {table : List Entry} {a : Nat} {bnd : Binding}
    (h : lookupLinear table a = some bnd) :
    ∃ before e after, table = before ++ e :: after ∧ e.addr = a ∧ e.bnd = bnd ∧ a ≠ 0 ∧
      ∀ e' ∈ before, e'.addr ≠ 0 ∧ e'.addr ≠ a := by
  induction table with
  | nil => cases h
  | cons e table ih =>
    by_cases h0 : e.addr = 0
    · rw [lookupLinear, if_pos h0] at h
      cases h
    by_cases ha : e.addr = a
    · subst ha
      rw [lookupLinear_cons_hit h0] at h
      exact ⟨[], e, table, rfl, rfl, Option.some.inj h, h0, List.forall_mem_nil _⟩
    · rw [lookupLinear_cons_of_skipped ⟨h0, ha⟩] at h
      obtain ⟨before, e₁, after, rfl, haddr, hbnd, hne, hskip⟩ := ih h
      exact ⟨e :: before, e₁, after, rfl, haddr, hbnd, hne,
        List.forall_mem_cons.mpr ⟨⟨h0, ha⟩, hskip⟩⟩

/-- Settles O8: the search passes over every entry before the hit. -/
theorem linearLookupFindsFirst : Obligations.LinearLookupFindsFirst := by
  intro table a bnd
  refine ⟨exists_split_of_lookupLinear, ?_⟩
  rintro ⟨before, e, after, rfl, rfl, rfl, hne, hskip⟩
  rw [lookupLinear_append_of_skipped hskip, lookupLinear_cons_hit hne]

/-! ### The extended search -/

/-- The interval of segment `g`, which `rest` follows in the table, holds `a` (R108). -/
def HoldsAddress (extEnd : Nat) (g : Segment) (rest : List Segment) (a : Nat) : Prop :=
  g.rangeStart ≤ a ∧ a < (rest[0]?.map Segment.rangeStart).getD extEnd

/-- The binding that segment `g` gives address `a` (R108). -/
def segmentBinding (g : Segment) (a : Nat) : Binding :=
  ⟨⟨g.base, (a - g.rangeStart) / 2⟩, g.kind, g.perm⟩

theorem lookupExt_cons_of_holds {extEnd a : Nat} {g : Segment} {rest : List Segment}
    (h : HoldsAddress extEnd g rest a) :
    lookupExt extEnd (g :: rest) a = some (segmentBinding g a) := by
  cases rest <;> exact if_pos h

theorem lookupExt_cons_of_not_holds {extEnd a : Nat} {g : Segment} {rest : List Segment}
    (h : ¬HoldsAddress extEnd g rest a) :
    lookupExt extEnd (g :: rest) a = lookupExt extEnd rest a := by
  cases rest <;> exact if_neg h

/-- Segment `i` is the first whose interval holds `a`, and `bnd` is what it gives. -/
def FirstInterval (extEnd : Nat) (table : List Segment) (a : Nat) (bnd : Binding) (i : Nat) :
    Prop :=
  ∃ h : i < table.length, table[i].rangeStart ≤ a ∧
    a < (table[i + 1]?.map Segment.rangeStart).getD extEnd ∧ bnd = segmentBinding table[i] a ∧
    ∀ j, (hj : j < i) → ¬(table[j].rangeStart ≤ a ∧ a < table[j + 1].rangeStart)

theorem firstInterval_zero {extEnd a : Nat} {g : Segment} {rest : List Segment} {bnd : Binding} :
    FirstInterval extEnd (g :: rest) a bnd 0 ↔
      HoldsAddress extEnd g rest a ∧ bnd = segmentBinding g a := by
  simp [FirstInterval, HoldsAddress, and_assoc]

/-- A later segment is the first to hold `a` when the head does not and it is the first of the
rest. -/
theorem firstInterval_succ {extEnd a i : Nat} {g : Segment} {rest : List Segment} {bnd : Binding} :
    FirstInterval extEnd (g :: rest) a bnd (i + 1) ↔
      ¬HoldsAddress extEnd g rest a ∧ FirstInterval extEnd rest a bnd i := by
  cases rest with
  | nil => simp [FirstInterval]
  | cons g' rest =>
    constructor
    · rintro ⟨hi, hstart, hend, hbnd, hskip⟩
      exact ⟨hskip 0 i.succ_pos, Nat.lt_of_succ_lt_succ hi, hstart, hend, hbnd,
        fun j hj => hskip (j + 1) (Nat.succ_lt_succ hj)⟩
    · rintro ⟨hhead, hi, hstart, hend, hbnd, hskip⟩
      refine ⟨Nat.succ_lt_succ hi, hstart, hend, hbnd, fun j hj => ?_⟩
      cases j with
      | zero => exact hhead
      | succ j => exact hskip j (Nat.lt_of_succ_lt_succ hj)

theorem lookupExt_eq_some_iff {extEnd a : Nat} {table : List Segment} {bnd : Binding} :
    lookupExt extEnd table a = some bnd ↔ ∃ i, FirstInterval extEnd table a bnd i := by
  induction table with
  | nil => simp [lookupExt, FirstInterval]
  | cons g rest ih =>
    rw [← Nat.or_exists_add_one, firstInterval_zero]
    simp only [firstInterval_succ, exists_and_left, ← ih]
    by_cases h : HoldsAddress extEnd g rest a
    · simp [lookupExt_cons_of_holds h, h, eq_comm]
    · simp [lookupExt_cons_of_not_holds h, h]

/-- Settles O9, segment by segment from the front. -/
theorem extendedLookupScansIntervals : Obligations.ExtendedLookupScansIntervals := by
  intro table extEnd a bnd
  exact lookupExt_eq_some_iff

/-! ### Permissions -/

theorem noPermission_read_iff {unlocked factoryUnlocked : Bool} {perm : Perm} :
    noPermission unlocked factoryUnlocked perm .read = true ↔ perm = .writeOnly := by
  cases perm <;> simp [noPermission]

theorem noPermission_write_iff {s : State} {perm : Perm} :
    noPermission s.unlocked s.factoryUnlocked perm .write = true ↔ ¬s.writable perm := by
  cases perm <;> simp [noPermission, State.writable, imp_iff_not_or]

/-- Settles O10, class by class in each direction. -/
theorem permissionRule : Obligations.PermissionRule := fun _ _ =>
  ⟨noPermission_read_iff, noPermission_write_iff⟩

end Sys2Proof.Machine
end

section
/-! PROOF. Rounding to an integer (45_encoders.md R119): the result is nearest, and a tie goes as
the switch says. -/

namespace Sys2Proof.Machine

/-- `n` is an integer nearest to `m / 2^k`, chosen as `tie` says between two (R119). -/
def IsNearest (tie : RoundTie) (m k n : Nat) : Prop :=
  2 * m ≤ 2 * (n * 2 ^ k) + 2 ^ k ∧ 2 * (n * 2 ^ k) ≤ 2 * m + 2 ^ k ∧
    (2 * m = 2 * (n * 2 ^ k) + 2 ^ k ∨ 2 * (n * 2 ^ k) = 2 * m + 2 ^ k →
      match tie with
      | .away => m < n * 2 ^ k
      | .even => n % 2 = 0)

/-- An exact quotient is nearest, and no tie. -/
theorem isNearest_exact (tie : RoundTie) (n k : Nat) : IsNearest tie (n * 2 ^ k) k n := by
  have hpos := Nat.two_pow_pos k
  exact ⟨by omega, by omega, fun htie => by omega⟩

/-- `m` lies between the quotient `q` and `q + 1`, and the remainder decides. -/
theorem roundShift_isNearest (tie : RoundTie) (m k : Nat) :
    IsNearest tie m k (roundShift tie m k) := by
  have hpos := Nat.two_pow_pos k
  have hm := Nat.div_add_mod' m (2 ^ k)
  have hsucc := Nat.add_one_mul (m / 2 ^ k) (2 ^ k)
  simp only [IsNearest, roundShift]
  by_cases hdown : 2 * (m % 2 ^ k) < 2 ^ k
  · rw [if_pos hdown]
    exact ⟨by omega, by omega, fun htie => by omega⟩
  rw [if_neg hdown]
  by_cases hup : 2 ^ k < 2 * (m % 2 ^ k)
  · rw [if_pos hup]
    exact ⟨by omega, by omega, fun htie => by omega⟩
  rw [if_neg hup]
  cases tie with
  | away => exact ⟨by dsimp only; omega, by dsimp only; omega, fun _ => by dsimp only; omega⟩
  | even =>
    dsimp only
    by_cases heven : m / 2 ^ k % 2 = 0
    · rw [if_pos heven]
      exact ⟨by omega, by omega, fun _ => heven⟩
    · rw [if_neg heven]
      exact ⟨by omega, by omega, fun _ => by omega⟩

theorem roundScaled_of_nonneg (tie : RoundTie) (m : Nat) {e : Int} (h : 0 ≤ e) :
    roundScaled tie m e = m * 2 ^ e.toNat := by
  rw [roundScaled, if_pos h]

theorem roundScaled_isNearest (tie : RoundTie) (m k : Nat) :
    IsNearest tie m k (roundScaled tie m (-(k : Int))) := by
  rw [roundScaled]
  by_cases hk : 0 ≤ -(k : Int)
  · obtain rfl : k = 0 := by omega
    simpa using isNearest_exact tie m 0
  rw [if_neg hk]
  by_cases hm : m = 0
  · subst hm
    simpa using isNearest_exact tie 0 k
  · rw [if_neg hm, Int.neg_neg, Int.toNat_natCast]
    exact roundShift_isNearest tie m k

/-- Rounding keeps the sign (R119). -/
theorem roundFinite_eq (tie : RoundTie) (v : Finite) :
    roundFinite tie v = (if v.neg then -1 else 1) * (roundScaled tie v.m v.e : Int) := by
  rw [roundFinite]
  split <;> simp

/-- A common sign does not change a distance. -/
theorem natAbs_sign_mul_sub (neg : Bool) (a b p : Int) :
    ((if neg then -1 else 1) * a * p - (if neg then -1 else 1) * b).natAbs =
      (a * p - b).natAbs := by
  cases neg <;> simp only [Bool.false_eq_true, if_true, if_false, one_mul, neg_mul]
  omega

theorem natAbs_sign_mul (neg : Bool) (n : Nat) :
    ((if neg then -1 else 1) * (n : Int)).natAbs = n := by
  cases neg <;> simp

theorem sign_mul_mod_two (neg : Bool) {n : Nat} (h : n % 2 = 0) :
    ((if neg then -1 else 1) * (n : Int)) % 2 = 0 := by
  cases neg <;> simp <;> omega

/-- Settles O11: what `IsNearest` says of the magnitude, with the sign put back. -/
theorem roundGoesToNearest : Obligations.RoundGoesToNearest := by
  intro tie x
  refine ⟨fun h => by rw [f64Round, h]; rfl, fun v hv => ⟨roundFinite tie v, ?_, ?_, ?_⟩⟩
  · rw [f64Round, hv]
    rfl
  · intro he
    rw [roundFinite_eq, roundScaled_of_nonneg tie v.m he]
    push_cast
    rfl
  · intro k he
    obtain ⟨hle, hge, htie⟩ := he ▸ roundScaled_isNearest tie v.m k
    rw [roundFinite_eq, natAbs_sign_mul_sub, natAbs_sign_mul]
    generalize roundScaled tie v.m v.e = n at hle hge htie ⊢
    have hcast : (n : Int) * 2 ^ k = (n * 2 ^ k : Nat) := by push_cast; rfl
    rw [hcast]
    refine ⟨by omega, fun h => ?_⟩
    have := htie (by omega)
    cases tie with
    | away => simpa only [hcast] using Int.ofNat_lt.2 this
    | even => exact sign_mul_mod_two v.neg this

end Sys2Proof.Machine
end

section
/-! PROOF. The float formats (45_encoders.md R122, R125): an f32 that is no NaN is widened exactly,
and narrowed back to the same pattern. -/

namespace Sys2Proof.Machine

/-! ### The fields of a pattern -/

theorem f32Exp_lt (u : U32) : f32Exp u < 256 := (u.extractLsb' 23 8).isLt

theorem f32Frac_lt (u : U32) : f32Frac u < 2 ^ 23 := (u.extractLsb' 0 23).isLt

/-- An f32 pattern is its sign, exponent and fraction. -/
theorem f32_toNat (u : U32) :
    u.toNat = (if f32Neg u then 2 ^ 31 else 0) + (f32Exp u * 2 ^ 23 + f32Frac u) := by
  have hlt := u.isLt
  simp only [f32Neg, f32Exp, f32Frac, BitVec.getLsbD, Nat.testBit_eq_decide_div_mod_eq,
    BitVec.extractLsb'_toNat, Nat.shiftRight_eq_div_pow, decide_eq_true_eq]
  split <;> omega

/-- The f64 pattern of a sign, an exponent field and a fraction field. -/
def f64OfFields (neg : Bool) (exp frac : Nat) : U64 :=
  BitVec.ofNat 64 ((if neg then 2 ^ 63 else 0) + (exp * 2 ^ 52 + frac))

section Fields

variable {neg : Bool} {exp frac : Nat} (hexp : exp < 2 ^ 11) (hfrac : frac < 2 ^ 52)
include hexp hfrac

theorem f64OfFields_toNat :
    (f64OfFields neg exp frac).toNat = (if neg then 2 ^ 63 else 0) + (exp * 2 ^ 52 + frac) := by
  rw [f64OfFields, BitVec.toNat_ofNat]
  apply Nat.mod_eq_of_lt
  split <;> omega

theorem f64Neg_ofFields : f64Neg (f64OfFields neg exp frac) = neg := by
  rw [f64Neg, BitVec.getLsbD, Nat.testBit_eq_decide_div_mod_eq, f64OfFields_toNat hexp hfrac]
  cases neg with
  | true => exact decide_eq_true (by rw [if_pos rfl]; omega)
  | false => exact decide_eq_false (by rw [if_neg Bool.false_ne_true]; omega)

theorem f64Exp_ofFields : f64Exp (f64OfFields neg exp frac) = exp := by
  rw [f64Exp, BitVec.extractLsb'_toNat, f64OfFields_toNat hexp hfrac, Nat.shiftRight_eq_div_pow]
  split <;> omega

theorem f64Frac_ofFields : f64Frac (f64OfFields neg exp frac) = frac := by
  rw [f64Frac, BitVec.extractLsb'_toNat, f64OfFields_toNat hexp hfrac, Nat.shiftRight_eq_div_pow]
  split <;> omega

end Fields

/-! ### Widening a finite value -/

/-- `m * 2^(52 - log2 m)` is `m` moved up to 53 significant bits. -/
theorem normalized_range {m : Nat} (h0 : m ≠ 0) (hm : Nat.log2 m ≤ 52) :
    2 ^ 52 ≤ m * 2 ^ (52 - Nat.log2 m) ∧ m * 2 ^ (52 - Nat.log2 m) < 2 ^ 53 := by
  have hlow := Nat.log2_self_le h0
  have hhigh := Nat.lt_log2_self (n := m)
  constructor
  · calc 2 ^ 52 = 2 ^ Nat.log2 m * 2 ^ (52 - Nat.log2 m) := by rw [← pow_add]; congr 1; omega
      _ ≤ m * 2 ^ (52 - Nat.log2 m) := Nat.mul_le_mul_right _ hlow
  · calc m * 2 ^ (52 - Nat.log2 m) < 2 ^ (Nat.log2 m + 1) * 2 ^ (52 - Nat.log2 m) :=
          Nat.mul_lt_mul_of_pos_right hhigh (Nat.two_pow_pos _)
      _ = 2 ^ 53 := by rw [← pow_add]; congr 1; omega

/-- A nonzero value of at most 53 bits in the normal range is held exactly (R125). -/
theorem f64Finite_f64OfFinite {v : Finite} (h0 : v.m ≠ 0) (hm : Nat.log2 v.m ≤ 52)
    (hlow : -1022 ≤ (Nat.log2 v.m : Int) + v.e) (hhigh : (Nat.log2 v.m : Int) + v.e ≤ 1023) :
    f64Finite (f64OfFinite v) =
      some ⟨v.neg, v.m * 2 ^ (52 - Nat.log2 v.m), (Nat.log2 v.m : Int) + v.e - 52⟩ := by
  obtain ⟨hge, hlt⟩ := normalized_range h0 hm
  obtain ⟨frac, hfrac⟩ := Nat.exists_eq_add_of_le hge
  obtain ⟨exp, hexp⟩ : ∃ exp : Nat, (exp : Int) = (Nat.log2 v.m : Int) + v.e + 1022 :=
    ⟨_, Int.toNat_of_nonneg (by omega)⟩
  have hx : f64OfFinite v = f64OfFields v.neg (exp + 1) frac := by
    rw [f64OfFinite, f64OfFields, if_neg h0, hfrac, ← hexp, Int.toNat_natCast, Nat.add_one_mul,
      Nat.add_assoc (exp * _)]
  have he : exp + 1 < 2 ^ 11 := by omega
  have hf : frac < 2 ^ 52 := by omega
  rw [f64Finite, hx, f64Exp_ofFields he hf, f64Frac_ofFields he hf, f64Neg_ofFields he hf,
    if_neg (by omega), if_neg (by omega), ← hfrac]
  simp only [Option.some.injEq, Finite.mk.injEq, true_and]
  omega

/-- A zero keeps its sign. -/
theorem f64Finite_f64OfFinite_zero (neg : Bool) (e : Int) :
    f64Finite (f64OfFinite ⟨neg, 0, e⟩) = some ⟨neg, 0, -1074⟩ := by
  have hx : f64OfFinite ⟨neg, 0, e⟩ = f64OfFields neg 0 0 := by
    rw [f64OfFinite, f64OfFields, if_pos rfl, Nat.zero_mul]
  have he : 0 < 2 ^ 11 := by omega
  have hf : 0 < 2 ^ 52 := by omega
  rw [f64Finite, hx, f64Exp_ofFields he hf, f64Frac_ofFields he hf, f64Neg_ofFields he hf]
  rfl

/-! ### Narrowing back -/

/-- The integer nearest to an integer is itself. -/
theorem IsNearest.eq_of_exact {tie : RoundTie} {n k r : Nat} (h : IsNearest tie (n * 2 ^ k) k r) :
    r = n := by
  obtain ⟨hle, hge, -⟩ := h
  have hpos := Nat.two_pow_pos k
  have hsucc := fun a : Nat => Nat.add_one_mul a (2 ^ k)
  rcases Nat.lt_trichotomy r n with hlt | heq | hlt
  · have := Nat.mul_le_mul_right (2 ^ k) (show r + 1 ≤ n from hlt)
    rw [hsucc] at this
    omega
  · exact heq
  · have := Nat.mul_le_mul_right (2 ^ k) (show n + 1 ≤ r from hlt)
    rw [hsucc] at this
    omega

/-- A magnitude of `m * 2^e` whose unit `2^e` is the one f32 has at that size is not rounded
(R122). -/
theorem f32Magnitude_exact {m : Nat} {e : Int} (h0 : m ≠ 0) (hm : Nat.log2 m ≤ 23)
    (hunit : max ((Nat.log2 m : Int) - 23 + e) (-149) = e)
    (hfin : (e + 149).toNat * 2 ^ 23 + m ≤ 0x7F800000) :
    f32Magnitude (m * 2 ^ (52 - Nat.log2 m)) ((Nat.log2 m : Int) + e - 52) =
      (e + 149).toNat * 2 ^ 23 + m := by
  obtain ⟨hge, hlt⟩ := normalized_range h0 (by omega)
  have hlog : Nat.log2 (m * 2 ^ (52 - Nat.log2 m)) = 52 :=
    (Nat.log2_eq_iff (by omega)).2 ⟨hge, hlt⟩
  have hq : max (((52 : Nat) : Int) + ((Nat.log2 m : Int) + e - 52) - 23) (-149) = e := by
    rw [← hunit]; congr 1; omega
  have hround : roundScaled .even (m * 2 ^ (52 - Nat.log2 m))
      ((Nat.log2 m : Int) + e - 52 - e) = m := by
    have hshift : (Nat.log2 m : Int) + e - 52 - e = -((52 - Nat.log2 m : Nat) : Int) := by omega
    exact (hshift ▸ roundScaled_isNearest _ _ _).eq_of_exact
  rw [f32Magnitude, if_neg (by omega)]
  simp only [hlog, hq, hround]
  omega

/-- The value of a finite f32: its unit is the one of its size, and unit and significand spell the
pattern's magnitude. -/
theorem f32Finite_fields {u : U32} (h : f32Exp u ≠ 255) :
    ∃ m e, f32Finite u = some ⟨f32Neg u, m, e⟩ ∧ -149 ≤ e ∧ e ≤ 104 ∧
      (e + 149).toNat * 2 ^ 23 + m = f32Exp u * 2 ^ 23 + f32Frac u ∧
      Nat.log2 m ≤ 23 ∧ max ((Nat.log2 m : Int) - 23 + e) (-149) = e := by
  have hexp := f32Exp_lt u
  have hfrac := f32Frac_lt u
  by_cases hz : f32Exp u = 0
  · have hlog : Nat.log2 (f32Frac u) < 23 := by
      by_cases h0 : f32Frac u = 0
      · rw [h0, Nat.log2_zero]
        omega
      · exact (Nat.log2_lt h0).2 hfrac
    exact ⟨f32Frac u, -149, by rw [f32Finite, if_neg h, if_pos hz], by omega, by omega, by omega,
      by omega, by omega⟩
  · have hlog : Nat.log2 (2 ^ 23 + f32Frac u) = 23 :=
      (Nat.log2_eq_iff (by omega)).2 ⟨by omega, by omega⟩
    refine ⟨2 ^ 23 + f32Frac u, (f32Exp u : Int) - 150, by rw [f32Finite, if_neg h, if_neg hz],
      by omega, by omega, by omega, by omega, by omega⟩

/-- A finite f32 is narrowed back from its f64 (R122, R125). -/
theorem narrowF64_f64OfFinite {u : U32} (h : f32Exp u ≠ 255) (n : Nat) :
    ∃ v, f32Finite u = some v ∧ narrowF64 (f64OfFinite v) n = (u, n) := by
  obtain ⟨m, e, hv, hlow, hhigh, hbits, hlog, hunit⟩ := f32Finite_fields h
  have hexp := f32Exp_lt u
  have hfrac := f32Frac_lt u
  have hu : BitVec.ofNat 32
      ((if f32Neg u then 2 ^ 31 else 0) + (f32Exp u * 2 ^ 23 + f32Frac u)) = u := by
    rw [← f32_toNat, BitVec.ofNat_toNat, BitVec.setWidth_eq]
  refine ⟨_, hv, ?_⟩
  by_cases h0 : m = 0
  · subst h0
    obtain ⟨hz, hf⟩ : f32Exp u = 0 ∧ f32Frac u = 0 := by
      rw [Nat.log2_zero] at hunit
      omega
    rw [narrowF64, f64Finite_f64OfFinite_zero]
    rw [hz, hf] at hu
    simpa only [Prod.mk.injEq, and_true, f32OfFinite, f32Magnitude, if_true, Nat.zero_mul] using hu
  · rw [narrowF64, f64Finite_f64OfFinite h0 (by simp only; omega) (by simp only; omega)
      (by simp only; omega)]
    simp only [f32OfFinite, f32Magnitude_exact h0 hlog hunit (by omega), hbits, hu]

theorem narrowF64_infinity (neg : Bool) (n : Nat) :
    narrowF64 (if neg then 0xFFF0000000000000 else 0x7FF0000000000000) n =
      (f32Infinity neg, n) := by
  cases neg <;> rfl

/-- An f32 with the exponent all ones that is no NaN is the infinity of its sign. -/
theorem eq_f32Infinity {u : U32} (h : f32Exp u = 255) (hnan : f32IsNan u = false) :
    u = f32Infinity (f32Neg u) := by
  have hfrac : f32Frac u = 0 := by simpa [f32IsNan, h] using hnan
  have hu := f32_toNat u
  rw [h, hfrac] at hu
  apply BitVec.eq_of_toNat_eq
  rw [hu]
  cases f32Neg u <;> rfl

/-- Settles O12: finite patterns by their fields, infinities by their signs. -/
theorem floatRoundTrip : Obligations.FloatRoundTrip := by
  intro tie u n hnan
  obtain ⟨x, hwiden, hnarrow⟩ : ∃ x, widenF32 u n = (x, n) ∧ narrowF64 x n = (u, n) := by
    by_cases h : f32Exp u = 255
    · refine ⟨_, ?_, (narrowF64_infinity (f32Neg u) n).trans (by rw [← eq_f32Infinity h hnan])⟩
      rw [widenF32, f32Finite, if_pos h]
      simp only [hnan, Bool.false_eq_true, if_false]
    · obtain ⟨v, hv, hnarrow⟩ := narrowF64_f64OfFinite h n
      exact ⟨_, by rw [widenF32, hv], hnarrow⟩
  refine ⟨.f64 x, ?_, ?_⟩
  · rw [wrF, hwiden]
  · rw [rdF, hnarrow]

end Sys2Proof.Machine
end

section
/-! PROOF. The requests the receiver makes (42_frame_receiver.md section 2, log 17): the class each
function code comes with, and the body that answers each pair (45_encoders.md R112). -/

namespace Sys2Proof.Machine

/-! ### The form of a request -/

/-- What the register bands give a request: a register class, sub-offsets for the float class only,
and the long-via-float one is no bad one (20_memory.md R38). -/
structure RegisterForm (d : PendingRequest) : Prop where
  cls : d.cls = .int ∨ d.cls = .long ∨ d.cls = .float
  float_of_badOffset : d.badOffset = true → d.cls = .float
  goodOffset_of_lvf : d.lvf = true → d.badOffset = false

/-- What a request of each function is like. -/
def FormOf (d : PendingRequest) : Fn → Prop
  | .rdCoils | .rdDiscretes => d.cls = .coil ∧ d.dir = .read ∧ d.badOffset = false
  | .rdHolding | .rdInput =>
    RegisterForm d ∧ d.dir = .read ∧ (d.cls ≠ .int → d.countEff = d.count.toNat / 2)
  | .wrCoil => d.cls = .coil ∧ d.dir = .write ∧ d.badOffset = false ∧ d.count = 1
  | .wrReg => RegisterForm d ∧ d.count = 1
  | .wrMulti => RegisterForm d ∧ d.dir = .write
  | .diagSample => d.cls = .diag ∧ d.badOffset = false
  | .forceAddr => d.cls = .force ∧ d.badOffset = false

/-- The request has the band of its first register. -/
theorem RegisterForm.of_classify {d : PendingRequest} (n : Nat) (hcls : d.cls = (classify n).cls)
    (hlvf : d.lvf = (classify n).lvf) (hbad : d.badOffset = (classify n).badOffset) :
    RegisterForm d := by
  refine ⟨hcls ▸ classify_cls n, ?_, ?_⟩ <;> rw [hbad]
  all_goals
    by_cases hint : (201 ≤ n ∧ n ≤ 300) ∨ (401 ≤ n ∧ n ≤ 500)
    · simp [hcls, hlvf, classify_int hint]
    by_cases hlong : 301 ≤ n ∧ n ≤ 400
    · simp [hcls, hlvf, classify_long hlong]
    have hfloat := classify_float (band := n / 2000) (t := n % 2000) (by omega) (by omega)
    rw [Nat.div_add_mod] at hfloat
    simp +contextual [hcls, hlvf, hfloat]

theorem RequestOk.form {c : Config} {d : PendingRequest} (h : RequestOk c d) :
    ∃ f, d.fc = fnCode f ∧ FormOf d f := by
  obtain ⟨i, -, rfl⟩ := h
  refine ⟨instrFn i, by cases i <;> rfl, ?_⟩
  have hcount : ∀ (cls : RegClass) (count : U16), cls ≠ .int →
      effectiveCount cls count = count.toNat / 2 := fun _ _ hc => if_neg hc
  cases i with
  | rdCoils | rdDiscretes => exact ⟨rfl, rfl, rfl⟩
  | rdHolding | rdInput => exact ⟨.of_classify _ rfl rfl rfl, rfl, hcount _ _⟩
  | wrCoil => exact ⟨rfl, rfl, rfl, rfl⟩
  | wrReg | wrMulti => exact ⟨.of_classify _ rfl rfl rfl, rfl⟩
  | diagSample | forceAddr => exact ⟨rfl, rfl⟩

/-- The form of a due request whose function code is known. -/
theorem Due.formOf {d : PendingRequest} {s : State} {f : Fn} (h : Due d s) (hf : d.fc = fnCode f) :
    FormOf d f := by
  obtain ⟨g, hg, hform⟩ := h.request.form
  have : some f = some g := by rw [← fnOfCode_fnCode, ← hf, hg, fnOfCode_fnCode]
  rwa [Option.some.inj this]

theorem Due.form {d : PendingRequest} {s : State} (h : Due d s) :
    ∃ f, d.fc = fnCode f ∧ FormOf d f :=
  h.request.form

/-! ### The body of a request -/

section Bodies

variable {d : PendingRequest} (s : State)

theorem bodyOf_coilRead (hf : d.fc = 0x01 ∨ d.fc = 0x02) (hc : d.cls = .coil) :
    bodyOf d s = coilReadBody d s := by
  rw [bodyOf]
  rcases hf with hf | hf <;> rw [hf]
  · show respondRdCoils d s = _
    rw [respondRdCoils, hc]
  · show respondRdDiscretes d s = _
    rw [respondRdDiscretes, hc]

/-- RD_HOLDING and RD_INPUT have the same bodies. -/
theorem bodyOf_registerRead (hf : d.fc = 0x03 ∨ d.fc = 0x04) :
    bodyOf d s = respondRdHolding d s := by
  rw [bodyOf]
  rcases hf with hf | hf <;> rw [hf] <;> rfl

theorem bodyOf_wrCoil (hf : d.fc = 0x05) : bodyOf d s = respondWrCoil d s := by
  rw [bodyOf, hf]
  rfl

theorem bodyOf_wrReg (hf : d.fc = 0x06) : bodyOf d s = respondWrReg d s := by
  rw [bodyOf, hf]
  rfl

theorem bodyOf_wrMulti (hf : d.fc = 0x10) : bodyOf d s = respondWrMulti d s := by
  rw [bodyOf, hf]
  rfl

theorem bodyOf_diagSample (hf : d.fc = 0x42) : bodyOf d s = respondDiagSample d s := by
  rw [bodyOf, hf]
  rfl

theorem bodyOf_forceAddr (hf : d.fc = 0x44) : bodyOf d s = respondForceAddr d s := by
  rw [bodyOf, hf]
  rfl

end Bodies

/-- A body that raises before it does anything. -/
theorem Due.excepted_at_once {d : PendingRequest} {s : State} {code : ExcCode} (h : Due d s)
    (hb : bodyOf d (s.setClassTimer d.cls .off) = .exc code (s.setClassTimer d.cls .off)) :
    ∃ t, s.fire d.cls = .next t ∧ Excepted d s code t :=
  h.excepted (n := s.freeCount) (xs := []) (.refl s) hb (by simp)

end Sys2Proof.Machine
end

section
/-! PROOF. The answers of register reads (45_encoders.md R117, R118, R120 to R122, R129, R133,
R135): the words of all values in order, or the exception of the first that cannot be read. -/

namespace Sys2Proof.Machine

/-! ### Coercions -/

theorem kindFits_eq_false_iff {d : PendingRequest} (hc : d.cls ≠ .coil) {k : Kind} :
    kindFits d k = false ↔ k = .coilBoolean := by
  simp [kindFits, hc]

/-- A 16-bit read takes every value but a coil (R120). -/
theorem rd16_eq_none_iff {tie : RoundTie} {v : Value} {n : Nat} :
    rd16 tie v n = none ↔ valueKind v = .coilBoolean := by
  cases v <;> simp [rd16, valueKind]

/-- A 32-bit read takes every value but a coil (R121). -/
theorem rd32_eq_none_iff {tie : RoundTie} {v : Value} {n : Nat} :
    rd32 tie v n = none ↔ valueKind v = .coilBoolean := by
  cases v <;> simp [rd32, valueKind]

/-- A float read takes every value but a coil (R122). -/
theorem rdF_eq_none_iff {v : Value} {n : Nat} : rdF v n = none ↔ valueKind v = .coilBoolean := by
  cases v <;> simp [rdF, valueKind]

theorem rounded16_fst {r : Option Int} {i : Int} (h : inS32 r = some i) (n : Nat) :
    (rounded16 r n).1 = BitVec.ofInt 16 i := by
  rw [rounded16, h]

theorem rounded32_fst {r : Option Int} {i : Int} (h : inS32 r = some i) (n : Nat) :
    (rounded32 r n).1 = BitVec.ofInt 32 i := by
  rw [rounded32, h]

/-- The low 16 bits of an s32 are those of the integer it stands for (R120). -/
theorem setWidth_eq_ofInt (x : U32) : x.setWidth 16 = BitVec.ofInt 16 x.toInt := by
  rw [← BitVec.signExtend_eq_setWidth_of_le x (by decide)]
  rfl

theorem rd16_reads {tie : RoundTie} {v : Value} {n : Nat} {r : U16 × Nat}
    (h : rd16 tie v n = some r) : Reads16 tie v r.1 := by
  cases v with
  | i32 x | l32 x =>
    cases h
    exact setWidth_eq_ofInt x
  | f64 x | ann x =>
    cases h
    exact fun i hi => rounded16_fst hi n
  | bool b => cases h

theorem rd32_reads {tie : RoundTie} {v : Value} {n : Nat} {r : U32 × Nat}
    (h : rd32 tie v n = some r) : Reads32 tie v r.1 := by
  cases v with
  | i32 x | l32 x =>
    cases h
    exact rfl
  | f64 x | ann x =>
    cases h
    exact fun i hi => rounded32_fst hi n
  | bool b => cases h

/-- The exponent and fraction fields of a pattern put together from its three fields. -/
theorem extract_fields {e f : Nat} (sign : BitVec 1) (exp : BitVec e) (frac : BitVec f) :
    (sign ++ exp ++ frac).extractLsb' f e = exp ∧ (sign ++ exp ++ frac).extractLsb' 0 f = frac := by
  refine ⟨?_, BitVec.extractLsb'_append_eq_right⟩
  rw [BitVec.extractLsb'_append_eq_of_le (Nat.le_refl f), Nat.sub_self,
    BitVec.extractLsb'_append_eq_right]

/-- A fraction made nonzero is not 0. -/
theorem toNat_nonzero_fraction {f : Nat} (hf : 0 < f) (frac : BitVec f) :
    (if frac = 0 then 1 else frac).toNat ≠ 0 := by
  have hone : 1 < 2 ^ f := Nat.one_lt_two_pow (by omega)
  split
  · simp [Nat.mod_eq_of_lt hone]
  · rwa [Ne, ← BitVec.toNat_zero, BitVec.toNat_inj]

/-- Any sign, the exponent all ones and a nonzero fraction are a NaN (R122). -/
theorem f32IsNan_f32NanOf (w : U64) : f32IsNan (f32NanOf w) = true := by
  obtain ⟨hexp, hfrac⟩ := extract_fields (w.extractLsb' 31 1) (0xFF : Byte)
    (if w.extractLsb' 0 23 = 0 then 1 else w.extractLsb' 0 23)
  have hne := toNat_nonzero_fraction (by omega) (w.extractLsb' 0 23)
  have he : f32Exp (f32NanOf w) = 255 := congrArg BitVec.toNat hexp
  have hf : f32Frac (f32NanOf w) ≠ 0 := fun h => hne ((congrArg BitVec.toNat hfrac).symm.trans h)
  simp [f32IsNan, he, hf]

/-- The same for f64 (R125). -/
theorem f64IsNan_f64NanOf (w : U64) : f64IsNan (f64NanOf w) = true := by
  obtain ⟨hexp, hfrac⟩ := extract_fields (w.extractLsb' 63 1) (0x7FF : BitVec 11)
    (if w.extractLsb' 0 52 = 0 then 1 else w.extractLsb' 0 52)
  have hne := toNat_nonzero_fraction (by omega) (w.extractLsb' 0 52)
  have he : f64Exp (f64NanOf w) = 2047 := congrArg BitVec.toNat hexp
  have hf : f64Frac (f64NanOf w) ≠ 0 := fun h => hne ((congrArg BitVec.toNat hfrac).symm.trans h)
  simp [f64IsNan, he, hf]

/-- Narrowing, with a NaN left open (R122). -/
theorem narrowF64_reads (x : U64) (n : Nat) : ReadsF (.f64 x) (narrowF64 x n).1 := by
  simp only [ReadsF, narrowF64]
  cases f64Finite x with
  | some v => rfl
  | none =>
    cases f64IsNan x with
    | true => exact f32IsNan_f32NanOf _
    | false => rfl

theorem rdF_reads {v : Value} {n : Nat} {r : U32 × Nat} (h : rdF v n = some r) : ReadsF v r.1 := by
  cases v with
  | i32 x | l32 x =>
    cases h
    exact rfl
  | f64 x | ann x =>
    cases h
    exact narrowF64_reads x n
  | bool b => cases h

/-! ### A register read as one loop -/

variable {ω : Type} {d : PendingRequest} {s : State}

/-- A value read as a word that is put out as bytes. -/
abbrev wordCoercion (rd : Value → Nat → Option (ω × Nat)) (enc : ω → List Byte) :
    Value → Nat → Option (List Byte × Nat) :=
  fun v n => (rd v n).map fun r => (enc r.1, r.2)

/-- How a body with this code, or none, ends. -/
def BodyResult.ofCode : Option ExcCode → State → BodyResult
  | none, s => .ok s
  | some code, s => .exc code s

/-- The body of a register read whose count and sub-offset are good: `rd` reads every value as a
word, `enc` puts it out as `k` bytes. -/
def readAll (d : PendingRequest) (rd : Value → Nat → Option (ω × Nat)) (enc : ω → List Byte)
    (k : Nat) (s : State) : BodyResult :=
  readLoop d (wordCoercion rd enc) (requestAddrs s.cfg d)
    (s.emitAll (s.responsePrefix d.mode ++
      [d.fc, BitVec.ofNat 8 (k * (requestAddrs s.cfg d).length)]))

/-- With parameters `c`, the request `d` is answered by `readAll`, and the answer fits its frame. -/
structure ReadsAll (c : Config) (d : PendingRequest) (rd : Value → Nat → Option (ω × Nat))
    (enc : ω → List Byte) (k : Nat) : Prop where
  body : ∀ s : State, s.cfg = c → bodyOf d s = readAll d rd enc k s
  fails : ∀ v n, rd v n = none ↔ kindFits d (valueKind v) = false
  width : ∀ w, (enc w).length = k
  fits : k * (requestAddrs c d).length ≤ 250

section

variable {rd : Value → Nat → Option (ω × Nat)} {enc : ω → List Byte} {k : Nat}

/-- The body of a due request: the bytes its read loop scans follow its head, and it ends with the
loop's code. -/
theorem ReadsAll.body_due (h : ReadsAll s.cfg d rd enc k) {bytes : List Byte} {n : Nat}
    {code : Option ExcCode}
    (hscan : readScan s d (wordCoercion rd enc) (requestAddrs s.cfg d) s.freeCount =
      (bytes, n, code)) :
    bodyOf d (s.setClassTimer d.cls .off) = BodyResult.ofCode code
      (((s.setClassTimer d.cls .off).setFree n).emitAll (s.responsePrefix d.mode ++
        (d.fc :: BitVec.ofNat 8 (k * (requestAddrs s.cfg d).length) :: bytes))) := by
  have hscan' := (readScan_congr (s := s) (t := s.setClassTimer d.cls .off) d rfl rfl rfl rfl
    (wordCoercion rd enc) (requestAddrs s.cfg d) s.freeCount).trans hscan
  rw [h.body (s.setClassTimer d.cls .off) rfl, readAll, readLoop_emitAll,
    State.setClassTimer_cfg, State.setClassTimer_freeCount, hscan']
  cases code <;> dsimp only <;> rw [List.append_assoc] <;> rfl

theorem ReadsAll.length_le (h : ReadsAll s.cfg d rd enc k) (b : Byte) {bytes : List Byte}
    (hl : bytes.length ≤ k * (requestAddrs s.cfg d).length) :
    (s.responsePrefix d.mode ++ (d.fc :: b :: bytes)).length ≤ maxBody := by
  have hp := s.responsePrefix_length d.mode
  have hfits := h.fits
  simp only [List.length_append, List.length_cons, maxBody]
  omega

/-- Every register can be read: the words are answered in order (R118). -/
theorem ReadsAll.answered (h : ReadsAll s.cfg d rd enc k) (hdue : Due d s)
    {Reads : Value → ω → Prop} (hreads : ∀ v n r, rd v n = some r → Reads v r.1)
    (hok : (requestAddrs s.cfg d).findSome? (s.readFailure d) = none) :
    ∃ t words, s.fire d.cls = .next t ∧
      List.Forall₂ (fun a w => Reads (s.valueAt d a) w) (requestAddrs s.cfg d) words ∧
      Answered d s (d.fc :: BitVec.ofNat 8 (k * (requestAddrs s.cfg d).length) ::
        words.flatMap enc) t := by
  have hrd : ∀ v n, kindFits d (valueKind v) = true → ∃ r, rd v n = some r ∧ Reads v r.1 := by
    intro v n hk
    cases hr : rd v n with
    | none => rw [(h.fails v n).1 hr] at hk; cases hk
    | some r => exact ⟨r, rfl, hreads v n r hr⟩
  obtain ⟨words, n, hwords, hscan⟩ := readScan_words s d (enc := enc) hrd (requestAddrs s.cfg d)
    s.freeCount (by simpa using hok)
  have hlen : (words.flatMap enc).length = k * (requestAddrs s.cfg d).length := by
    simp [List.length_flatMap, h.width, hwords.length_eq, Nat.mul_comm]
  obtain ⟨t, hfire, hans⟩ := hdue.answered (.refl s) (h.body_due hscan) (h.length_le _ hlen.le)
  exact ⟨t, words, hfire, hwords, hans⟩

/-- The first register that cannot be read decides the exception (R114, R118). -/
theorem ReadsAll.excepted (h : ReadsAll s.cfg d rd enc k) (hdue : Due d s) {code : ExcCode}
    (hfail : (requestAddrs s.cfg d).findSome? (s.readFailure d) = some code) :
    ∃ t, s.fire d.cls = .next t ∧ Excepted d s code t := by
  have hcode := readScan_code s d (coerce := wordCoercion rd enc)
    (fun v n => Option.map_eq_none_iff.trans (h.fails v n)) (requestAddrs s.cfg d) s.freeCount
  have hlen := readScan_length s d (coerce := wordCoercion rd enc) (w := k)
    (fun v n r hr => by
      obtain ⟨w, -, rfl⟩ := Option.map_eq_some_iff.1 hr
      exact h.width w.1) (requestAddrs s.cfg d) s.freeCount
  obtain ⟨bytes, n, c, hscan⟩ : ∃ bytes n c, readScan s d (wordCoercion rd enc)
    (requestAddrs s.cfg d) s.freeCount = (bytes, n, c) := ⟨_, _, _, rfl⟩
  rw [hscan] at hcode hlen
  obtain rfl : c = some code := hcode.trans hfail
  exact hdue.excepted (.refl s) (h.body_due hscan) (h.length_le _ hlen)

end

/-! ### The three register classes -/

theorem requestAddrs_int {c : Config} (hc : d.cls = .int) :
    requestAddrs c d = valueAddrs d.start 1 d.count.toNat := by
  simp only [requestAddrs, hc, valueAddrs, Nat.one_mul]

theorem requestAddrs_coil {c : Config} (hc : d.cls = .coil) :
    requestAddrs c d = valueAddrs d.start 1 d.count.toNat := by
  simp only [requestAddrs, hc, valueAddrs, Nat.one_mul]

theorem requestAddrs_32 {c : Config} (hc : d.cls = .long ∨ d.cls = .float) :
    requestAddrs c d = valueAddrs d.start (strideNat c.stride32) d.countEff := by
  rcases hc with hc | hc <;> simp only [requestAddrs, hc, valueAddrs]

@[simp] theorem valueAddrs_length (start stride n : Nat) :
    (valueAddrs start stride n).length = n := by
  simp [valueAddrs]

theorem readsAll_int (c : Config) (hf : d.fc = 0x03 ∨ d.fc = 0x04) (hc : d.cls = .int)
    (h1 : 1 ≤ d.count.toNat) (h2 : d.count.toNat ≤ 125) :
    ReadsAll c d (rd16 c.roundTie) bytes16 2 where
  body s hs := by
    rw [bodyOf_registerRead s hf, respondRdHolding, hc]
    simp only
    rw [intReadBody, if_pos ⟨h1, h2⟩, readAll, requestAddrs_int hc, valueAddrs_length, hs,
      State.emitPrefix, ← State.emitAll_append]
  fails v n := by rw [kindFits_eq_false_iff (by simp [hc]), rd16_eq_none_iff]
  width w := rfl
  fits := by
    rw [requestAddrs_int hc, valueAddrs_length]
    omega

/-- The loop that long-integer and float reads share (R133, R135). -/
theorem read32_eq (hc : d.cls = .long ∨ d.cls = .float)
    (coerce : Value → Nat → Option (U32 × Nat)) (s : State) :
    read32 d coerce s = readAll d coerce (orderedBytes d.order) 4 s := by
  rw [read32, readAll, requestAddrs_32 hc, valueAddrs_length, State.emitPrefix,
    ← State.emitAll_append]

/-- A 32-bit read of at most 125 registers is of at most 62 values (R117). -/
theorem readsAll_32 {c : Config} (hc : d.cls = .long ∨ d.cls = .float)
    (hcount : d.count.toNat ≤ 125) (heff : d.countEff = d.count.toNat / 2)
    {coerce : Value → Nat → Option (U32 × Nat)}
    (hfails : ∀ v n, coerce v n = none ↔ valueKind v = .coilBoolean)
    (hbody : ∀ s : State, s.cfg = c → bodyOf d s = read32 d coerce s) :
    ReadsAll c d coerce (orderedBytes d.order) 4 where
  body s hs := by rw [hbody s hs, read32_eq hc]
  fails v n := by
    rw [kindFits_eq_false_iff (by rcases hc with hc | hc <;> simp [hc]), hfails]
  width w := orderedBytes_length d.order w
  fits := by
    rw [requestAddrs_32 hc, valueAddrs_length]
    omega

theorem countOk_read32 (hc : d.cls = .long ∨ d.cls = .float) (hd : d.dir = .read) (h : countOk d) :
    1 ≤ d.count.toNat ∧ d.count.toNat ≤ 125 ∧ 1 ≤ d.countEff := by
  rcases hc with hc | hc <;> simpa only [countOk, hc, hd] using h

theorem Due.registerRead (h : Due d s) (hf : d.fc = 0x03 ∨ d.fc = 0x04) : FormOf d .rdHolding := by
  rcases hf with hf | hf
  · exact h.formOf hf
  · exact h.formOf (f := .rdInput) hf

theorem readsAll_long (c : Config) (hf : d.fc = 0x03 ∨ d.fc = 0x04) (hform : FormOf d .rdHolding)
    (hc : d.cls = .long) (hok : countOk d) :
    ReadsAll c d (rd32 c.roundTie) (orderedBytes d.order) 4 := by
  obtain ⟨-, hdir, heff⟩ := hform
  have hcount := countOk_read32 (.inl hc) hdir hok
  refine readsAll_32 (.inl hc) hcount.2.1 (heff (by simp [hc])) (fun v n => rd32_eq_none_iff) ?_
  rintro s rfl
  rw [bodyOf_registerRead s hf, respondRdHolding, hc]
  simp only
  rw [longReadBody, if_pos hcount]

theorem readsAll_float (c : Config) (hf : d.fc = 0x03 ∨ d.fc = 0x04) (hform : FormOf d .rdHolding)
    (hc : d.cls = .float) (hgood : d.badOffset = false) (hok : countOk d) :
    ReadsAll c d (if d.lvf then rd32 c.roundTie else rdF) (orderedBytes d.order) 4 := by
  obtain ⟨-, hdir, heff⟩ := hform
  have hcount := countOk_read32 (.inr hc) hdir hok
  refine readsAll_32 (.inr hc) hcount.2.1 (heff (by simp [hc])) (fun v n => ?_) ?_
  · split
    · exact rd32_eq_none_iff
    · exact rdF_eq_none_iff
  rintro s rfl
  rw [bodyOf_registerRead s hf, respondRdHolding, hc]
  simp only
  rw [floatReadBody, if_pos hcount, hgood]
  rfl

/-! ### The answers of register reads -/

/-- Settles O32: the read loop with the 16-bit coercion. -/
theorem intReadAnswer : Obligations.IntReadAnswer := by
  intro d s hdue hc hf h1 h2 hok
  have hread := readsAll_int s.cfg hf hc h1 h2
  have := hread.answered hdue (Reads := Reads16 s.cfg.roundTie) (fun v n r => rd16_reads) hok
  rwa [show (requestAddrs s.cfg d).length = d.count.toNat by
    rw [requestAddrs_int hc, valueAddrs_length]] at this

theorem ReadsAll.answered_32 {coerce : Value → Nat → Option (U32 × Nat)}
    (h : ReadsAll s.cfg d coerce (orderedBytes d.order) 4) (hc : d.cls = .long ∨ d.cls = .float)
    (hdue : Due d s) {Reads : Value → U32 → Prop}
    (hreads : ∀ v n r, coerce v n = some r → Reads v r.1)
    (hok : (requestAddrs s.cfg d).findSome? (s.readFailure d) = none) :
    ∃ t words, s.fire d.cls = .next t ∧
      List.Forall₂ (fun a u => Reads (s.valueAt d a) u) (requestAddrs s.cfg d) words ∧
      Answered d s (d.fc :: BitVec.ofNat 8 (4 * d.countEff) ::
        words.flatMap (orderedBytes d.order)) t := by
  have := h.answered hdue hreads hok
  rwa [show (requestAddrs s.cfg d).length = d.countEff by
    rw [requestAddrs_32 hc, valueAddrs_length]] at this

/-- Settles O33: the read loop with the 32-bit coercion, which the long-via-float offset shares. -/
theorem longReadAnswer : Obligations.LongReadAnswer := by
  intro d s hdue hc hf hcount hok
  have hform := hdue.registerRead hf
  rcases hc with hc | ⟨hc, hlvf⟩
  · exact (readsAll_long s.cfg hf hform hc hcount).answered_32 (.inl hc) hdue
      (fun v n r => rd32_reads) hok
  · have hread := readsAll_float s.cfg hf hform hc (hform.1.goodOffset_of_lvf hlvf) hcount
    rw [if_pos hlvf] at hread
    exact hread.answered_32 (.inr hc) hdue (fun v n r => rd32_reads) hok

/-- Settles O34: the read loop with the float coercion. -/
theorem floatReadAnswer : Obligations.FloatReadAnswer := by
  intro d s hdue hc hlvf hgood hf hcount hok
  have hread := readsAll_float s.cfg hf (hdue.registerRead hf) hc hgood hcount
  rw [hlvf, if_neg Bool.false_ne_true] at hread
  exact hread.answered_32 (.inr hc) hdue (fun v n r => rdF_reads) hok

/-- A register read with a good count and sub-offset, whatever its class. -/
theorem registerRead_excepted (hdue : Due d s) (hf : d.fc = 0x03 ∨ d.fc = 0x04) (hcount : countOk d)
    (hgood : d.badOffset = false) {code : ExcCode}
    (hfail : (requestAddrs s.cfg d).findSome? (s.readFailure d) = some code) :
    ∃ t, s.fire d.cls = .next t ∧ Excepted d s code t := by
  have hform := hdue.registerRead hf
  rcases hform.1.cls with hc | hc | hc
  · obtain ⟨h1, h2⟩ : 1 ≤ d.count.toNat ∧ d.count.toNat ≤ 125 := by
      simpa only [countOk, hc, hform.2.1] using hcount
    exact (readsAll_int s.cfg hf hc h1 h2).excepted hdue hfail
  · exact (readsAll_long s.cfg hf hform hc hcount).excepted hdue hfail
  · exact (readsAll_float s.cfg hf hform hc hgood hcount).excepted hdue hfail

end Sys2Proof.Machine
end

section
/-! PROOF. The answers of coil reads (45_encoders.md R126, R137, 20_memory.md R46), and the
exceptions of all reads (45_encoders.md R114, R118). -/

namespace Sys2Proof.Machine

variable {d : PendingRequest} {s : State}

/-! ### The coil loop -/

theorem rdBool_of_coil {v : Value} (h : valueKind v = .coilBoolean) :
    rdBool v = some (v == .bool true) := by
  cases v with
  | bool b => cases b <;> rfl
  | f64 x | i32 x | l32 x | ann x => cases h

theorem kindFits_coil (hc : d.cls = .coil) {k : Kind} : kindFits d k = true ↔ k = .coilBoolean := by
  simp [kindFits, hc]

/-- Every coil can be read: their values in order (R137). -/
theorem readBits_of_readable (hc : d.cls = .coil) {as : List Nat}
    (h : ∀ a ∈ as, s.readFailure d a = none) :
    readBits d s as = .ok (as.map fun a => s.valueAt d a == .bool true) := by
  induction as with
  | nil => rfl
  | cons a as ih =>
    obtain ⟨ha, has⟩ := List.forall_mem_cons.1 h
    obtain ⟨bnd, hcheck, hget, hfits⟩ := s.check_of_readable d ha
    rw [readBits, hcheck]
    simp only [hget, rdBool_of_coil ((kindFits_coil hc).1 hfits), ih has, List.map_cons]

/-- A coil that cannot be read fails the check, or its value is no coil's. -/
theorem State.check_of_readFailure {a : Nat} {code : ExcCode} (h : s.readFailure d a = some code) :
    s.check d a .read = .error code ∨ ∃ bnd, s.check d a .read = .ok bnd ∧ code = .slaveFail ∧
      kindFits d (valueKind (storeGet s.store bnd.ref)) = false := by
  rw [State.readFailure] at h
  rw [State.check_read]
  cases hb : lookupFor s.cfg d.cls d.ext a with
  | none =>
    simp only [hb, Option.some.injEq] at h
    exact .inl (by rw [h])
  | some bnd =>
    simp only [hb] at h ⊢
    split at h
    · rename_i hp
      rw [if_pos hp]
      exact .inl (by rw [Option.some.inj h])
    · rename_i hp
      rw [if_neg hp]
      split at h
      · cases h
      · rename_i hk
        exact .inr ⟨bnd, rfl, (Option.some.inj h).symm, by simpa using hk⟩

/-- The first coil that cannot be read decides (R118). -/
theorem readBits_of_failure (hc : d.cls = .coil) {as : List Nat} {code : ExcCode}
    (h : as.findSome? (s.readFailure d) = some code) : readBits d s as = .error code := by
  induction as with
  | nil => cases h
  | cons a as ih =>
    rw [List.findSome?_cons] at h
    rw [readBits]
    cases ha : s.readFailure d a with
    | some code' =>
      rw [ha] at h
      obtain rfl : code' = code := Option.some.inj h
      rcases State.check_of_readFailure ha with hcheck | ⟨bnd, hcheck, rfl, hfits⟩
      · rw [hcheck]
      · rw [hcheck]
        have hnone : rdBool (storeGet s.store bnd.ref) = none := by
          cases hv : storeGet s.store bnd.ref with
          | bool b => simp [kindFits, hc, hv, valueKind] at hfits
          | f64 x | i32 x | l32 x | ann x => rfl
        simp only [hnone]
    | none =>
      rw [ha] at h
      obtain ⟨bnd, hcheck, hget, hfits⟩ := s.check_of_readable d ha
      rw [hcheck]
      simp only [hget, rdBool_of_coil ((kindFits_coil hc).1 hfits), ih h]

/-! ### The data bytes -/

/-- Setting one bit of a byte. -/
theorem getLsbD_or_shiftLeft (y : Byte) (n : Nat) {b : Nat} (hb : b < 8) :
    (y ||| (1 <<< n)).getLsbD b = (y.getLsbD b || decide (b = n)) := by
  rw [BitVec.getLsbD_or, BitVec.natCast_eq_ofNat, BitVec.getLsbD_ofNat, Nat.one_shiftLeft,
    Nat.testBit_two_pow, decide_eq_true hb, Bool.true_and]
  simp only [eq_comm]

/-- Setting the bits below `n` one by one, as `packByte` does. -/
theorem getLsbD_foldl_setBit (f : Nat → Bool) (n : Nat) {b : Nat} (hb : b < 8) :
    ((List.range n).foldl (fun (y : Byte) i => if f i then y ||| (1 <<< i) else y) 0).getLsbD b =
      (decide (b < n) && f b) := by
  induction n with
  | zero => simp
  | succ n ih =>
    rw [List.range_succ, List.foldl_append, List.foldl_cons, List.foldl_nil]
    by_cases hn : f n
    · rw [if_pos hn, getLsbD_or_shiftLeft _ n hb, ih]
      by_cases hbn : b = n
      · simp [hbn, hn]
      · simp [hbn, show b < n + 1 ↔ b < n by omega]
    · rw [if_neg hn, ih]
      by_cases hbn : b = n
      · simp [hbn, hn]
      · simp [show b < n + 1 ↔ b < n by omega]

/-- Bit `b` of data byte `j` is coil `8j + b`, and 0 past the last coil (R46). -/
theorem getLsbD_packByte (bits : List Bool) (j : Nat) {b : Nat} (hb : b < 8) :
    (packByte bits j).getLsbD b = bits.getD (8 * j + b) false := by
  rw [packByte, getLsbD_foldl_setBit (fun i => bits.getD (8 * j + i) false) 8 hb, decide_eq_true hb,
    Bool.true_and]

/-! ### The answers -/

/-- The coils a request reads, in order. -/
def coilValues (s : State) (d : PendingRequest) : List Bool :=
  (requestAddrs s.cfg d).map fun a => s.valueAt d a == .bool true

/-- Coil `i` of a request, false past the last. -/
theorem coilValues_getD (hc : d.cls = .coil) (i : Nat) : (coilValues s d).getD i false =
    (decide (i < d.count.toNat) && s.valueAt d (d.start + i) == .bool true) := by
  rw [coilValues, requestAddrs_coil hc, valueAddrs, List.map_map]
  by_cases hi : i < d.count.toNat
  · simp [hi, List.getD_eq_getElem?_getD]
  · simp [hi, List.getD_eq_getElem?_getD]

theorem coilRead_answered (hdue : Due d s) (hc : d.cls = .coil) (hf : d.fc = 0x01 ∨ d.fc = 0x02)
    (hcount : 1 ≤ d.count.toNat ∧ d.count.toNat ≤ 2000)
    (hok : (requestAddrs s.cfg d).findSome? (s.readFailure d) = none) :
    ∃ t, s.fire d.cls = .next t ∧ Answered d s (d.fc :: BitVec.ofNat 8 ((d.count.toNat + 7) / 8) ::
      packCoils d.count.toNat (coilValues s d)) t := by
  have hbits : readBits d (s.setClassTimer d.cls .off) (requestAddrs s.cfg d) =
      .ok (coilValues s d) :=
    readBits_of_readable (s := s.setClassTimer d.cls .off) hc (List.findSome?_eq_none_iff.1 hok)
  refine hdue.answered (n := s.freeCount) (.refl s) ?_ ?_
  · rw [bodyOf_coilRead _ hf hc, coilReadBody, if_pos hcount, ← requestAddrs_coil (c := s.cfg) hc,
      hbits, State.emitAll_append]
    rfl
  · have hp := s.responsePrefix_length d.mode
    simp only [List.length_append, List.length_cons, packCoils_length, maxBody]
    omega

/-- Settles O31: the data bytes are the coils packed. -/
theorem coilReadAnswer : Obligations.CoilReadAnswer := by
  intro d s hdue hc hf h1 h2 hok
  obtain ⟨t, hfire, hans⟩ := coilRead_answered hdue hc hf ⟨h1, h2⟩ hok
  refine ⟨t, packCoils d.count.toNat (coilValues s d), hfire, packCoils_length _ _, ?_, ?_⟩
  · intro j hj b hb
    rw [packCoils_length] at hj
    rw [packCoils, List.getD_eq_getElem?_getD, List.getElem?_map, List.getElem?_range hj,
      Option.map_some, Option.getD_some, getLsbD_packByte _ _ hb, coilValues_getD hc]
  · rwa [packCoils_length]

theorem Due.coilRead (h : Due d s) (hf : d.fc = 0x01 ∨ d.fc = 0x02) : FormOf d .rdCoils := by
  rcases hf with hf | hf
  · exact h.formOf hf
  · exact h.formOf (f := .rdDiscretes) hf

theorem coilRead_excepted (hdue : Due d s) (hc : d.cls = .coil) (hf : d.fc = 0x01 ∨ d.fc = 0x02)
    (hcount : 1 ≤ d.count.toNat ∧ d.count.toNat ≤ 2000) {code : ExcCode}
    (hfail : (requestAddrs s.cfg d).findSome? (s.readFailure d) = some code) :
    ∃ t, s.fire d.cls = .next t ∧ Excepted d s code t := by
  refine hdue.excepted_at_once ?_
  have hbits := readBits_of_failure (s := s.setClassTimer d.cls .off) hc hfail
  rw [bodyOf_coilRead _ hf hc, coilReadBody, if_pos hcount, ← requestAddrs_coil (c := s.cfg) hc,
    hbits]

/-- Settles O35: the loop of the request's class stops at the first failure. -/
theorem readExceptions : Obligations.ReadExceptions := by
  intro d s code hdue hf hcount hgood hfail
  have hf' : (d.fc = 0x01 ∨ d.fc = 0x02) ∨ d.fc = 0x03 ∨ d.fc = 0x04 := by simpa [or_assoc] using hf
  rcases hf' with hf | hf
  · obtain ⟨hc, hdir, -⟩ := hdue.coilRead hf
    exact coilRead_excepted hdue hc hf (by simpa only [countOk, hc, hdir] using hcount) hfail
  · exact registerRead_excepted hdue hf hcount hgood hfail

end Sys2Proof.Machine
end

section
/-! PROOF. The answers of writes (45_encoders.md R114, R118, R123 to R125, R127, R128, R130 to R138,
R141): what one commit does, every value committed in order, or the exception of the first register
that cannot be written. -/

namespace Sys2Proof.Machine

/-! ### One commit -/

/-- Settles O41, from the laws of the store. -/
theorem commitWritesThrough : Obligations.CommitWritesThrough := by
  intro s bnd v hs hv
  refine ⟨?_, ?_, fun ref hne => ?_, storeWf_put hs _ _⟩
  · rw [State.commit]
    by_cases hp : bnd.perm = .volatile <;> simp [hp]
  · exact (storeGet_put hs _ _ _).trans (if_pos rfl)
  · exact (storeGet_put hs _ _ _).trans (if_neg hne)

/-! ### Coercions -/

/-- A 16-bit write takes every kind but a coil (R123). -/
theorem wr16_eq_none_iff {w : U16} {k : Kind} {n : Nat} : wr16 w k n = none ↔ k = .coilBoolean := by
  cases k <;> simp [wr16]

/-- A 32-bit write takes every kind but a coil (R124). -/
theorem wr32_eq_none_iff {u : U32} {k : Kind} {n : Nat} : wr32 u k n = none ↔ k = .coilBoolean := by
  cases k <;> simp [wr32]

/-- A float write takes every kind but a coil (R125). -/
theorem wrF_eq_none_iff {tie : RoundTie} {u : U32} {k : Kind} {n : Nat} :
    wrF tie u k n = none ↔ k = .coilBoolean := by
  cases k <;> simp [wrF]

/-- A coil write takes coils only (R127). -/
theorem wrBool_eq_none_iff {w : U16} {k : Kind} {n : Nat} :
    wrBool w k n = none ↔ k ≠ .coilBoolean := by
  cases k <;> simp [wrBool]

theorem wr16_writes {w : U16} {k : Kind} {n : Nat} {r : Value × Nat} (h : wr16 w k n = some r) :
    Writes16 w k r.1 := by
  cases k <;> cases h <;> exact rfl

theorem wr32_writes {u : U32} {k : Kind} {n : Nat} {r : Value × Nat} (h : wr32 u k n = some r) :
    Writes32 u k r.1 := by
  cases k <;> cases h <;> exact rfl

/-- Widening, with a NaN left open (R125). -/
theorem widenF32_widens (u : U32) (n : Nat) : Widens u (widenF32 u n).1 := by
  rw [Widens, widenF32]
  cases f32Finite u with
  | some v => rfl
  | none =>
    cases f32IsNan u with
    | true => exact f64IsNan_f64NanOf _
    | false => rfl

theorem wrF_writes {tie : RoundTie} {u : U32} {k : Kind} {n : Nat} {r : Value × Nat}
    (h : wrF tie u k n = some r) : WritesF tie u k r.1 := by
  cases k with
  | rawDouble | annotated =>
    cases h
    exact ⟨_, widenF32_widens u n, rfl⟩
  | rawInteger | rawLongInteger =>
    cases h
    exact ⟨_, fun i hi => rounded32_fst hi n, rfl⟩
  | coilBoolean => cases h

theorem wrBool_writes {w : U16} {k : Kind} {n : Nat} {r : Value × Nat} (h : wrBool w k n = some r) :
    r.1 = .bool (w == 0xFF00) := by
  cases k <;> cases h
  rfl

/-! ### A write as one phase -/

variable {ω : Type} {d : PendingRequest} {s : State}

theorem State.setClassTimer_commitAll (s : State) (k : RegClass) (x : Timer)
    (vs : List (Binding × Value)) :
    (s.setClassTimer k x).commitAll vs = (s.commitAll vs).setClassTimer k x := by
  induction vs generalizing s with
  | nil => rfl
  | cons v vs ih => exact ih (s.commit v.1 v.2)

/-- The state of a write phase that committed `vs`, the timer of the class off. -/
theorem State.commitAll_due (s : State) (k : RegClass) (n : Nat) (vs : List (Binding × Value)) :
    ((s.setClassTimer k .off).setFree n).commitAll vs =
      ((s.commitAll vs).setClassTimer k .off).setFree n := by
  rw [State.setFree_commitAll, State.setClassTimer_commitAll]

/-- The values of a write, each with its address: wire value `value j` of every address `j`. -/
def writeItems (c : Config) (d : PendingRequest) (value : Nat → ω) : List (Nat × ω) :=
  (requestAddrs c d).mapIdx fun j a => (a, value j)

/-- With parameters `c`, the request `d` is answered by one write phase over its addresses, which
takes wire value `value j` at address `j` by `coerce`, and by `echo`. -/
structure WritesAll (c : Config) (d : PendingRequest) (value : Nat → ω)
    (coerce : ω → Kind → Nat → Option (Value × Nat)) (echo : List Byte)
    (Writes : Nat → Kind → Value → Prop) : Prop where
  body : ∀ s : State, s.cfg = c → bodyOf d s =
    (writePhase d coerce (writeItems c d value) (s.emitPrefix d)).andThen
      fun t => .ok (t.emitAll echo)
  fails : ∀ w k n, coerce w k n = none ↔ kindFits d k = false
  writes : ∀ j k n r, coerce (value j) k n = some r → Writes j k r.1
  fits : echo.length ≤ 250

theorem writeItems_fst (c : Config) (d : PendingRequest) (value : Nat → ω) :
    (writeItems c d value).map (·.1) = requestAddrs c d := by
  simp [writeItems, List.mapIdx_eq_zipIdx_map, List.map_map, Function.comp_def]

theorem writeItems_snd {c : Config} {value : Nat → ω} {j : Nat} {w : ω}
    (h : ((writeItems c d value).map (·.2))[j]? = some w) : w = value j := by
  simp only [writeItems, List.getElem?_map, List.getElem?_mapIdx, Option.map_map,
    Option.map_eq_some_iff] at h
  obtain ⟨a, -, rfl⟩ := h
  rfl

theorem State.commitAll_responsePrefix (s : State) (vs : List (Binding × Value)) (mode : Mode) :
    (s.commitAll vs).responsePrefix mode = s.responsePrefix mode := by
  rw [State.commitAll_eq]
  rfl

/-- What stays written of the writes before a failing one (R141). -/
def keptWrites (policy : WritePolicy) (vs : List (Binding × Value)) : List (Binding × Value) :=
  match policy with
  | .partialWrites => vs
  | .atomicWrites => []

section

variable {value : Nat → ω} {coerce : ω → Kind → Nat → Option (Value × Nat)} {echo : List Byte}
  {Writes : Nat → Kind → Value → Prop}

/-- What the write phase of a request scans: the writes of its first addresses, and the code of the
first that fails. -/
theorem WritesAll.scan (h : WritesAll s.cfg d value coerce echo Writes) :
    ∃ vs n code, writeScan s d coerce (writeItems s.cfg d value) s.freeCount = (vs, n, code) ∧
      WritesAre s d Writes vs ∧ code = (requestAddrs s.cfg d).findSome? (s.writeFailure d) ∧
      (code = none → vs.length = (requestAddrs s.cfg d).length) ∧
      ∀ k e, (∀ a ∈ (requestAddrs s.cfg d).take k, s.writeFailure d a = none) →
        (requestAddrs s.cfg d)[k]?.bind (s.writeFailure d) = some e →
          vs.length = k ∧ code = some e := by
  obtain ⟨hcode, hlen, hfail, hvs⟩ := writeScan_spec s d (Writes := Writes) h.fails
    (writeItems s.cfg d value) s.freeCount 0 (by
      rintro j w hw k m r hr
      rw [writeItems_snd hw] at hr
      simpa using h.writes j k m r hr)
  simp only [writeItems_fst, Nat.zero_add] at hcode hfail hvs
  exact ⟨_, _, _, rfl, hvs, hcode, by simpa [writeItems] using hlen, hfail⟩

/-- The body of a due request, whose write phase scans the same with the timer of the class off. -/
theorem WritesAll.body_due (h : WritesAll s.cfg d value coerce echo Writes)
    {scan : List (Binding × Value) × Nat × Option ExcCode}
    (hscan : writeScan s d coerce (writeItems s.cfg d value) s.freeCount = scan) :
    bodyOf d (s.setClassTimer d.cls .off) =
      (writePhase d coerce (writeItems s.cfg d value)
        ((s.setClassTimer d.cls .off).emitAll (s.responsePrefix d.mode))).andThen
          (fun t => .ok (t.emitAll echo)) ∧
    writeScan (s.setClassTimer d.cls .off) d coerce (writeItems s.cfg d value)
      (s.setClassTimer d.cls .off).freeCount = scan :=
  ⟨h.body (s.setClassTimer d.cls .off) rfl,
    (writeScan_congr (s := s) (t := s.setClassTimer d.cls .off) d coerce rfl rfl rfl _ _).trans
      hscan⟩

/-- No register fails: every value is committed, and the echo is put out. -/
theorem WritesAll.body_ok (h : WritesAll s.cfg d value coerce echo Writes)
    {vs : List (Binding × Value)} {n : Nat}
    (hscan : writeScan s d coerce (writeItems s.cfg d value) s.freeCount = (vs, n, none)) :
    bodyOf d (s.setClassTimer d.cls .off) =
      .ok ((((s.commitAll vs).setClassTimer d.cls .off).setFree n).emitAll
        (s.responsePrefix d.mode ++ echo)) := by
  obtain ⟨hbody, hscan⟩ := h.body_due hscan
  rw [hbody, writePhase_emitAll, hscan, State.emitAll_append, ← State.commitAll_due]
  rfl

/-- A register fails: what the policy keeps is committed, and its code is raised. -/
theorem WritesAll.body_exc (h : WritesAll s.cfg d value coerce echo Writes)
    {vs : List (Binding × Value)} {n : Nat} {code : ExcCode}
    (hscan : writeScan s d coerce (writeItems s.cfg d value) s.freeCount = (vs, n, some code)) :
    ∃ m, bodyOf d (s.setClassTimer d.cls .off) =
      .exc code ((((s.commitAll (keptWrites s.cfg.writePolicy vs)).setClassTimer d.cls .off).setFree
        m).emitAll (s.responsePrefix d.mode)) := by
  obtain ⟨hbody, hscan⟩ := h.body_due hscan
  rw [hbody, writePhase_emitAll, hscan, State.setClassTimer_cfg]
  cases s.cfg.writePolicy with
  | partialWrites =>
    refine ⟨n, ?_⟩
    rw [keptWrites, ← State.commitAll_due]
    rfl
  | atomicWrites => exact ⟨s.freeCount, rfl⟩

/-- Every register can be written: the values are committed in order and echoed (R118, R141). -/
theorem WritesAll.answered (h : WritesAll s.cfg d value coerce echo Writes) (hdue : Due d s)
    (hok : (requestAddrs s.cfg d).findSome? (s.writeFailure d) = none) :
    ∃ t vs, s.fire d.cls = .next t ∧ vs.length = (requestAddrs s.cfg d).length ∧
      WritesAre s d Writes vs ∧ Answered d (s.commitAll vs) echo t := by
  obtain ⟨vs, n, code, hscan, hvs, hcode, hlen, -⟩ := h.scan
  obtain rfl : code = none := hcode.trans hok
  have hp := s.responsePrefix_length d.mode
  have hfits := h.fits
  obtain ⟨t, hfire, hans⟩ := hdue.answered (.commitAll s vs) (n := n) (body := echo)
    (by rw [s.commitAll_responsePrefix, h.body_ok hscan])
    (by
      rw [s.commitAll_responsePrefix, List.length_append, maxBody]
      omega)
  exact ⟨t, vs, hfire, hlen rfl, hvs, hans⟩

theorem WritesAre.nil : WritesAre s d Writes [] :=
  fun j hj => absurd hj (Nat.not_lt_zero j)

/-- The first register that cannot be written decides the exception, and the policy what stays
written (R114, R118, R141). -/
theorem WritesAll.excepted (h : WritesAll s.cfg d value coerce echo Writes) (hdue : Due d s)
    {code : ExcCode} {k : Nat}
    (hpre : ∀ a ∈ (requestAddrs s.cfg d).take k, s.writeFailure d a = none)
    (hfail : (requestAddrs s.cfg d)[k]?.bind (s.writeFailure d) = some code) :
    ∃ t vs, s.fire d.cls = .next t ∧ (s.cfg.writePolicy = .partialWrites → vs.length = k) ∧
      (s.cfg.writePolicy = .atomicWrites → vs = []) ∧ WritesAre s d Writes vs ∧
      Excepted d (s.commitAll vs) code t := by
  obtain ⟨vs, n, code', hscan, hvs, -, -, hfirst⟩ := h.scan
  obtain ⟨hlen, rfl⟩ := hfirst k code hpre hfail
  obtain ⟨m, hbody⟩ := h.body_exc hscan
  have hp := s.responsePrefix_length d.mode
  obtain ⟨t, hfire, hexc⟩ := hdue.excepted (.commitAll s _) hbody (by rw [maxBody]; omega)
  refine ⟨t, _, hfire, ?_, ?_, ?_, hexc⟩
  · intro hpol
    rw [hpol, keptWrites, hlen]
  · intro hpol
    rw [hpol, keptWrites]
  · cases s.cfg.writePolicy with
    | partialWrites => exact hvs
    | atomicWrites => exact .nil

end

/-! ### The four kinds of writes -/

theorem writeItems_of_addrs {c : Config} {n : Nat} {addr : Nat → Nat}
    (h : requestAddrs c d = (List.range n).map addr) (value : Nat → ω) :
    writeItems c d value = (List.range n).map fun i => (addr i, value i) := by
  rw [writeItems, h]
  exact List.ext_getElem (by simp) (by simp)

theorem requestAddrs_single {c : Config} (hc : d.cls = .coil ∨ d.cls = .int) (hn : d.count = 1) :
    requestAddrs c d = [d.start] := by
  rcases hc with hc | hc <;> simp only [requestAddrs, hc, hn] <;> rfl

/-- The values a register write may store as wire value `j` (R123 to R125). -/
def registerWrites (c : Config) (d : PendingRequest) (j : Nat) : Kind → Value → Prop :=
  if d.cls = .int then Writes16 (payload16 d j)
  else if d.cls = .long ∨ d.lvf = true then Writes32 (payload32 d j)
  else WritesF c.roundTie (payload32 d j)

theorem bytes16_length (v : U16) : (bytes16 v).length = 2 := rfl

theorem singleEcho_fits (fc : Byte) : (singleEcho d fc).length ≤ 250 := by
  simp [singleEcho, bytes16_length]

theorem multiEcho_length_le : (multiEcho d).length ≤ 250 := by
  simp [multiEcho, bytes16_length]

theorem writesAll_coil (c : Config) (hf : d.fc = 0x05) (hc : d.cls = .coil) (hn : d.count = 1) :
    WritesAll c d (fun _ => payload16 d 0) wrBool (singleEcho d 0x05)
      (fun _ _ v => v = .bool (payload16 d 0 == 0xFF00)) where
  body s hs := by
    rw [bodyOf_wrCoil s hf, respondWrCoil, hc, writeItems, requestAddrs_single (.inl hc) hn]
    rfl
  fails w k n := by
    rw [wrBool_eq_none_iff, ← Bool.not_eq_true, kindFits_coil hc]
  writes j k n r h := wrBool_writes h
  fits := singleEcho_fits 0x05

section Registers

variable (c : Config)

theorem writesAll_int {echo : List Byte} (hc : d.cls = .int)
    (hbody : ∀ s : State, s.cfg = c → bodyOf d s =
      (writePhase d wr16 (writeItems c d (payload16 d)) (s.emitPrefix d)).andThen
        fun t => .ok (t.emitAll echo)) (hfits : echo.length ≤ 250) :
    WritesAll c d (payload16 d) wr16 echo (registerWrites c d) where
  body := hbody
  fails w k n := by rw [kindFits_eq_false_iff (by simp [hc]), wr16_eq_none_iff]
  writes j k n r h := by
    rw [registerWrites, if_pos hc]
    exact wr16_writes h
  fits := hfits

theorem writesAll_intSingle (hf : d.fc = 0x06) (hc : d.cls = .int) (hn : d.count = 1) :
    WritesAll c d (payload16 d) wr16 (singleEcho d 0x06) (registerWrites c d) := by
  refine writesAll_int c hc (fun s _ => ?_) (singleEcho_fits 0x06)
  rw [bodyOf_wrReg s hf, respondWrReg, hc, writeItems, requestAddrs_single (.inr hc) hn]
  rfl

theorem writesAll_intMulti (hf : d.fc = 0x10) (hc : d.cls = .int) :
    WritesAll c d (payload16 d) wr16 (multiEcho d) (registerWrites c d) := by
  refine writesAll_int c hc (fun s _ => ?_) multiEcho_length_le
  rw [bodyOf_wrMulti s hf, respondWrMulti, hc, writeItems_of_addrs (n := d.count.toNat)
    (addr := fun j => d.start + j) (by simp only [requestAddrs, hc])]
  rfl

/-- The items of a 32-bit write (R134, R136). -/
theorem items32_eq (hc : d.cls = .long ∨ d.cls = .float) :
    items32 d (strideNat c.stride32) = writeItems c d (payload32 d) := by
  rw [writeItems_of_addrs (n := d.countEff) (addr := fun j => d.start + strideNat c.stride32 * j)
    (by rcases hc with hc | hc <;> simp only [requestAddrs, hc])]
  rfl

theorem writesAll_32 {coerce : U32 → Kind → Nat → Option (Value × Nat)}
    (hc : d.cls = .long ∨ d.cls = .float)
    (hfails : ∀ u k n, coerce u k n = none ↔ k = .coilBoolean)
    (hwrites : ∀ j k n r, coerce (payload32 d j) k n = some r → registerWrites c d j k r.1)
    (hbody : ∀ s : State, s.cfg = c → bodyOf d s = write32 d coerce s) :
    WritesAll c d (payload32 d) coerce (multiEcho d) (registerWrites c d) where
  body s hs := by rw [hbody s hs, write32, hs, items32_eq c hc]
  fails u k n := by
    rw [kindFits_eq_false_iff (by rcases hc with hc | hc <;> simp [hc]), hfails]
  writes := hwrites
  fits := multiEcho_length_le

theorem countOk_write32 (hc : d.cls = .long ∨ d.cls = .float) (hd : d.dir = .write)
    (h : countOk d) : 1 ≤ d.countEff := by
  rcases hc with hc | hc <;> simpa only [countOk, hc, hd] using h

theorem writesAll_long (hf : d.fc = 0x10) (hc : d.cls = .long) (hd : d.dir = .write)
    (hok : countOk d) :
    WritesAll c d (payload32 d) wr32 (multiEcho d) (registerWrites c d) := by
  refine writesAll_32 c (.inl hc) (fun u k n => wr32_eq_none_iff) (fun j k n r h => ?_)
    fun s _ => ?_
  · rw [registerWrites, if_neg (by simp [hc]), if_pos (.inl hc)]
    exact wr32_writes h
  · rw [bodyOf_wrMulti s hf, respondWrMulti, hc]
    simp only
    rw [longMultiBody, if_pos (countOk_write32 (.inl hc) hd hok)]

theorem writesAll_float (hf : d.fc = 0x10) (hc : d.cls = .float) (hd : d.dir = .write)
    (hgood : d.badOffset = false) (hok : countOk d) :
    WritesAll c d (payload32 d) (if d.lvf then wr32 else wrF c.roundTie) (multiEcho d)
      (registerWrites c d) := by
  refine writesAll_32 c (.inr hc) (fun u k n => ?_) (fun j k n r h => ?_) ?_
  · split
    · exact wr32_eq_none_iff
    · exact wrF_eq_none_iff
  · rw [registerWrites, if_neg (by simp [hc])]
    by_cases hlvf : d.lvf = true
    · rw [if_pos hlvf] at h
      rw [if_pos (.inr hlvf)]
      exact wr32_writes h
    · rw [if_neg hlvf] at h
      rw [if_neg (by simp [hc, hlvf])]
      exact wrF_writes h
  · rintro s rfl
    rw [bodyOf_wrMulti s hf, respondWrMulti, hc]
    simp only
    rw [floatMultiBody, if_pos (countOk_write32 (.inr hc) hd hok), hgood]
    rfl

/-- A multiple write with a good count and sub-offset, whatever its class. -/
theorem writesAll_multi (hf : d.fc = 0x10) (hform : FormOf d .wrMulti) (hok : countOk d)
    (hgood : d.badOffset = false) :
    ∃ (ω : Type) (value : Nat → ω) (coerce : ω → Kind → Nat → Option (Value × Nat)),
      WritesAll c d value coerce (multiEcho d) (registerWrites c d) := by
  obtain ⟨hreg, hd⟩ := hform
  rcases hreg.cls with hc | hc | hc
  · exact ⟨_, _, _, writesAll_intMulti c hf hc⟩
  · exact ⟨_, _, _, writesAll_long c hf hc hd hok⟩
  · exact ⟨_, _, _, writesAll_float c hf hc hd hgood hok⟩

end Registers

/-! ### The answers -/

/-- The write of a request with one address. -/
theorem WritesAre.single {Writes : Nat → Kind → Value → Prop} {vs : List (Binding × Value)}
    {a : Nat} (h : WritesAre s d Writes vs) (ha : requestAddrs s.cfg d = [a])
    (hlen : vs.length = (requestAddrs s.cfg d).length) :
    ∃ bnd v, vs = [(bnd, v)] ∧ lookupFor s.cfg d.cls d.ext a = some bnd ∧ Writes 0 bnd.kind v := by
  rw [ha, List.length_singleton] at hlen
  obtain ⟨⟨bnd, v⟩, rfl⟩ := List.length_eq_one_iff.1 hlen
  obtain ⟨a', bnd', ha', hbnd, rfl, hv⟩ := h 0 (by simp)
  rw [ha] at ha'
  obtain rfl : a = a' := by simpa using ha'
  exact ⟨_, v, rfl, hbnd, hv⟩

/-- Settles O37: one write of the request's coil. -/
theorem coilWriteAnswer : Obligations.CoilWriteAnswer := by
  intro d s hdue hf hok
  obtain ⟨hc, -, -, hn⟩ := hdue.formOf (f := .wrCoil) hf
  obtain ⟨t, vs, hfire, hlen, hvs, hans⟩ := (writesAll_coil s.cfg hf hc hn).answered hdue hok
  obtain ⟨bnd, v, rfl, hbnd, rfl⟩ := hvs.single (requestAddrs_single (.inl hc) hn) hlen
  rw [hc] at hbnd
  exact ⟨t, bnd, hfire, hbnd, hans⟩

/-- Settles O38: one write of the request's register. -/
theorem intWriteAnswer : Obligations.IntWriteAnswer := by
  intro d s hdue hf hc hok
  obtain ⟨-, hn⟩ := hdue.formOf (f := .wrReg) hf
  obtain ⟨t, vs, hfire, hlen, hvs, hans⟩ := (writesAll_intSingle s.cfg hf hc hn).answered hdue hok
  obtain ⟨bnd, v, rfl, hbnd, hv⟩ := hvs.single (requestAddrs_single (.inr hc) hn) hlen
  rw [registerWrites, if_pos hc] at hv
  rw [hc] at hbnd
  exact ⟨t, bnd, v, hfire, hbnd, hv, hans⟩

/-- Settles O39: the write phase of the request's class over all its addresses. -/
theorem multiWriteAnswer : Obligations.MultiWriteAnswer := by
  intro d s hdue hf hcount hgood hok
  obtain ⟨ω, value, coerce, hw⟩ :=
    writesAll_multi s.cfg hf (hdue.formOf (f := .wrMulti) hf) hcount hgood
  exact hw.answered hdue hok

/-- Settles O40: the write phase of the request's class stops at the first failure. -/
theorem writeExceptions : Obligations.WriteExceptions := by
  intro d s code k hdue hf hcount hgood hpre hfail
  rcases hf with hf | ⟨hf, hc⟩ | hf
  · obtain ⟨hc, -, -, hn⟩ := hdue.formOf (f := .wrCoil) hf
    simp only [if_pos hc]
    exact (writesAll_coil s.cfg hf hc hn).excepted hdue hpre hfail
  · obtain ⟨-, hn⟩ := hdue.formOf (f := .wrReg) hf
    simp only [if_neg (show d.cls ≠ .coil by simp [hc])]
    exact (writesAll_intSingle s.cfg hf hc hn).excepted hdue hpre hfail
  · have hform := hdue.formOf (f := .wrMulti) hf
    obtain ⟨ω, value, coerce, hw⟩ := writesAll_multi s.cfg hf hform hcount hgood
    have hc : d.cls ≠ .coil := by rcases hform.1.cls with hc | hc | hc <;> simp [hc]
    simp only [if_neg hc]
    exact hw.excepted hdue hpre hfail

end Sys2Proof.Machine
end

section
/-! PROOF. What CLASS_FIRE refuses before any lookup, the vendor functions, and the wrapper that
puts an answer off (45_encoders.md R111, R112, R116, R117, R132, R135, R136, R139, R140). -/

namespace Sys2Proof.Machine

variable {d : PendingRequest} {s : State}

/-! ### Refused outright -/

/-- A single write outside the integer class (R132). -/
theorem bodyOf_wrReg_refused (hf : d.fc = 0x06) (hform : FormOf d .wrReg) (hc : d.cls ≠ .int) :
    bodyOf d s = .exc .badFxn s := by
  rw [bodyOf_wrReg s hf, respondWrReg]
  rcases hform.1.cls with h | h | h
  · exact absurd h hc
  · rw [h]
  · rw [h]

theorem coilReadBody_refused (hform : FormOf d .rdCoils) (h : ¬ countOk d) :
    coilReadBody d s = .exc .badValue s := by
  obtain ⟨hc, hd, -⟩ := hform
  rw [coilReadBody, if_neg (by simpa only [countOk, hc, hd] using h)]

theorem respondRdHolding_refused (hform : FormOf d .rdHolding) (h : ¬ countOk d) :
    respondRdHolding d s = .exc .badValue s := by
  obtain ⟨hreg, hd, -⟩ := hform
  rw [respondRdHolding]
  rcases hreg.cls with hc | hc | hc <;> rw [hc] <;> simp only [countOk, hc, hd] at h ⊢
  · rw [intReadBody, if_neg h]
  · rw [longReadBody, if_neg h]
  · rw [floatReadBody, if_neg h]

theorem respondWrMulti_refused (hform : FormOf d .wrMulti) (h : ¬ countOk d) :
    respondWrMulti d s = .exc .badValue s := by
  obtain ⟨hreg, hd⟩ := hform
  rw [respondWrMulti]
  rcases hreg.cls with hc | hc | hc <;> rw [hc] <;> simp only [countOk, hc, hd] at h ⊢
  · exact absurd trivial h
  · rw [longMultiBody, if_neg h]
  · rw [floatMultiBody, if_neg h]

/-- A count out of its body's range (R117). -/
theorem bodyOf_badCount {f : Fn} (hf : d.fc = fnCode f) (hform : FormOf d f) (h6 : d.fc ≠ 0x06)
    (h : ¬ countOk d) (s : State) : bodyOf d s = .exc .badValue s := by
  cases f with
  | rdCoils => rw [bodyOf_coilRead s (.inl hf) hform.1, coilReadBody_refused hform h]
  | rdDiscretes => rw [bodyOf_coilRead s (.inr hf) hform.1, coilReadBody_refused hform h]
  | rdHolding => rw [bodyOf_registerRead s (.inl hf), respondRdHolding_refused hform h]
  | rdInput => rw [bodyOf_registerRead s (.inr hf), respondRdHolding_refused hform h]
  | wrMulti => rw [bodyOf_wrMulti s hf, respondWrMulti_refused hform h]
  | wrReg => exact absurd hf h6
  | wrCoil => exact absurd (by simp only [countOk, hform.1, hform.2.1]) h
  | diagSample | forceAddr => exact absurd (by simp only [countOk, hform.1]) h

/-- A sub-offset the float path does not have, with a good count (R135, R136). -/
theorem bodyOf_badOffset {f : Fn} (hf : d.fc = fnCode f) (hform : FormOf d f) (h6 : d.fc ≠ 0x06)
    (hok : countOk d) (hbad : d.badOffset = true) (s : State) :
    bodyOf d s = .exc .badAddress s := by
  have hread : FormOf d .rdHolding → respondRdHolding d s = .exc .badAddress s := by
    rintro ⟨hreg, hd, -⟩
    have hc := hreg.float_of_badOffset hbad
    rw [respondRdHolding, hc]
    simp only
    rw [floatReadBody, if_pos (countOk_read32 (.inr hc) hd hok), if_pos hbad]
  cases f with
  | rdHolding => rw [bodyOf_registerRead s (.inl hf), hread hform]
  | rdInput => rw [bodyOf_registerRead s (.inr hf), hread hform]
  | wrMulti =>
    obtain ⟨hreg, hd⟩ := hform
    have hc := hreg.float_of_badOffset hbad
    rw [bodyOf_wrMulti s hf, respondWrMulti, hc]
    simp only
    rw [floatMultiBody, if_pos (countOk_write32 (.inr hc) hd hok), if_pos hbad]
  | wrReg => exact absurd hf h6
  | rdCoils | rdDiscretes => exact absurd (hbad.symm.trans hform.2.2) (by decide)
  | wrCoil => exact absurd (hbad.symm.trans hform.2.2.1) (by decide)
  | diagSample | forceAddr => exact absurd (hbad.symm.trans hform.2) (by decide)

theorem respondForceAddr_refused (hc : d.cls = .force)
    (h : (d.payload.getD 0 0).toNat < 1 ∨ 247 < (d.payload.getD 0 0).toNat) :
    respondForceAddr d s = .exc .badValue s := by
  rw [respondForceAddr, hc]
  exact if_pos h

/-- Settles O36: each body ends before its first lookup, having done nothing. -/
theorem requestsRefusedOutright : Obligations.RequestsRefusedOutright := by
  intro d s hdue
  obtain ⟨f, hf, hform⟩ := hdue.form
  refine ⟨fun h6 hc => ?_, fun h6 hcount => ?_, fun h6 hcount hbad => ?_, fun h44 haddr => ?_⟩
  · exact hdue.excepted_at_once (bodyOf_wrReg_refused h6 (hdue.formOf (f := .wrReg) h6) hc)
  · exact hdue.excepted_at_once (bodyOf_badCount hf hform h6 hcount _)
  · exact hdue.excepted_at_once (bodyOf_badOffset hf hform h6 hcount hbad _)
  · have hc := (hdue.formOf (f := .forceAddr) h44).1
    exact hdue.excepted_at_once (by rw [bodyOf_forceAddr _ h44, respondForceAddr_refused hc haddr])

/-! ### The vendor functions -/

/-- Settles O42: the body emits the snapshot's 34 words. -/
theorem diagSampleAnswer : Obligations.DiagSampleAnswer := by
  intro d s hdue hf
  have hc := (hdue.formOf (f := .diagSample) hf).1
  have hbytes : ((List.range 34).map (Config.diagSnapshot s.store (payload16 d 0))).flatMap
      (fun w => [hi8 w, lo8 w]) = diagBytes s.store (payload16 d 0) := by
    rw [List.flatMap_map]
    rfl
  have hp := s.responsePrefix_length d.mode
  obtain ⟨t, hfire, hans⟩ := hdue.answered (n := s.freeCount) (.refl s)
    (body := 0x42 :: 68 :: diagBytes s.store (payload16 d 0))
    (by
      rw [bodyOf_diagSample _ hf, respondDiagSample, hc, State.emitAll_append]
      rfl)
    (by
      simp only [List.length_append, List.length_cons, diagBytes_length, maxBody]
      omega)
  refine ⟨t, _, hfire, by simp, fun j hj => ?_, hbytes ▸ hans⟩
  rw [List.getD_eq_getElem?_getD, List.getElem?_map, List.getElem?_range hj]
  rfl

/-- The body of FORCE_ADDR for an address in 1 to 247 (R140). -/
theorem respondForceAddr_forced (hc : d.cls = .force) (h1 : 1 ≤ (d.payload.getD 0 0).toNat)
    (h2 : (d.payload.getD 0 0).toNat ≤ 247) :
    respondForceAddr d s = .ok (({ s with slaveAddr := d.payload.getD 0 0 } : State).emitAll
      (State.responsePrefix { s with slaveAddr := d.payload.getD 0 0 } d.mode ++
        (0x44 :: bytes32 s.cfg.pipeSerial ++ [d.payload.getD 0 0]))) := by
  rw [respondForceAddr, hc]
  refine (if_neg (not_or.2 ⟨Nat.not_lt.2 h1, Nat.not_lt.2 h2⟩)).trans ?_
  rw [State.emitPrefix, ← State.emitAll_append]
  rfl

/-- Settles O43: the body builds its response under the address it has set. -/
theorem forceAddrAnswer : Obligations.ForceAddrAnswer := by
  intro d s hdue hf h1 h2
  have hc := (hdue.formOf (f := .forceAddr) hf).1
  have hp := State.responsePrefix_length { s with slaveAddr := d.payload.getD 0 0 } d.mode
  refine hdue.answered (u := { s with slaveAddr := d.payload.getD 0 0 }) (n := s.freeCount) rfl
    ?_ ?_
  · rw [bodyOf_forceAddr _ hf, respondForceAddr_forced hc h1 h2]
    rfl
  · simp only [List.length_append, List.length_cons, List.length_nil, bytes32, maxBody]
    omega

/-! ### The wrapper -/

theorem fire_eq {k : RegClass} (h : Inv s) (hk : perClassGet s.ctimer k = .expired) :
    s.fire k = classFire k s := by
  rw [State.fire, step_offer h.config, handle, enabled, hk]
  rfl

/-- Settles O44, branch by branch of the wrapper. -/
theorem busyRetry : Obligations.BusyRetry := by
  intro s k h hk
  rw [fire_eq h hk, classFire]
  refine ⟨fun hq => by rw [hq]; rfl, fun d hq hbusy => ?_⟩
  rw [hq]
  exact if_pos (by rwa [h.txIdle_eq, Bool.not_eq_false'])

theorem handleRxByte_txOverrun (x : Byte) (s : State) :
    (handleRxByte x s).txOverrun = s.txOverrun := by
  rw [handleRxByte]
  split <;> rfl

theorem handleTxReady_txOverrun (s : State) : (handleTxReady s).txOverrun = s.txOverrun := by
  rw [handleTxReady]
  repeat' split
  all_goals rfl

theorem hostWrite_txOverrun (s : State) (r : HostReg) (v : U16) :
    (s.hostWrite r v).txOverrun = s.txOverrun := by
  cases r with
  | persistReq =>
    rw [State.hostWrite]
    split <;> rfl
  | _ => rfl

/-- An answer is built in an empty TX, which holds the longest frame (R116). -/
theorem Due.answer_txOverrun {t : State} (h : Due d s)
    (ha : answer d (s.setClassTimer d.cls .off) = .next t) : t.txOverrun = s.txOverrun := by
  have hr := h.txReady
  obtain ⟨u, hu, -, -, -, -, hend⟩ := answer_cases (s := s.setClassTimer d.cls .off) h.request
    ⟨hr.cap, hr.cells, hr.tail_lt, hr.empty, hr.head⟩ ha
  have hover : u.txOverrun = s.txOverrun := by rw [hu]; rfl
  rcases hend with hend | ⟨hend, -⟩ <;> rw [hend] <;> exact hover

theorem Handled.txOverrun {e : Event} {t : State} (h : Inv s) (hH : Handled s e t) :
    t.txOverrun = s.txOverrun := by
  cases hH with
  | run hp i t he =>
    have hs : Inv { s with rxPosted := false, wdog := .off } := { h with wdog := trivial }
    exact (execFrame i _ t hs he).2.2.2.1
  | answer d hq hk hi t ha =>
    exact Due.answer_txOverrun ⟨h, hq, hk, by simpa [h.txIdle_eq] using hi⟩ ha
  | rxByte x => exact handleRxByte_txOverrun x s
  | txReady => exact handleTxReady_txOverrun s
  | hostWrite r v => exact hostWrite_txOverrun s r v
  | tick | wait | drop | wdogFire | classIdle | classBusy | hostStore => rfl

/-- Settles O55: no handler overwrites a byte of TX. -/
theorem responsesNeverOverrunTx : Obligations.ResponsesNeverOverrunTx := by
  intro s t h hs
  rcases step_cases hs with ⟨e, -, hH⟩ | ⟨-, rfl⟩
  · exact (hH.txOverrun (h.takeEvent e)).trans (s.takeEvent_txOverrun e)
  · rfl

end Sys2Proof.Machine
end

section
/-! PROOF. The handler of WDOG_FIRE (47_watchdog.md R146): the stale bytes leave the head of RX. -/

namespace Sys2Proof.Machine

/-- The fields of a ring with its head in bounds after any number of its bytes, none included, are
removed (R72). -/
theorem Ring.remove_eq_of_head_lt {cap : Nat} {r : Ring} {m : Nat} (sentinel : Byte)
    (hh : r.head < cap) (hm : m ≤ r.count) :
    r.remove cap sentinel m = ⟨r.buf, (r.head + m) % cap, r.tail, r.count - m⟩ := by
  rcases Nat.eq_zero_or_pos m with rfl | h0
  · rw [Ring.remove, Nat.add_zero, Nat.mod_eq_of_lt hh, Nat.sub_zero]
  · exact Ring.remove_eq h0 hm

theorem step_offer_wdogFire {s : State} (hc : configOk s.cfg = true) (hw : s.wdog = .expired) :
    step (s.offer .wdogFire) = .next (handleWdogFire s) := by
  rw [step_offer hc, handle, enabled, hw]
  rfl

/-- Settles O48: the recorded number, cut to the buffered bytes, is removed from the head. -/
theorem watchdogDiscardsRecordedCount : Obligations.WatchdogDiscardsRecordedCount := by
  intro s h hw
  have hm : min s.wdogN s.rx.count ≤ s.rx.count := Nat.min_le_right _ _
  refine ⟨_, step_offer_wdogFire h.config hw, Ring.bytes_remove _ h.rx.head_lt hm, ?_⟩
  rw [handleWdogFire, State.rxRemove, State.wdogCancel, Ring.remove_eq_of_head_lt _ h.rx.head_lt hm]

end Sys2Proof.Machine
end

section
/-! PROOF. The silence timers and the transmit path (48_silence_transmit.md R149, R152, R153): TICK
steps every timer, TX_READY hands over one byte, and no other handler touches TX during a
transmission. -/

namespace Sys2Proof.Machine

/-! ### The timers -/

theorem step_offer_tick {s : State} (hc : configOk s.cfg = true) :
    step (s.offer .tick) = .next s.tickTimers := step_offer hc _

/-- R149, for one timer: `Running(1)` expires, a longer delay shortens by one, the rest stays. -/
theorem timerTick_cases (x : Timer) :
    (x = .running 1 → timerTick x = .expired) ∧
      (∀ n, 2 ≤ n → x = .running n → timerTick x = .running (n - 1)) ∧
      (x = .off → timerTick x = .off) ∧ (x = .expired → timerTick x = .expired) := by
  refine ⟨?_, fun n hn => ?_, ?_, ?_⟩ <;> rintro rfl
  · rfl
  · exact if_neg (by omega)
  · rfl
  · rfl

theorem enabled_wdogFire_iff {s : State} : enabled .wdogFire s = true ↔ s.wdog = .expired := by
  rw [enabled, beq_iff_eq]

theorem enabled_classFire_iff {s : State} {k : RegClass} :
    enabled (.classFire k) s = true ↔ perClassGet s.ctimer k = .expired := by
  rw [enabled, beq_iff_eq]

/-- Settles O46: the watchdog and each class timer step as one timer does. -/
theorem tickStepsEveryTimer : Obligations.TickStepsEveryTimer := by
  intro s hc
  refine ⟨s.tickTimers, step_offer_tick hc, rfl, ?_, enabled_wdogFire_iff,
    fun _ => enabled_classFire_iff⟩
  rintro x y (hxy | ⟨k, hxy⟩) <;> cases hxy
  · exact timerTick_cases s.wdog
  · rw [State.tickTimers_ctimer, perClassGet_map]
    exact timerTick_cases _

/-! ### The handler of TX_READY -/

variable {s t : State}

theorem step_offer_txReady (hc : configOk s.cfg = true) :
    step (s.offer .txReady) = .next (handleTxReady s) := step_offer hc _

theorem State.length_txBytes (s : State) : s.txBytes.length = s.tx.count := Ring.length_bytes

/-- The transmit-empty interrupt is masked (R152). -/
theorem handleTxReady_masked (h : s.txie = false) : handleTxReady s = s := by
  rw [handleTxReady, if_pos h]

/-- The frame has been handed over: the transmission ends (R152). -/
theorem handleTxReady_empty (h : s.txie = true) (hb : s.txBytes = []) :
    handleTxReady s = s.txEnd := by
  have h0 : s.tx.count = 0 := by rw [← s.length_txBytes, hb, List.length_nil]
  rw [handleTxReady, if_neg (by simp [h]), if_neg (by omega)]

/-- The oldest byte of TX is handed over (R152, 40_bytering.md R70). -/
theorem handleTxReady_byte {x : Byte} {rest : List Byte} (hh : s.tx.head < s.cfg.txCap)
    (h : s.txie = true) (hb : s.txBytes = x :: rest) :
    (handleTxReady s).txBytes = rest ∧ handleTxReady s = { s with
      tx := ⟨s.tx.buf, (s.tx.head + 1) % s.cfg.txCap, s.tx.tail, s.tx.count - 1⟩
      out := s.out ++ [.txByte x] } := by
  have h0 : 1 ≤ s.tx.count := by simp [← s.length_txBytes, hb]
  have hget := hb.symm.trans (Ring.bytes_get s.cfg.emptySentinel hh h0)
  rw [Ring.get_of_pos _ h0] at hget
  obtain ⟨rfl, rfl⟩ := List.cons.inj hget
  rw [handleTxReady, if_neg (by simp [h]), if_pos h0, Ring.get_of_pos _ h0]
  exact ⟨rfl, rfl⟩

/-- Settles O47: masked, TX empty, and TX not empty. -/
theorem transmitReadyDrainsOneByte : Obligations.TransmitReadyDrainsOneByte := by
  intro s h
  rw [step_offer_txReady h.config]
  refine ⟨fun hm => by rw [handleTxReady_masked hm], fun he hb => ?_, fun x rest he hb => ?_⟩
  · rw [handleTxReady_empty he hb, State.txEnd]
  · exact ⟨_, rfl, handleTxReady_byte h.tx.head_lt he hb⟩

/-! ### One response at a time -/

/-- TX and the outputs are in `t` as in `s`. -/
def TransmitKept (s t : State) : Prop := t.txBytes = s.txBytes ∧ t.out = s.out

/-- What a transmission allows: nothing leaves TX, or its oldest byte does and the transmission
goes on (R153). -/
def TransmitMoves (s t : State) : Prop :=
  TransmitKept s t ∨
    ∃ x, s.txBytes = x :: t.txBytes ∧ t.out = s.out ++ [.txByte x] ∧ t.txInProgress = true

theorem handleTxReady_transmitMoves (h : Inv s) (hp : s.txInProgress = true) :
    TransmitMoves s (handleTxReady s) := by
  have he : s.txie = true := h.txie.trans hp
  cases hb : s.txBytes with
  | nil =>
    rw [handleTxReady_empty he hb]
    exact .inl ⟨rfl, rfl⟩
  | cons x rest =>
    obtain ⟨hrest, hend⟩ := handleTxReady_byte h.tx.head_lt he hb
    exact .inr ⟨x, by rw [hrest, hb], by rw [hend], by rw [hend]; exact hp⟩

theorem handleRxByte_transmitKept (x : Byte) (s : State) : TransmitKept s (handleRxByte x s) := by
  rw [handleRxByte]
  split <;> exact ⟨rfl, rfl⟩

/-- The host has no access to TX (60_exceptions.md R167). -/
theorem hostWrite_transmitKept (s : State) (r : HostReg) (v : U16) :
    TransmitKept s (s.hostWrite r v) := by
  cases r with
  | persistReq =>
    rw [State.hostWrite]
    split <;> exact ⟨rfl, rfl⟩
  | _ => exact ⟨rfl, rfl⟩

/-- During a transmission RECV sends nothing: WR_MULTI's answer wants an idle transmit path (R95). -/
theorem exec_transmitKept {i : Instr} (h : Inv s) (hp : s.txInProgress = true)
    (he : exec i s = .next t) : TransmitKept s t := by
  cases exec_ends h he with
  | silent => exact ⟨rfl, rfl⟩
  | answered _ _ _ _ hidle => cases hp.symm.trans hidle

/-- Only TX_READY touches TX during a transmission: CLASS_FIRE answers when the path is idle
(45_encoders.md R111). -/
theorem Handled.transmitMoves {e : Event} (h : Inv s) (hp : s.txInProgress = true)
    (hH : Handled s e t) : TransmitMoves s t := by
  cases hH with
  | txReady => exact handleTxReady_transmitMoves h hp
  | run hposted i t he =>
    have hs : Inv { s with rxPosted := false, wdog := .off } := { h with wdog := trivial }
    exact .inl (exec_transmitKept hs hp he :)
  | answer d hq hk hi t ha =>
    rw [h.txIdle_eq, hp] at hi
    cases hi
  | rxByte x => exact .inl (handleRxByte_transmitKept x s)
  | hostWrite r v => exact .inl (hostWrite_transmitKept s r v)
  | tick | wait | drop | wdogFire | classIdle | classBusy | hostStore => exact .inl ⟨rfl, rfl⟩

theorem State.takeEvent_txBytes (s : State) (e : Event) : (s.takeEvent e).txBytes = s.txBytes := by
  rw [State.txBytes, State.takeEvent_cfg, State.takeEvent_tx, State.txBytes]

/-- Settles O56: a step is the next event's handler, and taking the event leaves TX and the outputs
alone. -/
theorem oneResponseAtATime : Obligations.OneResponseAtATime := by
  intro s t h hp hs
  rcases step_cases hs with ⟨e, -, hH⟩ | ⟨-, rfl⟩
  · have hm := hH.transmitMoves (h.takeEvent e) (by rwa [State.takeEvent_txInProgress])
    rwa [TransmitMoves, TransmitKept, State.takeEvent_txBytes, State.takeEvent_out] at hm
  · exact .inl ⟨rfl, rfl⟩

end Sys2Proof.Machine
end

section
/-! PROOF. The invariant of the block (70_reset_and_hazards.md R170 to R172): reset establishes it, and
the handler of every event keeps it. -/

namespace Sys2Proof.Machine

variable {s t : State}

/-! ### Reset -/

theorem configOk_slaveAddrInit {c : Config} (h : configOk c = true) :
    1 ≤ c.slaveAddrInit.toNat ∧ c.slaveAddrInit.toNat ≤ 247 := by
  simp only [configOk, Bool.and_eq_true, decide_eq_true_eq] at h
  exact ⟨h.1.2, h.2⟩

theorem RingOk.reset (c : Config) {cap : Nat} (h : 0 < cap) : RingOk c cap .reset :=
  ⟨h, h, Nat.zero_le _, fun _ => (Nat.zero_mod cap).symm, cellsWf_nil cap⟩

theorem Inv.resetOf {c : Config} {store : List (Nat × Value)} (hc : configOk c = true)
    (hs : storeWf store = true) : Inv (State.resetOf c store) where
  config := hc
  rx := .reset c (Nat.lt_of_lt_of_le (by decide) (configOk_rxCap hc))
  tx := .reset c (Nat.lt_of_lt_of_le (by decide) (configOk_txCap hc))
  txTail := (Nat.zero_mod _).symm
  queue := .reset c (configOk_qCap hc)
  wdog := trivial
  wdogN := Nat.zero_le _
  ctimer := fun k => by
    rw [State.resetOf, perClassGet_all]
    trivial
  txGate := fun _ => rfl
  txie := rfl
  line := ⟨LineMode.noConfusion, Bool.noConfusion⟩
  slave := configOk_slaveAddrInit hc
  store := hs

theorem configOk_cfgA : configOk cfgA = true := by decide +kernel

/-- Settles O52: any reset state within the bounds, so the one of CFG-A. -/
theorem invAtReset : Obligations.InvAtReset :=
  ⟨.resetOf configOk_cfgA storeWf_reset, fun _ _ => .resetOf⟩

/-- Settles O51: each element by its definition. -/
theorem resetValues : Obligations.ResetValues := by
  rintro c store s rfl
  have htimers : ∀ k, perClassGet (State.resetOf c store).ctimer k = .off := perClassGet_all Timer.off
  exact ⟨rfl, rfl, rfl, rfl, rfl, rfl, rfl, rfl, rfl, List.length_replicate,
    fun _ => List.eq_of_mem_replicate, rfl, rfl, rfl, rfl, rfl, htimers, rfl, rfl, rfl, rfl, rfl, rfl,
    rfl, rfl, rfl, rfl, rfl, fun hw => hw rfl, rfl, rfl, htimers, rfl⟩

/-! ### The operations keep the invariant -/

theorem configOk_tWdog {c : Config} (h : configOk c = true) : 1 ≤ c.tWdog := by
  simp only [configOk, Bool.and_eq_true, decide_eq_true_eq] at h
  exact h.1.1.1.2

theorem configOk_tRetry {c : Config} (h : configOk c = true) (k : RegClass) :
    1 ≤ perClassGet c.tRetry k := by
  simp only [configOk, Bool.and_eq_true, List.all_eq_true, decide_eq_true_eq] at h
  exact (h.1.1.2 k (mem_allClasses k)).2

theorem Inv.rxClear (h : Inv s) : Inv s.rxClear := { h with rx := h.rx.clear }

theorem Inv.rxRemove (h : Inv s) (m : Nat) : Inv (s.rxRemove m) := { h with rx := h.rx.remove _ m }

theorem Inv.setClassTimer (h : Inv s) (k : RegClass) {x : Timer} (hx : TimerOk x) :
    Inv (s.setClassTimer k x) :=
  { h with
    ctimer := fun j => by
      rw [State.setClassTimer, perClassGet_set]
      split
      · exact hx
      · exact h.ctimer j }

/-- RECV executes its instruction with the watchdog cancelled (42_frame_receiver.md R80). -/
theorem Inv.receiving (h : Inv s) : Inv s.receiving := { h with wdog := trivial }

/-- CLASS_FIRE answers the request at the head when it is due (45_encoders.md R111). -/
theorem Inv.due {d : PendingRequest} (h : Inv s) (hq : s.q.first = some d)
    (hk : perClassGet s.ctimer d.cls = .expired) (hi : s.txIdle = true) : Due d s :=
  ⟨h, hq, hk, by rwa [h.txIdle_eq, Bool.not_eq_true'] at hi⟩

theorem TxReady.setClassTimer (h : TxReady s) (k : RegClass) (x : Timer) :
    TxReady (s.setClassTimer k x) :=
  ⟨h.cap, h.cells, h.tail_lt, h.empty, h.head⟩

theorem Inv.storeWrite (h : Inv s) (ref : StorageRef) (v : Value) : Inv (s.storeWrite ref v) :=
  { h with store := storeWf_put h.store ref v }

/-- A transmission starts with a TX that is in order (48_silence_transmit.md R151). -/
theorem Inv.sending (h : Inv s) {tx : Ring} (hhead : tx.head < s.cfg.txCap)
    (hcount : tx.count ≤ s.cfg.txCap) (htail : tx.tail = (tx.head + tx.count) % s.cfg.txCap)
    (hcells : cellsWf s.cfg.txCap tx.buf = true) :
    Inv { s with tx := tx, txInProgress := true, txie := true, lineMode := .transmit } :=
  { h with
    tx := ⟨hhead, htail ▸ Nat.mod_lt _ (Nat.zero_lt_of_lt hhead), hcount, fun _ => htail, hcells⟩
    txTail := htail
    txGate := Bool.noConfusion
    txie := rfl
    line := ⟨fun _ => rfl, fun _ => rfl⟩ }

theorem Inv.sendException (h : Inv s) (fc : Byte) (code : ExcCode) :
    Inv (s.sendException fc code) := by
  have hcap : 5 ≤ s.cfg.txCap := Nat.le_trans (by decide) (configOk_txCap h.config)
  obtain ⟨-, hhead, hcount, htail, -⟩ := State.sendException_tx h.tx.cells hcap fc code
  rw [State.sendException_eq h.tx.cells hcap]
  refine h.sending ?_ ?_ ?_ (State.sendException_cells h.tx.cells hcap fc code)
  · omega
  · omega
  · rw [htail, hhead, hcount]

/-! ### The handlers keep the invariant -/

theorem handleRxByte_inv (h : Inv s) (x : Byte) : Inv (handleRxByte x s) := by
  rw [handleRxByte]
  split
  · exact h
  · exact { h with rx := h.rx.put x }

/-- The transmit gate: a transmission ends when TX is empty (48_silence_transmit.md R152, R153). -/
theorem handleTxReady_inv (h : Inv s) : Inv (handleTxReady s) := by
  rw [handleTxReady]
  split
  · exact h
  split
  next hpos =>
    exact { h with
      tx := h.tx.get _
      txTail := Ring.get_tail_eq _ h.txTail (Nat.zero_lt_of_lt h.tx.head_lt)
      txGate := fun hp => absurd (h.txGate hp) (Nat.ne_of_gt hpos) }
  next hempty =>
    exact { h with
      txGate := fun _ => Nat.eq_zero_of_not_pos hempty
      txie := rfl
      line := ⟨LineMode.noConfusion, Bool.noConfusion⟩ }

theorem hostWrite_inv (h : Inv s) (r : HostReg) (v : U16) : Inv (s.hostWrite r v) := by
  cases r with
  | persistReq =>
    rw [State.hostWrite]
    split
    · exact { h with }
    · exact h
  | _ => exact { h with }

/-- RECV's instruction drops its frame, queues its request, or answers a bad byte count
(42_frame_receiver.md R87 to R89, R95). -/
theorem exec_inv {i : Instr} (h : Inv s) (he : exec i s = .next t) : Inv t := by
  by_cases hr : s.q.count = s.cfg.qCap - 1
  · rw [exec_full hr] at he
    cases he
    exact h.rxClear
  by_cases hv : valueChecked s.cfg i
  · rw [exec_accepted hr hv] at he
    cases he
    have hq := h.queue.create (configOk_qCap h.config) ⟨i, hv, rfl⟩ (Queue.create_of_hasRoom hr _)
    have hk := (h.rxRemove (frameLength i)).setClassTimer (requestOf i).cls
      (x := .running (perClassGet s.cfg.tClass (requestOf i).cls)) (configOk_tClass h.config _)
    exact { hk with queue := hq }
  by_cases hf : instrFn i = .wrMulti
  · rw [exec_answered h hr hv hf] at he
    cases he
    split
    · exact h.rxRemove _
    · exact (h.rxRemove _).sendException _ _
  · rw [exec_dropped h hr hv hf] at he
    cases he
    exact h.rxClear

/-- The answer of a request: TX is empty again, or it holds the frame in transmission
(45_encoders.md R111). -/
theorem answer_inv {d : PendingRequest} (h : Inv s) (hd : RequestOk s.cfg d) (hT : TxReady s)
    (ha : answer d s = .next t) : Inv t := by
  obtain ⟨u, hu, -, hstore, hslave, hcells, hend⟩ := answer_cases hd hT ha
  have hinv : Inv { u with q := s.q.discardHead s.cfg.qCap } := by
    rw [hu]
    exact { h with
      queue := h.queue.discardHead
      store := hstore h.store
      slave := hslave h.slave }
  rw [hu] at hinv hend
  rcases hend with hend | ⟨hend, hhead, hcount, htail⟩ <;> rw [hend]
  · have htail : s.tx.tail = (s.tx.head + 0) % s.cfg.txCap := by rw [← hT.empty, h.txTail]
    exact { hinv with
      tx := ⟨h.tx.head_lt, h.tx.tail_lt, Nat.zero_le _, fun _ => htail, hcells⟩
      txTail := htail
      txGate := fun _ => rfl }
  · exact hinv.sending hhead hcount htail hcells

theorem Handled.inv {e : Event} (h : Inv s) (hH : Handled s e t) : Inv t := by
  cases hH with
  | rxByte x => exact handleRxByte_inv h x
  | txReady => exact handleTxReady_inv h
  | tick => exact h.tickTimers
  | wait hp => exact { h with wdog := configOk_tWdog h.config, wdogN := h.rx.count_le }
  | drop hp n m hnm => exact { h with rx := h.rx.clear, wdog := trivial }
  | run hp i t he => exact exec_inv h.receiving he
  | wdogFire hw => exact { h with rx := h.rx.remove _ _, wdog := trivial }
  | classIdle k hk hq => exact h.setClassTimer k trivial
  | classBusy k hk => exact h.setClassTimer k (configOk_tRetry h.config k)
  | answer d hq hk hi t ha =>
    have hdue := h.due hq hk hi
    have hoff : Inv (s.setClassTimer d.cls .off) := h.setClassTimer d.cls trivial
    exact answer_inv hoff hdue.request (hdue.txReady.setClassTimer _ _) ha
  | hostWrite r v => exact hostWrite_inv h r v
  | hostStore ref v hk => exact h.storeWrite ref v

/-- Settles O53: a step handles the next event or waits. -/
theorem stepKeepsInv : Obligations.StepKeepsInv := by
  intro s t h hs
  rcases step_cases hs with ⟨e, -, hH⟩ | ⟨-, rfl⟩
  · exact hH.inv (h.takeEvent e)
  · exact h

end Sys2Proof.Machine
end

section
/-! PROOF. The host interface (60_exceptions.md R163, R167, R168): what a host write and a host store
do, and what else moves the slave address and the store. -/

namespace Sys2Proof.Machine

variable {s t : State}

/-! ### Host events -/

theorem step_offer_hostWrite (hc : configOk s.cfg = true) (r : HostReg) (v : U16) :
    step (s.offer (.hostWrite r v)) = .next (s.hostWrite r v) := step_offer hc _

theorem hostWrite_eq (s : State) (r : HostReg) (v : U16) : s.hostWrite r v =
    if r = .persistReq ∧ v = 0 then { s with persistReq := false }
    else if r = .unlocked then { s with unlocked := v.getLsbD 0 }
    else if r = .factoryUnlocked then { s with factoryUnlocked := v.getLsbD 0 }
    else s := by
  cases r with
  | persistReq => by_cases hv : v = 0 <;> simp [State.hostWrite, hv]
  | _ => rfl

theorem setWidth_ofBool (b : Bool) : (BitVec.ofBool b).setWidth 16 = if b then 1 else 0 := by
  cases b <;> rfl

theorem hostRead_lineMode (s : State) :
    s.hostRead .lineMode = if decide (s.lineMode = .transmit) then 1 else 0 := by
  rw [State.hostRead]
  cases s.lineMode <;> rfl

/-- Settles O49: a write by the register it names, a read of each register. -/
theorem hostWritesThreeRegisters : Obligations.HostWritesThreeRegisters := by
  intro s r v hc
  refine ⟨by rw [step_offer_hostWrite hc, hostWrite_eq],
    BitVec.toNat_setWidth_of_le (by decide), rfl, rfl, ?_⟩
  intro r b hrb
  simp only [List.mem_cons, Prod.mk.injEq, List.not_mem_nil, or_false] at hrb
  obtain ⟨rfl, rfl⟩ | ⟨rfl, rfl⟩ | ⟨rfl, rfl⟩ | ⟨rfl, rfl⟩ | ⟨rfl, rfl⟩ | ⟨rfl, rfl⟩ | ⟨rfl, rfl⟩ |
    ⟨rfl, rfl⟩ := hrb
  case inr.inr.inr.inr.inl => exact hostRead_lineMode s
  all_goals exact setWidth_ofBool _

theorem storeKindOk_iff {c : Config} {ref : StorageRef} {v : Value} :
    storeKindOk c ref v = true ↔ ∀ k ∈ boundKinds c ref, k = valueKind v := by
  simp [storeKindOk]

theorem step_offer_hostStore (hc : configOk s.cfg = true) (ref : StorageRef) (v : Value) :
    step (s.offer (.hostStore ref v)) =
      if storeKindOk s.cfg ref v then .next (s.storeWrite ref v) else .fault .storeOfWrongKind :=
  step_offer hc _

/-- Settles O50, from the laws of the store. -/
theorem hostStoresOneValue : Obligations.HostStoresOneValue := by
  intro s ref v h
  rw [step_offer_hostStore h.config]
  refine ⟨fun hk => ?_, fun ⟨k, hk, hne⟩ => if_neg fun hok => hne (storeKindOk_iff.1 hok k hk)⟩
  refine ⟨_, if_pos (storeKindOk_iff.2 hk), rfl, ?_, fun ref' hne => ?_⟩
  · exact (storeGet_put h.store ref ref v).trans (if_pos rfl)
  · exact (storeGet_put h.store ref ref' v).trans (if_neg hne)

/-! ### The slave address and the store -/

/-- `t` has the slave address and the store of `s`. -/
def AddressAndStoreKept (s t : State) : Prop := t.slaveAddr = s.slaveAddr ∧ t.store = s.store

/-- What the answer of `d` may make of them: FORCE_ADDR sets the address, the three writes the store;
the request leaves the queue (45_encoders.md R128, R140). -/
structure AddressAndStoreAnswered (d : PendingRequest) (s t : State) : Prop where
  slave : t.slaveAddr ≠ s.slaveAddr → d.fc = 0x44 ∧ t.slaveAddr = d.payload.getD 0 0
  store : t.store ≠ s.store → d.fc ∈ ([0x05, 0x06, 0x10] : List Byte)
  queue : t.q = s.q.discardHead s.cfg.qCap

theorem handleRxByte_addressAndStoreKept (x : Byte) (s : State) :
    AddressAndStoreKept s (handleRxByte x s) := by
  rw [handleRxByte]
  split <;> exact ⟨rfl, rfl⟩

theorem handleTxReady_addressAndStoreKept (s : State) :
    AddressAndStoreKept s (handleTxReady s) := by
  rw [handleTxReady]
  repeat' split
  all_goals exact ⟨rfl, rfl⟩

/-- The registers that the host writes are others (R163, R167). -/
theorem hostWrite_addressAndStoreKept (s : State) (r : HostReg) (v : U16) :
    AddressAndStoreKept s (s.hostWrite r v) := by
  rw [hostWrite_eq]
  repeat' split
  all_goals exact ⟨rfl, rfl⟩

/-- An instruction acts on them when it is answered, not in RECV (log 14). -/
theorem exec_addressAndStoreKept {i : Instr} (h : Inv s) (he : exec i s = .next t) :
    AddressAndStoreKept s t := by
  cases exec_ends h he <;> exact ⟨rfl, rfl⟩

theorem Due.addressAndStoreAnswered {d : PendingRequest} (h : Due d s)
    (ha : answer d (s.setClassTimer d.cls .off) = .next t) : AddressAndStoreAnswered d s t := by
  obtain ⟨u, -, hF, -, -, -, hend⟩ := answer_cases (s := s.setClassTimer d.cls .off) h.request
    (h.txReady.setClassTimer _ _) ha
  have ht : t.slaveAddr = u.slaveAddr ∧ t.store = u.store := by
    rcases hend with hend | ⟨hend, -⟩ <;> rw [hend] <;> exact ⟨rfl, rfl⟩
  obtain ⟨hslave, hstore⟩ := ht
  refine ⟨fun hne => ?_, fun hne => not_imp_comm.1 hF.store (hstore ▸ hne), (answer_queue ha :)⟩
  rw [hslave] at hne ⊢
  exact hF.slave.resolve_left hne

/-- Only CLASS_FIRE, answering, and HOST_STORE move the slave address or the store. -/
theorem Handled.addressAndStore {e : Event} (h : Inv s) (hH : Handled s e t) :
    AddressAndStoreKept s t ∨ (∃ ref v, e = .hostStore ref v ∧ t.slaveAddr = s.slaveAddr) ∨
      ∃ d, Due d s ∧ e = .classFire d.cls ∧ AddressAndStoreAnswered d s t := by
  cases hH with
  | hostStore ref v hk => exact .inr (.inl ⟨ref, v, rfl, rfl⟩)
  | answer d hq hk hi t ha =>
    have hdue := h.due hq hk hi
    exact .inr (.inr ⟨d, hdue, rfl, hdue.addressAndStoreAnswered ha⟩)
  | run hp i t he => exact .inl (exec_addressAndStoreKept h.receiving he :)
  | rxByte x => exact .inl (handleRxByte_addressAndStoreKept x s)
  | txReady => exact .inl (handleTxReady_addressAndStoreKept s)
  | hostWrite r v => exact .inl (hostWrite_addressAndStoreKept s r v)
  | tick | wait | drop | wdogFire | classIdle | classBusy => exact .inl ⟨rfl, rfl⟩

/-- A host store comes off the script: fairness promises none (70_reset_and_hazards.md R183). -/
theorem nextEvent_hostStore {ref : StorageRef} {v : Value}
    (h : nextEvent s = some (.hostStore ref v)) : ∃ rest, s.inputs = .hostStore ref v :: rest := by
  rcases nextEvent_cases h with ⟨rest, hin, -⟩ | ⟨-, hm, -⟩
  · exact ⟨rest, hin⟩
  · simpa using (promisedEvents_mem hm).2

/-- What makes a request due is not touched as the event is taken. -/
theorem Due.of_takeEvent {d : PendingRequest} {e : Event} (hs : Inv s) (h : Due d (s.takeEvent e)) :
    Due d s := by
  obtain ⟨-, hfirst, hexpired, hidle⟩ := h
  rw [State.takeEvent_q] at hfirst
  rw [State.takeEvent_ctimer] at hexpired
  rw [State.takeEvent_txInProgress] at hidle
  exact ⟨hs, hfirst, hexpired, hidle⟩

/-- Settles O60: the handler of the next event keeps both, or it is the host's store, or the answer of
a due request. -/
theorem whoMovesAddressAndStore : Obligations.WhoMovesAddressAndStore := by
  intro s t h hs
  rcases step_cases hs with ⟨e, hn, hH⟩ | ⟨-, rfl⟩
  · rcases hH.addressAndStore (h.takeEvent e) with
      ⟨hslave, hstore⟩ | ⟨ref, v, rfl, hslave⟩ | ⟨d, hd, rfl, hslave, hstore, hq⟩
    · rw [State.takeEvent_slaveAddr] at hslave
      rw [State.takeEvent_store] at hstore
      exact ⟨absurd hslave, absurd hstore⟩
    · rw [State.takeEvent_slaveAddr] at hslave
      obtain ⟨rest, hin⟩ := nextEvent_hostStore hn
      exact ⟨absurd hslave, fun _ => .inl ⟨ref, v, rest, hin⟩⟩
    · rw [State.takeEvent_slaveAddr] at hslave
      rw [State.takeEvent_store] at hstore
      rw [State.takeEvent_q, State.takeEvent_cfg] at hq
      have hdue := hd.of_takeEvent h
      refine ⟨fun hne => ?_, fun hne => .inr ⟨d, hdue, hstore hne, hn, hq⟩⟩
      obtain ⟨hfc, haddr⟩ := hslave hne
      exact ⟨d, hdue, hfc, hn, haddr, hq⟩
  · exact ⟨absurd rfl, absurd rfl⟩

end Sys2Proof.Machine
end
